-- ==== Sys2Proof/Config.lean ====
section
/-! DEFINITION. What an implementation fixes (`00_scope.md` R11, R12): the shape of the parameters the spec decides but the
source does not state, and the free values. The values of the parameters stand in `Machine/Parameters.lean` (`config`), where
a later audit may correct a number; the types of a word and of a byte follow from them in `Word.lean`. -/

namespace Sys2Proof

/-- The nine opcodes (`30_encoding.md` R84). -/
inductive Opcode
  | quit | wr | alloc | dealloc | b2r | r2r | r2b | op | sys
  deriving DecidableEq, Repr

/-- The fifteen ALU operations (`44_operate.md` R176). -/
inductive AluOp
  | shr | shl | not | and | or | xor | add | sub | mul | div | mod | lt | le | gt | ge
  deriving DecidableEq, Repr

/-- The six host operations (`45_syscall.md` R211). -/
inductive SysOp
  | read | write | open | close | stat | fstat
  deriving DecidableEq, Repr

/-- The error codes, by name (`60_exceptions.md` R231). Their numbers are `Config.err`. -/
inductive ErrorCode
  | noError
  | allocTableFull
  | allocBackingRejected
  | deallocNotAllocated
  | malformedInput
  | invalidTransferSize
  | unimplementedOpcode
  | unimplementedAluOp
  | unimplementedSyscall
  | divideByZero
  | moduloByZero
  deriving DecidableEq, Repr

/-- The orders in which the bytes of a number can stand in memory (`20_memory.md` R54). -/
inductive ByteOrder
  /-- The byte at the lowest address is the least significant. -/
  | little
  /-- The byte at the lowest address is the most significant. -/
  | big
  deriving DecidableEq, Repr

/-- The parameters that R12 asks a model to keep as configuration fields and that the type of a word and the order of its bytes
follow from. -/
structure WordConfig where
  /-- XLEN: the width in bits of a word, a register and an address (`92_eei_decisions.md` D1). -/
  xlen : Nat
  /-- BYTE_ORDER: the byte order of opcode IDs, imm64 and transfers (D2). -/
  byteOrder : ByteOrder
  deriving DecidableEq, Repr

/-- The other parameters of `00_scope.md` R11 that the spec marks as its own decision and that R12 asks a model to keep as
configuration fields, for a machine of the words of `w`. SHIFT_OVERWIDTH, which R11 leaves open, is the free value
`Config.overwideShift`. -/
structure Config (w : WordConfig) where
  /-- OPC_*: the 16-bit ID of each opcode (D4). -/
  opc : Opcode → BitVec 16
  /-- ALU_*: the selector byte of each ALU operation (D6). -/
  alu : AluOp → BitVec 8
  /-- SYS_*: the selector byte of each host operation (D21). -/
  sys : SysOp → BitVec 8
  /-- ERR_*: the word written or reported for each error (D13). -/
  err : ErrorCode → BitVec w.xlen
  /-- REC_LEN_OFF: byte offset of `length` in a Buffer record (D19). -/
  recLenOff : BitVec w.xlen
  /-- REC_DATA_OFF: byte offset of `data` in a Buffer record (D19). -/
  recDataOff : BitVec w.xlen
  /-- QUIT_ADVANCES_IP: whether Quit adds its stride to r0 before halting (D12). -/
  quitAdvancesIp : Bool
  /-- SCRATCH_LOADED: whether decode writes the parameters into r2..r9 (D10). -/
  scratchLoaded : Bool

/-- One answer of the host to a machine of the words of `w`. ALLOC reads `reserve` (`42_allocation.md` R142); SYS reads the
other fields (`45_syscall.md` R218): the result word, for stat and fstat the size and the mode, and for read the number that
the bytes placed spell, of which MemWrite stores the low ones. -/
structure Answer (w : WordConfig) where
  reserve : Option (BitVec w.xlen)
  ret : BitVec w.xlen
  size : BitVec w.xlen
  mode : BitVec w.xlen
  bytes : Nat
  deriving DecidableEq, Repr, Inhabited

/-- FREE VALUE (log entry 3): SHIFT_OVERWIDTH, the result of a shift by XLEN or more (`44_operate.md` R177, R178;
`93_implementation_defined.md` U5). Nothing constrains it. -/
opaque Config.overwideShift (w : WordConfig) : Nat → BitVec w.xlen

/-- FREE VALUE (log entry 4): the host's answer to its `n`-th transaction where `State.hostAnswers` lists none
(`42_allocation.md` R142, `45_syscall.md` R218; U8, U10). Nothing constrains it. -/
opaque Config.hostAnswer (w : WordConfig) : Nat → Answer w

/-- FREE VALUE (log entry 5): what a mapped byte that nothing has written holds, for the region of the given serial number
at the given address (`20_memory.md` R62; U8). Nothing constrains it. -/
opaque Config.freshByte : Nat → Nat → BitVec 8

end Sys2Proof
end

