-- ==== Sys2Proof/Machine/Parameters.lean ====
section
/-! DEFINITION. The values of the configuration (`00_scope.md` R11): every number that the spec decided and the source does not
state. -/

namespace Sys2Proof

/-- XLEN and BYTE_ORDER (`00_scope.md` R11). Reducible, so that Lean sees a word to be one of 64 bits. -/
abbrev wordConfig : WordConfig where
  xlen := 64
  byteOrder := .little

/-- OPC_* (`30_encoding.md` R84). -/
def opcodeIds : Opcode → BitVec 16
  | .quit => 0
  | .wr => 1
  | .alloc => 2
  | .dealloc => 3
  | .b2r => 4
  | .r2r => 5
  | .r2b => 6
  | .op => 7
  | .sys => 8

/-- ALU_* (`44_operate.md` R176). -/
def aluSelectors : AluOp → BitVec 8
  | .shr => 0
  | .shl => 1
  | .not => 2
  | .and => 3
  | .or => 4
  | .xor => 5
  | .add => 6
  | .sub => 7
  | .mul => 8
  | .div => 9
  | .mod => 10
  | .lt => 11
  | .le => 12
  | .gt => 13
  | .ge => 14

/-- SYS_* (`45_syscall.md` R211). -/
def sysSelectors : SysOp → BitVec 8
  | .read => 0
  | .write => 1
  | .open => 2
  | .close => 3
  | .stat => 4
  | .fstat => 5

/-- ERR_* (`60_exceptions.md` R231). -/
def errorCodes : ErrorCode → BitVec wordConfig.xlen
  | .noError => 0
  | .allocTableFull => 1
  | .allocBackingRejected => 2
  | .deallocNotAllocated => 3
  | .malformedInput => 4
  | .invalidTransferSize => 5
  | .unimplementedOpcode => 6
  | .unimplementedAluOp => 7
  | .unimplementedSyscall => 8
  | .divideByZero => 9
  | .moduloByZero => 10

/-- The configuration this model runs with, the spec's defaults (`00_scope.md` R11). -/
def config : Config wordConfig where
  opc := opcodeIds
  alu := aluSelectors
  sys := sysSelectors
  err := errorCodes
  recLenOff := 0
  recDataOff := 8
  quitAdvancesIp := false
  scratchLoaded := true

end Sys2Proof
end

