-- ==== Sys2Proof/Word.lean ====
section
/-! DEFINITION. The word types of CORE: machine words, bytes, register indices and the Buffer pair. -/

namespace Sys2Proof

/-- A machine word, a register and an address are XLEN bits wide (`00_scope.md` R11, R13): 64 by decision D1. -/
abbrev Word := BitVec wordConfig.xlen

/-- One byte of memory or of the instruction stream (`20_memory.md` R50). -/
abbrev Byte := BitVec 8

/-- A register index, 0 to 255; every value of a "reg" field is one (`30_encoding.md` R81). -/
abbrev Reg := Fin 256

/-- The Buffer pair (`00_scope.md` R17): a length of one word and the address of the data. -/
structure Buffer where
  length : Word
  data : Word
  deriving DecidableEq, Repr, Inhabited

/-- The null buffer, which "denotes 'absent.'" (`00_scope.md` R17; `20_memory.md` R59). -/
abbrev nullBuffer : Buffer := { length := 0, data := 0 }

/-- One answer of the host, in words of this machine (`45_syscall.md` R218). -/
abbrev HostAnswer := Answer wordConfig

end Sys2Proof
end

