-- ==== Sys2Proof/Syntax.lean ====
section
/-! DEFINITION. The instructions: one constructor for each mnemonic of `spec/opcode_table.json`.

The table has four levels (`30_encoding.md` R102), and a row of an upper level contains rows below it. An instruction's
constructor is the most specific row that its bytes match. So `op` and `opIf` are the direct forms whose selector byte is
none of the fifteen, `sys` is the Syscall whose Number is none of the six, and each other word of those rows belongs to
the constructor of its operation. Every field of the encoding is kept, the ignored ones too (R100), since decode loads
them into the scratch registers (R85). -/

namespace Sys2Proof

/-- The instructions of BM0. Fields stand in byte order, except that a Mode byte is kept as the bits its class leaves free
(`30_encoding.md` R96): `n`, the predicate bit index Mode[4:0]; `m`, the ignored low bits of an always-executing Mode. -/
inductive Instr
  /-- Quit, format Q (R86). -/
  | quit (a b : Reg)
  /-- WriteRegister, format W (R87). -/
  | wr (d : Reg) (v : Word)
  /-- Allocate, format A (R88). -/
  | alloc (sizeSrc handleDst ptrDst lenDst : Reg)
  /-- Deallocate, format D (R89). -/
  | dealloc (handleSrc : Reg)
  /-- BufferToRegister, format L (R90). -/
  | b2r (addrSrc byteCount dst : Reg)
  /-- RegisterToRegister, format M (R91). -/
  | r2r (src dst : Reg)
  /-- RegisterToBuffer, format S (R92). -/
  | r2b (src byteCount addrDst : Reg)
  /-- Operate, Mode 64..127, with a selector byte that names no operation (R93, R96, R99). -/
  | op (flags : Reg) (m : BitVec 6) (sel : Byte) (a b dst : Reg)
  /-- Operate, Mode 0..31, with a selector byte that names no operation. -/
  | opIf (flags : Reg) (n : BitVec 5) (sel : Byte) (a b dst : Reg)
  /-- Operate, Mode 128..255: always, the selector in a register (R97). -/
  | opInd (flags : Reg) (m : BitVec 7) (selReg a b dst : Reg)
  /-- Operate, Mode 32..63: conditional, the selector in a register. -/
  | opIfInd (flags : Reg) (n : BitVec 5) (selReg a b dst : Reg)
  /-- Operate `shr`, direct, always (Mode 64..127). -/
  | opShr (flags : Reg) (m : BitVec 6) (a b dst : Reg)
  /-- Operate `shr`, direct, conditional (Mode 0..31). -/
  | opShrIf (flags : Reg) (n : BitVec 5) (a b dst : Reg)
  /-- Operate `shl`, direct, always (Mode 64..127). -/
  | opShl (flags : Reg) (m : BitVec 6) (a b dst : Reg)
  /-- Operate `shl`, direct, conditional (Mode 0..31). -/
  | opShlIf (flags : Reg) (n : BitVec 5) (a b dst : Reg)
  /-- Operate `not`, direct, always (Mode 64..127). -/
  | opNot (flags : Reg) (m : BitVec 6) (a b dst : Reg)
  /-- Operate `not`, direct, conditional (Mode 0..31). -/
  | opNotIf (flags : Reg) (n : BitVec 5) (a b dst : Reg)
  /-- Operate `and`, direct, always (Mode 64..127). -/
  | opAnd (flags : Reg) (m : BitVec 6) (a b dst : Reg)
  /-- Operate `and`, direct, conditional (Mode 0..31). -/
  | opAndIf (flags : Reg) (n : BitVec 5) (a b dst : Reg)
  /-- Operate `or`, direct, always (Mode 64..127). -/
  | opOr (flags : Reg) (m : BitVec 6) (a b dst : Reg)
  /-- Operate `or`, direct, conditional (Mode 0..31). -/
  | opOrIf (flags : Reg) (n : BitVec 5) (a b dst : Reg)
  /-- Operate `xor`, direct, always (Mode 64..127). -/
  | opXor (flags : Reg) (m : BitVec 6) (a b dst : Reg)
  /-- Operate `xor`, direct, conditional (Mode 0..31). -/
  | opXorIf (flags : Reg) (n : BitVec 5) (a b dst : Reg)
  /-- Operate `add`, direct, always (Mode 64..127). -/
  | opAdd (flags : Reg) (m : BitVec 6) (a b dst : Reg)
  /-- Operate `add`, direct, conditional (Mode 0..31). -/
  | opAddIf (flags : Reg) (n : BitVec 5) (a b dst : Reg)
  /-- Operate `sub`, direct, always (Mode 64..127). -/
  | opSub (flags : Reg) (m : BitVec 6) (a b dst : Reg)
  /-- Operate `sub`, direct, conditional (Mode 0..31). -/
  | opSubIf (flags : Reg) (n : BitVec 5) (a b dst : Reg)
  /-- Operate `mul`, direct, always (Mode 64..127). -/
  | opMul (flags : Reg) (m : BitVec 6) (a b dst : Reg)
  /-- Operate `mul`, direct, conditional (Mode 0..31). -/
  | opMulIf (flags : Reg) (n : BitVec 5) (a b dst : Reg)
  /-- Operate `div`, direct, always (Mode 64..127). -/
  | opDiv (flags : Reg) (m : BitVec 6) (a b dst : Reg)
  /-- Operate `div`, direct, conditional (Mode 0..31). -/
  | opDivIf (flags : Reg) (n : BitVec 5) (a b dst : Reg)
  /-- Operate `mod`, direct, always (Mode 64..127). -/
  | opMod (flags : Reg) (m : BitVec 6) (a b dst : Reg)
  /-- Operate `mod`, direct, conditional (Mode 0..31). -/
  | opModIf (flags : Reg) (n : BitVec 5) (a b dst : Reg)
  /-- Operate `lt`, direct, always (Mode 64..127). -/
  | opLt (flags : Reg) (m : BitVec 6) (a b dst : Reg)
  /-- Operate `lt`, direct, conditional (Mode 0..31). -/
  | opLtIf (flags : Reg) (n : BitVec 5) (a b dst : Reg)
  /-- Operate `le`, direct, always (Mode 64..127). -/
  | opLe (flags : Reg) (m : BitVec 6) (a b dst : Reg)
  /-- Operate `le`, direct, conditional (Mode 0..31). -/
  | opLeIf (flags : Reg) (n : BitVec 5) (a b dst : Reg)
  /-- Operate `gt`, direct, always (Mode 64..127). -/
  | opGt (flags : Reg) (m : BitVec 6) (a b dst : Reg)
  /-- Operate `gt`, direct, conditional (Mode 0..31). -/
  | opGtIf (flags : Reg) (n : BitVec 5) (a b dst : Reg)
  /-- Operate `ge`, direct, always (Mode 64..127). -/
  | opGe (flags : Reg) (m : BitVec 6) (a b dst : Reg)
  /-- Operate `ge`, direct, conditional (Mode 0..31). -/
  | opGeIf (flags : Reg) (n : BitVec 5) (a b dst : Reg)
  /-- Syscall with a Number that names no host operation (R94, R99). -/
  | sys (number : Byte) (arg0 arg1 arg2 arg3 arg4 arg5 ret : Reg)
  /-- Syscall `read`. -/
  | sysRead (arg0 arg1 arg2 arg3 arg4 arg5 ret : Reg)
  /-- Syscall `write`. -/
  | sysWrite (arg0 arg1 arg2 arg3 arg4 arg5 ret : Reg)
  /-- Syscall `open`. -/
  | sysOpen (arg0 arg1 arg2 arg3 arg4 arg5 ret : Reg)
  /-- Syscall `close`. -/
  | sysClose (arg0 arg1 arg2 arg3 arg4 arg5 ret : Reg)
  /-- Syscall `stat`. -/
  | sysStat (arg0 arg1 arg2 arg3 arg4 arg5 ret : Reg)
  /-- Syscall `fstat`. -/
  | sysFstat (arg0 arg1 arg2 arg3 arg4 arg5 ret : Reg)
  deriving DecidableEq, Repr

end Sys2Proof
end

