-- ==== Sys2Proof/Decode.lean ====
section
/-! DEFINITION. The byte order, the decoder and the encoder (`30_encoding.md`). -/

namespace Sys2Proof

/-! ## Byte order (`20_memory.md` R54) -/

/-- The number that bytes spell, the first one least significant. -/
def leNat : List Byte → Nat
  | [] => 0
  | b :: bs => b.toNat + 256 * leNat bs

/-- The `n` low-order bytes of a number, the least significant first. -/
def leBytes : Nat → Nat → List Byte
  | 0, _ => []
  | n + 1, v => BitVec.ofNat 8 v :: leBytes n (v / 256)

/-- The number that bytes spell, the first one at the lowest address (BYTE_ORDER; `20_memory.md` R52). -/
def natOfBytes (bs : List Byte) : Nat :=
  match wordConfig.byteOrder with
  | .little => leNat bs
  | .big => leNat bs.reverse

/-- The `n` low-order bytes of a number, the one for the lowest address first (BYTE_ORDER; `20_memory.md` R53). -/
def bytesOfNat (n v : Nat) : List Byte :=
  match wordConfig.byteOrder with
  | .little => leBytes n v
  | .big => (leBytes n v).reverse

/-- The opcode ID that the first two bytes of an instruction spell (BYTE_ORDER; `30_encoding.md` R80). -/
def idOfBytes (b0 b1 : Byte) : BitVec 16 :=
  match wordConfig.byteOrder with
  | .little => b1 ++ b0
  | .big => b0 ++ b1

/-! ## Selecting by number -/

def allOpcodes : List Opcode := [.quit, .wr, .alloc, .dealloc, .b2r, .r2r, .r2b, .op, .sys]

def allAluOps : List AluOp :=
  [.shr, .shl, .not, .and, .or, .xor, .add, .sub, .mul, .div, .mod, .lt, .le, .gt, .ge]

def allSysOps : List SysOp := [.read, .write, .open, .close, .stat, .fstat]

/-- The opcode an ID names, all 16 bits compared (`30_encoding.md` R84). -/
def opcodeOfId (id : BitVec 16) : Option Opcode :=
  allOpcodes.find? fun o => config.opc o == id

/-- The ALU operation a selector names, the whole word compared (`44_operate.md` R175). -/
def aluOfSelector (sel : Word) : Option AluOp :=
  allAluOps.find? fun o => (config.alu o).setWidth wordConfig.xlen == sel

/-- The host operation a Number names (`45_syscall.md` R211). -/
def sysOfNumber (number : Byte) : Option SysOp :=
  allSysOps.find? fun o => config.sys o == number

/-- "The fixed total byte length an instruction occupies" (`30_encoding.md` R84). -/
def opcodeStride : Opcode → Nat
  | .quit => 4
  | .wr => 11
  | .alloc => 6
  | .dealloc => 3
  | .b2r => 5
  | .r2r => 4
  | .r2b => 5
  | .op => 8
  | .sys => 10

/-! ## Fields -/

/-- A reg field as a register index (`30_encoding.md` R81). -/
def regOfByte (b : Byte) : Reg := ⟨b.toNat, b.isLt⟩

/-- A register index as a reg field. -/
def byteOfReg (r : Reg) : Byte := BitVec.ofNat 8 r.val

/-- AlwaysExecute (`30_encoding.md` R96). -/
def modeAlways (mode : Byte) : Bool := mode.getLsbD 7 || mode.getLsbD 6

/-- OperandIsIndirect (`30_encoding.md` R96). -/
def modeIndirect (mode : Byte) : Bool := mode.getLsbD 7 || (!mode.getLsbD 6 && mode.getLsbD 5)

/-- The Mode byte of an always-executing direct Operate: 01 and the ignored bits. -/
def modeAlwaysDirect (m : BitVec 6) : Byte := 1#2 ++ m

/-- The Mode byte of an always-executing indirect Operate: 1 and the ignored bits. -/
def modeAlwaysIndirect (m : BitVec 7) : Byte := 1#1 ++ m

/-- The Mode byte of a conditional direct Operate: 000 and the bit index. -/
def modeIfDirect (n : BitVec 5) : Byte := 0#3 ++ n

/-- The Mode byte of a conditional indirect Operate: 001 and the bit index. -/
def modeIfIndirect (n : BitVec 5) : Byte := 1#3 ++ n

/-- The always-executing direct Operate of an operation. -/
def instrOfAlu (o : AluOp) (flags : Reg) (m : BitVec 6) (a b dst : Reg) : Instr :=
  match o with
  | .shr => .opShr flags m a b dst
  | .shl => .opShl flags m a b dst
  | .not => .opNot flags m a b dst
  | .and => .opAnd flags m a b dst
  | .or => .opOr flags m a b dst
  | .xor => .opXor flags m a b dst
  | .add => .opAdd flags m a b dst
  | .sub => .opSub flags m a b dst
  | .mul => .opMul flags m a b dst
  | .div => .opDiv flags m a b dst
  | .mod => .opMod flags m a b dst
  | .lt => .opLt flags m a b dst
  | .le => .opLe flags m a b dst
  | .gt => .opGt flags m a b dst
  | .ge => .opGe flags m a b dst

/-- The conditional direct Operate of an operation. -/
def instrOfAluIf (o : AluOp) (flags : Reg) (n : BitVec 5) (a b dst : Reg) : Instr :=
  match o with
  | .shr => .opShrIf flags n a b dst
  | .shl => .opShlIf flags n a b dst
  | .not => .opNotIf flags n a b dst
  | .and => .opAndIf flags n a b dst
  | .or => .opOrIf flags n a b dst
  | .xor => .opXorIf flags n a b dst
  | .add => .opAddIf flags n a b dst
  | .sub => .opSubIf flags n a b dst
  | .mul => .opMulIf flags n a b dst
  | .div => .opDivIf flags n a b dst
  | .mod => .opModIf flags n a b dst
  | .lt => .opLtIf flags n a b dst
  | .le => .opLeIf flags n a b dst
  | .gt => .opGtIf flags n a b dst
  | .ge => .opGeIf flags n a b dst

/-- The Syscall of a host operation. -/
def instrOfSys (o : SysOp) (a0 a1 a2 a3 a4 a5 ret : Reg) : Instr :=
  match o with
  | .read => .sysRead a0 a1 a2 a3 a4 a5 ret
  | .write => .sysWrite a0 a1 a2 a3 a4 a5 ret
  | .open => .sysOpen a0 a1 a2 a3 a4 a5 ret
  | .close => .sysClose a0 a1 a2 a3 a4 a5 ret
  | .stat => .sysStat a0 a1 a2 a3 a4 a5 ret
  | .fstat => .sysFstat a0 a1 a2 a3 a4 a5 ret

/-- Operate by its Mode class and its selector byte (`30_encoding.md` R93, R96, R97). -/
def decodeOperate (flags : Reg) (mode sel : Byte) (a b dst : Reg) : Instr :=
  if modeAlways mode then
    if modeIndirect mode then .opInd flags (mode.setWidth 7) (regOfByte sel) a b dst
    else
      match aluOfSelector (sel.setWidth wordConfig.xlen) with
      | some o => instrOfAlu o flags (mode.setWidth 6) a b dst
      | none => .op flags (mode.setWidth 6) sel a b dst
  else if modeIndirect mode then .opIfInd flags (mode.setWidth 5) (regOfByte sel) a b dst
  else
    match aluOfSelector (sel.setWidth wordConfig.xlen) with
    | some o => instrOfAluIf o flags (mode.setWidth 5) a b dst
    | none => .opIf flags (mode.setWidth 5) sel a b dst

/-- Syscall by its Number (`30_encoding.md` R94). -/
def decodeSyscall (number : Byte) (a0 a1 a2 a3 a4 a5 ret : Reg) : Instr :=
  match sysOfNumber number with
  | some o => instrOfSys o a0 a1 a2 a3 a4 a5 ret
  | none => .sys number a0 a1 a2 a3 a4 a5 ret

/-- The instruction of an opcode and its parameter bytes, the bytes from offset 2 on (`30_encoding.md` R86 to R94). The callers
give it `opcodeStride o - 2` bytes. -/
def decodeParams (o : Opcode) (ps : List Byte) : Instr :=
  let p := fun k => ps.getD k 0
  let r := fun k => regOfByte (ps.getD k 0)
  match o with
  | .quit => .quit (r 0) (r 1)
  | .wr => .wr (r 0) (BitVec.ofNat wordConfig.xlen (natOfBytes (ps.drop 1)))
  | .alloc => .alloc (r 0) (r 1) (r 2) (r 3)
  | .dealloc => .dealloc (r 0)
  | .b2r => .b2r (r 0) (r 1) (r 2)
  | .r2r => .r2r (r 0) (r 1)
  | .r2b => .r2b (r 0) (r 1) (r 2)
  | .op => decodeOperate (r 0) (p 1) (p 2) (r 3) (r 4) (r 5)
  | .sys => decodeSyscall (p 0) (r 1) (r 2) (r 3) (r 4) (r 5) (r 6) (r 7)

/-- Cuts the parameter bytes of an opcode into the words that decode loads into r2.. (`30_encoding.md` R85): one word a byte,
but WriteRegister's imm64 is one parameter. -/
def cutParams (o : Opcode) (ps : List Byte) : List Word :=
  match o with
  | .wr => [(ps.getD 0 0).setWidth wordConfig.xlen, BitVec.ofNat wordConfig.xlen (natOfBytes (ps.drop 1))]
  | _ => ps.map fun b => b.setWidth wordConfig.xlen

/-- Why bytes are no instruction. -/
inductive DecodeError
  /-- Fewer bytes than the opcode ID and its stride need. -/
  | truncated
  /-- "An unrecognized opcode ID" (`30_encoding.md` R99). -/
  | unrecognisedOpcode (id : BitVec 16)
  deriving DecidableEq, Repr

/-- What the decoder answers: an instruction and the bytes after it, or why there is none. -/
inductive Decoded
  | ok (i : Instr) (rest : List Byte)
  | error (e : DecodeError)
  deriving DecidableEq, Repr

/-- The decoder: the instruction at the head of a byte list, and the bytes after it (`30_encoding.md` R80, R82). -/
def decode (bytes : List Byte) : Decoded :=
  match bytes with
  | b0 :: b1 :: rest =>
    match opcodeOfId (idOfBytes b0 b1) with
    | none => .error (.unrecognisedOpcode (idOfBytes b0 b1))
    | some o =>
      if rest.length < opcodeStride o - 2 then .error .truncated
      else .ok (decodeParams o (rest.take (opcodeStride o - 2))) (rest.drop (opcodeStride o - 2))
  | _ => .error .truncated

/-! ## The encoder -/

/-- The two bytes of an opcode ID, in the byte order (`30_encoding.md` R80). -/
def encodeId (o : Opcode) : List Byte := bytesOfNat 2 (config.opc o).toNat

/-- Format O (`30_encoding.md` R93). -/
def encodeOperate (flags : Reg) (mode sel : Byte) (a b dst : Reg) : List Byte :=
  encodeId .op ++ [byteOfReg flags, mode, sel, byteOfReg a, byteOfReg b, byteOfReg dst]

/-- Format Y (`30_encoding.md` R94). -/
def encodeSyscall (number : Byte) (a0 a1 a2 a3 a4 a5 ret : Reg) : List Byte :=
  encodeId .sys ++ [number, byteOfReg a0, byteOfReg a1, byteOfReg a2, byteOfReg a3, byteOfReg a4, byteOfReg a5, byteOfReg ret]

/-- The bytes of an instruction, lowest address first (`30_encoding.md` R86 to R94). -/
def encode : Instr → List Byte
  | .quit a b => encodeId .quit ++ [byteOfReg a, byteOfReg b]
  | .wr d v => encodeId .wr ++ byteOfReg d :: bytesOfNat 8 v.toNat
  | .alloc sz h p l => encodeId .alloc ++ [byteOfReg sz, byteOfReg h, byteOfReg p, byteOfReg l]
  | .dealloc h => encodeId .dealloc ++ [byteOfReg h]
  | .b2r a n d => encodeId .b2r ++ [byteOfReg a, byteOfReg n, byteOfReg d]
  | .r2r x d => encodeId .r2r ++ [byteOfReg x, byteOfReg d]
  | .r2b x n a => encodeId .r2b ++ [byteOfReg x, byteOfReg n, byteOfReg a]
  | .op f m sel a b d => encodeOperate f (modeAlwaysDirect m) sel a b d
  | .opIf f n sel a b d => encodeOperate f (modeIfDirect n) sel a b d
  | .opInd f m sel a b d => encodeOperate f (modeAlwaysIndirect m) (byteOfReg sel) a b d
  | .opIfInd f n sel a b d => encodeOperate f (modeIfIndirect n) (byteOfReg sel) a b d
  | .opShr f m a b d => encodeOperate f (modeAlwaysDirect m) (config.alu .shr) a b d
  | .opShrIf f n a b d => encodeOperate f (modeIfDirect n) (config.alu .shr) a b d
  | .opShl f m a b d => encodeOperate f (modeAlwaysDirect m) (config.alu .shl) a b d
  | .opShlIf f n a b d => encodeOperate f (modeIfDirect n) (config.alu .shl) a b d
  | .opNot f m a b d => encodeOperate f (modeAlwaysDirect m) (config.alu .not) a b d
  | .opNotIf f n a b d => encodeOperate f (modeIfDirect n) (config.alu .not) a b d
  | .opAnd f m a b d => encodeOperate f (modeAlwaysDirect m) (config.alu .and) a b d
  | .opAndIf f n a b d => encodeOperate f (modeIfDirect n) (config.alu .and) a b d
  | .opOr f m a b d => encodeOperate f (modeAlwaysDirect m) (config.alu .or) a b d
  | .opOrIf f n a b d => encodeOperate f (modeIfDirect n) (config.alu .or) a b d
  | .opXor f m a b d => encodeOperate f (modeAlwaysDirect m) (config.alu .xor) a b d
  | .opXorIf f n a b d => encodeOperate f (modeIfDirect n) (config.alu .xor) a b d
  | .opAdd f m a b d => encodeOperate f (modeAlwaysDirect m) (config.alu .add) a b d
  | .opAddIf f n a b d => encodeOperate f (modeIfDirect n) (config.alu .add) a b d
  | .opSub f m a b d => encodeOperate f (modeAlwaysDirect m) (config.alu .sub) a b d
  | .opSubIf f n a b d => encodeOperate f (modeIfDirect n) (config.alu .sub) a b d
  | .opMul f m a b d => encodeOperate f (modeAlwaysDirect m) (config.alu .mul) a b d
  | .opMulIf f n a b d => encodeOperate f (modeIfDirect n) (config.alu .mul) a b d
  | .opDiv f m a b d => encodeOperate f (modeAlwaysDirect m) (config.alu .div) a b d
  | .opDivIf f n a b d => encodeOperate f (modeIfDirect n) (config.alu .div) a b d
  | .opMod f m a b d => encodeOperate f (modeAlwaysDirect m) (config.alu .mod) a b d
  | .opModIf f n a b d => encodeOperate f (modeIfDirect n) (config.alu .mod) a b d
  | .opLt f m a b d => encodeOperate f (modeAlwaysDirect m) (config.alu .lt) a b d
  | .opLtIf f n a b d => encodeOperate f (modeIfDirect n) (config.alu .lt) a b d
  | .opLe f m a b d => encodeOperate f (modeAlwaysDirect m) (config.alu .le) a b d
  | .opLeIf f n a b d => encodeOperate f (modeIfDirect n) (config.alu .le) a b d
  | .opGt f m a b d => encodeOperate f (modeAlwaysDirect m) (config.alu .gt) a b d
  | .opGtIf f n a b d => encodeOperate f (modeIfDirect n) (config.alu .gt) a b d
  | .opGe f m a b d => encodeOperate f (modeAlwaysDirect m) (config.alu .ge) a b d
  | .opGeIf f n a b d => encodeOperate f (modeIfDirect n) (config.alu .ge) a b d
  | .sys k a0 a1 a2 a3 a4 a5 r => encodeSyscall k a0 a1 a2 a3 a4 a5 r
  | .sysRead a0 a1 a2 a3 a4 a5 r => encodeSyscall (config.sys .read) a0 a1 a2 a3 a4 a5 r
  | .sysWrite a0 a1 a2 a3 a4 a5 r => encodeSyscall (config.sys .write) a0 a1 a2 a3 a4 a5 r
  | .sysOpen a0 a1 a2 a3 a4 a5 r => encodeSyscall (config.sys .open) a0 a1 a2 a3 a4 a5 r
  | .sysClose a0 a1 a2 a3 a4 a5 r => encodeSyscall (config.sys .close) a0 a1 a2 a3 a4 a5 r
  | .sysStat a0 a1 a2 a3 a4 a5 r => encodeSyscall (config.sys .stat) a0 a1 a2 a3 a4 a5 r
  | .sysFstat a0 a1 a2 a3 a4 a5 r => encodeSyscall (config.sys .fstat) a0 a1 a2 a3 a4 a5 r

/-- The opcode of an instruction. -/
def instrOpcode : Instr → Opcode
  | .quit _ _ => .quit
  | .wr _ _ => .wr
  | .alloc _ _ _ _ => .alloc
  | .dealloc _ => .dealloc
  | .b2r _ _ _ => .b2r
  | .r2r _ _ => .r2r
  | .r2b _ _ _ => .r2b
  | .op _ _ _ _ _ _ => .op
  | .opIf _ _ _ _ _ _ => .op
  | .opInd _ _ _ _ _ _ => .op
  | .opIfInd _ _ _ _ _ _ => .op
  | .opShr _ _ _ _ _ => .op
  | .opShrIf _ _ _ _ _ => .op
  | .opShl _ _ _ _ _ => .op
  | .opShlIf _ _ _ _ _ => .op
  | .opNot _ _ _ _ _ => .op
  | .opNotIf _ _ _ _ _ => .op
  | .opAnd _ _ _ _ _ => .op
  | .opAndIf _ _ _ _ _ => .op
  | .opOr _ _ _ _ _ => .op
  | .opOrIf _ _ _ _ _ => .op
  | .opXor _ _ _ _ _ => .op
  | .opXorIf _ _ _ _ _ => .op
  | .opAdd _ _ _ _ _ => .op
  | .opAddIf _ _ _ _ _ => .op
  | .opSub _ _ _ _ _ => .op
  | .opSubIf _ _ _ _ _ => .op
  | .opMul _ _ _ _ _ => .op
  | .opMulIf _ _ _ _ _ => .op
  | .opDiv _ _ _ _ _ => .op
  | .opDivIf _ _ _ _ _ => .op
  | .opMod _ _ _ _ _ => .op
  | .opModIf _ _ _ _ _ => .op
  | .opLt _ _ _ _ _ => .op
  | .opLtIf _ _ _ _ _ => .op
  | .opLe _ _ _ _ _ => .op
  | .opLeIf _ _ _ _ _ => .op
  | .opGt _ _ _ _ _ => .op
  | .opGtIf _ _ _ _ _ => .op
  | .opGe _ _ _ _ _ => .op
  | .opGeIf _ _ _ _ _ => .op
  | .sys _ _ _ _ _ _ _ _ => .sys
  | .sysRead _ _ _ _ _ _ _ => .sys
  | .sysWrite _ _ _ _ _ _ _ => .sys
  | .sysOpen _ _ _ _ _ _ _ => .sys
  | .sysClose _ _ _ _ _ _ _ => .sys
  | .sysStat _ _ _ _ _ _ _ => .sys
  | .sysFstat _ _ _ _ _ _ _ => .sys

/-! ## The table's words -/

/-- The longest instruction, WriteRegister (`30_encoding.md` R82). -/
def longestStride : Nat := 11

/-- The bytes of an instruction whose `nbits` low bits are those of `w`, every further bit being 0 (`00_scope.md` R14). -/
def tableBytes (nbits w : Nat) : List Byte := leBytes longestStride (w % 2 ^ nbits)

/-- The instruction that the decoder reads from a word of `spec/opcode_table.json`. -/
def decodeTableWord (nbits w : Nat) : Option Instr :=
  match decode (tableBytes nbits w) with
  | .ok i _ => some i
  | .error _ => none

end Sys2Proof
end

