-- ==== Sys2Proof/Machine/State.lean ====
section
/-! DEFINITION. The state of CORE and of the units a model of it carries (`10_state.md`), the reasons a step can stop, and the
state after reset. -/

namespace Sys2Proof.Machine

/-- The run state (`10_state.md` R30). -/
inductive RunState
  | initializing | running | halted | faulted
  deriving DecidableEq, Repr

/-- Why an address range is mapped (`20_memory.md` R57): the host declared it (the record array, a sub-buffer, a host
region) or Allocate returned it under a handle. -/
inductive RegionOwner
  | host
  | allocation (handle : Fin 256)
  deriving DecidableEq, Repr

/-- A mapped region (`20_memory.md` R57). `serial` tells regions of different times apart, so that the bytes of a new one
that nothing has written are fresh (R62); it is the model's own. -/
structure Region where
  base : Word
  length : Word
  owner : RegionOwner
  serial : Nat
  deriving DecidableEq, Repr

/-- A transaction CORE sends to the host: `reserve` through ALLOC (`00_scope.md` R8), the others through SYS (R9), with
their argument words and, where the host reads memory (`45_syscall.md` R220), the bytes it reads. -/
inductive HostRequest
  | reserve (size : Word)
  | read (fd buf len : Word)
  | write (fd buf len : Word) (data : List Byte)
  | openPath (path flags mode : Word) (name : List Byte)
  | close (fd : Word)
  | stat (path : Word) (name : List Byte)
  | fstat (fd : Word)
  deriving DecidableEq, Repr

/-- The state of the machine. -/
structure State where
  /-- r0 .. r255 (`10_state.md` R20). -/
  regs : Vector Word 256
  /-- The run state (R30). -/
  runState : RunState
  /-- The output latch (R31). -/
  output : Buffer
  /-- The fatal error latch (R32). -/
  fatalCode : ErrorCode
  /-- The Allocation Table (R33; `42_allocation.md` R140). -/
  slots : Vector Buffer 256
  /-- The bytes written so far, as (address, byte) pairs, addresses strictly rising (R34). -/
  mem : List Host.Cell
  /-- The mapped regions (`20_memory.md` R57). -/
  regions : List Region
  /-- The input-buffers blob that HOST.start presented (`00_scope.md` R6). -/
  blob : Buffer
  /-- The model's own: answers the host has ready, the next one first (`45_syscall.md` R218). -/
  hostAnswers : List HostAnswer
  /-- The model's own: the transactions sent to the host, the latest first (`00_scope.md` R8, R9). -/
  requests : List HostRequest
  /-- The model's own: how many free values have been drawn. -/
  draws : Nat
  deriving DecidableEq, Repr

/-- Why the machine stops with no next state. Each is SAFE: nothing is claimed of what follows. -/
inductive Fault
  /-- A fetch, a parameter read, a load, a store, the record read of initialisation or a host access inside a Syscall
  touches an unmapped address (`20_memory.md` R58; U2). Raised by `fetch`, `initialise`, b2r, r2b, sys.read, sys.write,
  sys.open and sys.stat. Safe. -/
  | unmappedAccess (addr : Word) (count : Nat)
  /-- A soft error while r12 holds 256 or more: UNDEFINED(ErrSelRange) (`60_exceptions.md` R236; U3). Raised by
  `softError`. Safe. -/
  | errSelRange
  /-- Deallocate of a handle of 256 or more: UNDEFINED(HandleRange) (`42_allocation.md` R143, R146; U4). Raised by dealloc.
  Safe. -/
  | handleRange
  /-- "CORE performs no further step" in Halted and Faulted (`10_state.md` R30). Raised by `step`. Safe. -/
  | notRunning
  deriving DecidableEq, Repr

/-- Why an instruction has no meaning. -/
inductive Refusal
  /-- An arm of `exec` that is not modelled yet; no arm is. Safe. -/
  | notModelled (mnemonic : String)
  deriving DecidableEq, Repr

/-- The machine right after reset (`10_state.md` R37), with nothing placed by the host. The run state, the latches and the
table are the spec's. r0, r10, r11 and memory come from the host's blob, and the spec states no value for the other
registers: they are 0 here (DESIGN CHOICE, log entries 1 and 2). -/
def State.reset : State where
  regs := Vector.replicate 256 0
  runState := .running
  output := nullBuffer
  fatalCode := .noError
  slots := Vector.replicate 256 nullBuffer
  mem := []
  regions := []
  blob := nullBuffer
  hostAnswers := []
  requests := []
  draws := 0

end Sys2Proof.Machine
end

