-- ==== Sys2Proof/Machine/Ops.lean ====
section
/-! DEFINITION. The named operations over registers, memory, the allocation table and the host, and the two error mechanisms.
Every instruction is written over these. -/

namespace Sys2Proof.Machine

/-! ## Names of registers (`10_state.md` R21) -/

/-- IP. -/
abbrev ipReg : Reg := 0
/-- IID. -/
abbrev iidReg : Reg := 1
/-- INLEN. -/
abbrev inLenReg : Reg := 10
/-- INBASE. -/
abbrev inBaseReg : Reg := 11
/-- ERRSEL. -/
abbrev errSelReg : Reg := 12
/-- P`k`, register 2 + `k`. -/
def scratchReg (k : Nat) : Reg := Fin.ofNat 256 (2 + k)

/-- NPARAM, the number of scratch registers (`00_scope.md` R11). -/
def numScratch : Nat := 8
/-- ALLOC_CAP as the sentinel "no free slot" (`42_allocation.md` R140). -/
def noSlotHandle : Word := 256
/-- MAX_XFER (`00_scope.md` R11). -/
def maxTransfer : Nat := 8
/-- REC_SIZE (`00_scope.md` R11). -/
def recSize : Nat := 16
/-- MAX_SUBBUF (`00_scope.md` R11). -/
def maxSubBuffers : Nat := 16

/-! ## Updates of one field -/

/-- `x[r] <- v` (`00_scope.md` R15): no register is hardwired or read-only (`10_state.md` R23). -/
def State.setReg (s : State) (r : Reg) (v : Word) : State := { s with regs := s.regs.set r.val v r.isLt }

def State.setMem (s : State) (m : List Host.Cell) : State := { s with mem := m }

def State.setSlot (s : State) (h : Fin 256) (b : Buffer) : State := { s with slots := s.slots.set h.val b h.isLt }

def State.setRegions (s : State) (rs : List Region) : State := { s with regions := rs }

/-- Records a transaction sent to the host. -/
def State.send (s : State) (q : HostRequest) : State := { s with requests := q :: s.requests }

/-- Uses up one free value. -/
def State.tick (s : State) : State := { s with draws := s.draws + 1 }

/-- Uses up the host's next answer. -/
def State.dropAnswer (s : State) : State := { s with hostAnswers := s.hostAnswers.drop 1, draws := s.draws + 1 }

/-- Sets the run state and the two latches (`10_state.md` R30 to R32). -/
def State.conclude (s : State) (r : RunState) (out : Buffer) (code : ErrorCode) : State :=
  { s with runState := r, output := out, fatalCode := code }

/-! ## Registers -/

/-- `x[r]` (`00_scope.md` R15). -/
def State.reg (s : State) (r : Reg) : Word := s.regs[r.val]

/-- Writes the words to the scratch registers P`k`, P`k+1`, ... -/
def State.writeScratch (s : State) (k : Nat) : List Word → State
  | [] => s
  | v :: vs => (s.setReg (scratchReg k) v).writeScratch (k + 1) vs

/-- "Clear the 8 scratch instruction-parameter registers" (`40_fetch_dispatch_quit.md` R111). -/
def State.clearScratch (s : State) : State := s.writeScratch 0 (List.replicate numScratch 0)

/-- Decode's load of the parameters, under the switch SCRATCH_LOADED (`10_state.md` R26). -/
def State.loadScratch (s : State) (ps : List Word) : State :=
  if config.scratchLoaded then s.writeScratch 0 ps else s

/-- `x[0] <- (x[0] + n) mod 2^64`, with r0 as the effect left it (`40_fetch_dispatch_quit.md` R115). -/
def State.advance (s : State) (n : Nat) : State := s.setReg ipReg (s.reg ipReg + BitVec.ofNat wordConfig.xlen n)

/-! ## Memory as data -/

/-- The byte listed at an address, if something has written it. An unlisted address has no value of its own here:
`State.byteAt` says what a mapped one holds. -/
def Memory.read : List Host.Cell → Nat → Option Byte
  | [], _ => none
  | (k, b) :: m, a => if a = k then some b else Memory.read m a

/-- Writes one byte, keeping the addresses strictly rising. -/
def Memory.write : List Host.Cell → Nat → Byte → List Host.Cell
  | [], a, b => [(a, b)]
  | (k, c) :: m, a, b =>
    if a < k then (a, b) :: (k, c) :: m
    else if a = k then (a, b) :: m
    else (k, c) :: Memory.write m a b

/-- Writes bytes at `a`, `a + 1`, ..., each address modulo 2^64 (`20_memory.md` R53). -/
def Memory.writeBytes (m : List Host.Cell) (a : Word) : List Byte → List Host.Cell
  | [] => m
  | b :: bs => Memory.writeBytes (Memory.write m a.toNat b) (a + 1) bs

/-- The canonical form: addresses strictly rising. -/
abbrev Memory.wf (m : List Host.Cell) : Prop := m.Pairwise fun x y => x.1 < y.1

/-! ## Mapped regions (`20_memory.md` R57 to R59) -/

/-- Whether an address lies in a region. A region based at the null address maps nothing (R57), nor does one of length 0,
and none goes past 2^64 - 1. -/
def Region.contains (r : Region) (a : Nat) : Bool :=
  r.base != 0 && decide (r.base.toNat ≤ a) && decide (a < r.base.toNat + r.length.toNat) && decide (a < 2 ^ wordConfig.xlen)

/-- Whether a region meets the `size` addresses from `addr` on. -/
def Region.meets (r : Region) (addr size : Nat) : Bool :=
  r.base != 0 && decide (max r.base.toNat addr < min (r.base.toNat + r.length.toNat) (addr + size))

/-- The region an address lies in; of several that share the byte, the latest mapped. -/
def State.regionAt (s : State) (a : Nat) : Option Region := s.regions.find? fun r => r.contains a

/-- Whether an address is mapped. -/
def State.isMapped (s : State) (a : Nat) : Bool := s.regions.any fun r => r.contains a

/-- The byte at an address: none where it is unmapped (R58), else the byte last written, else the region's fresh byte (log
entry 5). -/
def State.byteAt (s : State) (a : Nat) : Option Byte :=
  match s.regionAt a with
  | none => none
  | some r => some ((Memory.read s.mem a).getD (Config.freshByte r.serial a))

/-- Whether the `n` addresses from `a` on are all mapped. -/
def State.rangeMapped (s : State) (a : Word) : Nat → Bool
  | 0 => true
  | n + 1 => s.isMapped a.toNat && s.rangeMapped (a + 1) n

/-- The `n` bytes from `a` on, each address modulo 2^64; none if one of them is unmapped (`20_memory.md` R52). -/
def State.loadBytes (s : State) (a : Word) : Nat → Option (List Byte)
  | 0 => some []
  | n + 1 =>
    match s.byteAt a.toNat with
    | none => none
    | some b =>
      match s.loadBytes (a + 1) n with
      | none => none
      | some bs => some (b :: bs)

/-- `MemRead(a, n)` (`20_memory.md` R52). -/
def State.memRead (s : State) (a : Word) (n : Nat) : Option Nat :=
  match s.loadBytes a n with
  | none => none
  | some bs => some (natOfBytes bs)

/-- `MemWrite(a, n, v)`: all of the bytes or, where one is unmapped, none (`20_memory.md` R53). -/
def State.memWrite (s : State) (a : Word) (n v : Nat) : Option State :=
  if s.rangeMapped a n then some (s.setMem (Memory.writeBytes s.mem a (bytesOfNat n v))) else none

/-- The bytes from `a` up to and including the first zero byte, within `fuel` addresses; none if one is unmapped. -/
def State.loadString (s : State) (a : Word) : Nat → Option (List Byte)
  | 0 => none
  | fuel + 1 =>
    match s.byteAt a.toNat with
    | none => none
    | some b =>
      if b = 0 then some [b]
      else
        match s.loadString (a + 1) fuel with
        | none => none
        | some bs => some (b :: bs)

/-- A zero-terminated path (`45_syscall.md` R214). There are 2^64 addresses and address 0 is never mapped, so the fuel never
decides. -/
def State.loadPath (s : State) (a : Word) : Option (List Byte) := s.loadString a (2 ^ wordConfig.xlen)

/-! ## The host's answers (`45_syscall.md` R218) -/

/-- The answer the host gives to the next transaction: the next one it has ready, else a free one (log entry 4). -/
def State.answer (s : State) : HostAnswer :=
  match s.hostAnswers with
  | h :: _ => h
  | [] => Config.hostAnswer wordConfig s.draws

/-! ## Errors (`60_exceptions.md`) -/

/-- What a step or an effect answers. -/
abbrev Result := Host.Outcome State Fault Refusal

/-- `SoftError(code)`: the last write of its instruction (`60_exceptions.md` R236). -/
def softError (code : ErrorCode) (s : State) : Result :=
  if h : (s.reg errSelReg).toNat < 256 then .next (s.setReg ⟨(s.reg errSelReg).toNat, h⟩ (config.err code))
  else .fault .errSelRange

/-- `raise Fatal(code)`: the machine's whole trap entry, after which nothing returns (`60_exceptions.md` R240, R242). -/
def State.fatal (s : State) (code : ErrorCode) : State := s.conclude .faulted nullBuffer code

/-! ## The allocation table (`42_allocation.md`) -/

/-- The slot of a handle. -/
def State.slot (s : State) (h : Fin 256) : Buffer := s.slots[h.val]

/-- "The first free slot" in index order (R141). -/
def State.freeSlot (s : State) : Option (Fin 256) :=
  (List.finRange 256).find? fun h => (s.slot h).data == 0

/-- `exists(handle)` (R147). -/
def State.handleExists (s : State) (handle : Nat) : Bool :=
  if h : handle < 256 then (s.slot ⟨handle, h⟩).data != 0 else false

/-- `count()` (R147). -/
def State.liveCount (s : State) : Nat := (List.finRange 256).countP fun h => (s.slot h).data != 0

/-- The address an answer of `HOST.reserve(size)` gives (R142): not null, not wrapping past 2^64 - 1 and meeting no mapped
region. An answer that breaks one of these is none a host can give, and counts as a refusal (log entry 6). -/
def State.grant (s : State) (size : Word) (ans : HostAnswer) : Option Word :=
  match ans.reserve with
  | none => none
  | some addr =>
    if addr != 0 && decide (addr.toNat + size.toNat ≤ 2 ^ wordConfig.xlen)
        && !(s.regions.any fun r => r.meets addr.toNat size.toNat) then some addr
    else none

/-- What `ALLOC.allocate` returns (R141). -/
inductive AllocAnswer
  | ok (handle : Fin 256) (addr : Word)
  | full
  | rejected
  deriving DecidableEq, Repr

/-- `ALLOC.allocate(size)` (R141). -/
def State.allocate (s : State) (size : Word) : AllocAnswer × State :=
  match s.freeSlot with
  | none => (.full, s)
  | some h =>
    let t := (s.send (.reserve size)).dropAnswer
    match s.grant size s.answer with
    | none => (.rejected, t)
    | some addr =>
      (.ok h addr,
        (t.setSlot h { length := size, data := addr }).setRegions
          ({ base := addr, length := size, owner := .allocation h, serial := s.draws } :: s.regions))

/-- Unmaps the region of a handle, and with it the bytes that no region holds any more (R143, `20_memory.md` R62). -/
def State.unmap (s : State) (h : Fin 256) : State :=
  let t := s.setRegions (s.regions.filter fun r => r.owner != .allocation h)
  t.setMem (s.mem.filter fun c => t.isMapped c.1)

/-- `ALLOC.deallocate(h)` (R143): none is NotAllocated. -/
def State.deallocate (s : State) (h : Fin 256) : Option State :=
  if (s.slot h).data = 0 then none
  else some ((s.unmap h).setSlot h nullBuffer)

end Sys2Proof.Machine
end

