-- ==== Sys2Proof/Machine/Operands.lean ====
section
/-! DEFINITION. Operand forms. There are three: a register, an immediate field, and memory addressed by a register
(`30_encoding.md` R95, `43_buffer_transfer.md` R162). An immediate needs no operation of its own, a register is `State.reg`. -/

namespace Sys2Proof.Machine

/-- The effective address of a transfer: the full value of the address register (`43_buffer_transfer.md` R162). -/
def State.effectiveAddr (s : State) (addrReg : Reg) : Word := s.reg addrReg

/-- The byte count of a transfer: the value of a register, not the parameter byte (`43_buffer_transfer.md` R162). -/
def State.transferCount (s : State) (countReg : Reg) : Nat := (s.reg countReg).toNat

/-- The selector of an indirect Operate: a full 64-bit register (`30_encoding.md` R97). -/
def State.indirectSelector (s : State) (selReg : Reg) : Word := s.reg selReg

end Sys2Proof.Machine
end

