-- ==== Sys2Proof/Machine/Alloc.lean ====
section
/-! DEFINITION. Allocate and Deallocate (`42_allocation.md`). -/

namespace Sys2Proof.Machine

/-- The three destinations of Allocate, written in the order HandleDst, PtrDst, LenDst (R144). -/
def State.setAlloc (s : State) (handleDst ptrDst lenDst : Reg) (handle ptr len : Word) : State :=
  ((s.setReg handleDst handle).setReg ptrDst ptr).setReg lenDst len

/-- A failed Allocate: the failure values, then the soft error (R144; `60_exceptions.md` R238). -/
def allocFails (code : ErrorCode) (handleDst ptrDst lenDst : Reg) (s : State) : Result :=
  softError code (s.setAlloc handleDst ptrDst lenDst noSlotHandle 0 0)

/-- Allocate (R144). -/
def execAlloc (sizeSrc handleDst ptrDst lenDst : Reg) (s : State) : Result :=
  match s.allocate (s.reg sizeSrc) with
  | (.ok h addr, t) => .next (t.setAlloc handleDst ptrDst lenDst (BitVec.ofNat wordConfig.xlen h.val) addr (s.reg sizeSrc))
  | (.full, t) => allocFails .allocTableFull handleDst ptrDst lenDst t
  | (.rejected, t) => allocFails .allocBackingRejected handleDst ptrDst lenDst t

/-- Deallocate (R146). -/
def execDealloc (handleSrc : Reg) (s : State) : Result :=
  if h : (s.reg handleSrc).toNat < 256 then
    match s.deallocate ⟨(s.reg handleSrc).toNat, h⟩ with
    | some t => .next t
    | none => softError .deallocNotAllocated s
  else .fault .handleRange

end Sys2Proof.Machine
end

