-- ==== Sys2Proof/Machine/Moves.lean ====
section
/-! DEFINITION. WriteRegister, RegisterToRegister and Quit. -/

namespace Sys2Proof.Machine

/-- WriteRegister: `x[D] <- V` (`41_register_writes.md` R130). -/
def execWr (d : Reg) (v : Word) (s : State) : Result := .next (s.setReg d v)

/-- RegisterToRegister: `x[Dst] <- x[Src]` (`41_register_writes.md` R131). -/
def execR2r (src dst : Reg) (s : State) : Result := .next (s.setReg dst (s.reg src))

/-- Quit: the output latch, NoError, Halted; r0 as the switch QUIT_ADVANCES_IP says (`40_fetch_dispatch_quit.md` R119). -/
def execQuit (a b : Reg) (s : State) : Result :=
  let t := s.conclude .halted { data := s.reg a, length := s.reg b } .noError
  .next (if config.quitAdvancesIp then t.advance (opcodeStride .quit) else t)

end Sys2Proof.Machine
end

