-- ==== Sys2Proof/Machine/Flags.lean ====
section
/-! DEFINITION. Predicates. The machine has no flags register and no instruction sets a flag (`10_state.md` R29); what there is
of this kind is Operate's gate and the boolean word of a comparison. -/

namespace Sys2Proof.Machine

/-- The gate of a conditional Operate: "bit `Mode mod 32` of `regs[FlagsReg]` must be set" (`44_operate.md` R173). -/
def gatePasses (s : State) (flags : Reg) (n : BitVec 5) : Bool := (s.reg flags).getLsbD n.toNat

/-- The boolean word: 1 for true, 0 for false (`44_operate.md` R188). -/
def boolWord (p : Bool) : Word := if p then 1 else 0

end Sys2Proof.Machine
end

