-- ==== Sys2Proof/Machine/Operate.lean ====
section
/-! DEFINITION. Operate (`44_operate.md`). -/

namespace Sys2Proof.Machine

/-- What an ALU operation gives. -/
inductive AluResult
  /-- The word written to Dst. -/
  | value (v : Word)
  /-- A word the spec does not state (SHIFT_OVERWIDTH). -/
  | anyValue
  /-- No result and a soft error. -/
  | softErr (code : ErrorCode)
  deriving DecidableEq, Repr

/-- The fifteen operations on unsigned 64-bit words (R177 to R192). -/
def aluResult (o : AluOp) (a b : Word) : AluResult :=
  match o with
  | .shr => if b.toNat < wordConfig.xlen then .value (a >>> b.toNat) else .anyValue
  | .shl => if b.toNat < wordConfig.xlen then .value (a <<< b.toNat) else .anyValue
  | .not => .value (~~~a)
  | .and => .value (a &&& b)
  | .or => .value (a ||| b)
  | .xor => .value (a ^^^ b)
  | .add => .value (a + b)
  | .sub => .value (a - b)
  | .mul => .value (a * b)
  | .div => if b = 0 then .softErr .divideByZero else .value (BitVec.ofNat wordConfig.xlen (a.toNat / b.toNat))
  | .mod => if b = 0 then .softErr .moduloByZero else .value (BitVec.ofNat wordConfig.xlen (a.toNat % b.toNat))
  | .lt => .value (boolWord (decide (a.toNat < b.toNat)))
  | .le => .value (boolWord (decide (a.toNat ≤ b.toNat)))
  | .gt => .value (boolWord (decide (b.toNat < a.toNat)))
  | .ge => .value (boolWord (decide (b.toNat ≤ a.toNat)))

/-- An Operate whose gate has passed and whose selector names `o`: `x[Dst] <- r`, or the soft error of a zero divisor, which
leaves Dst as it is (R171). An over-wide shift writes a free value to Dst (log entry 3). -/
def applyAlu (o : AluOp) (a b dst : Reg) (s : State) : Result :=
  match aluResult o (s.reg a) (s.reg b) with
  | .value v => .next (s.setReg dst v)
  | .anyValue => .next (s.tick.setReg dst (Config.overwideShift wordConfig s.draws))
  | .softErr code => softError code s

/-- Selector resolution after the gate: an unrecognised selector is a fatal fault (R175). -/
def applySelector (sel : Word) (a b dst : Reg) (s : State) : Result :=
  match aluOfSelector sel with
  | some o => applyAlu o a b dst s
  | none => .next (s.fatal .unimplementedAluOp)

/-- A conditional Operate: where the gate fails, no effect at all (R174). -/
def gated (flags : Reg) (n : BitVec 5) (effect : State → Result) (s : State) : Result :=
  if gatePasses s flags n then effect s else .next s

/-- Operate, always, with a selector byte (R171). -/
def execOp (sel : Byte) (a b dst : Reg) (s : State) : Result := applySelector (sel.setWidth wordConfig.xlen) a b dst s

/-- Operate, conditional, with a selector byte (R171). -/
def execOpIf (flags : Reg) (n : BitVec 5) (sel : Byte) (a b dst : Reg) (s : State) : Result :=
  gated flags n (applySelector (sel.setWidth wordConfig.xlen) a b dst) s

/-- Operate, always, with the selector in a register (R171). -/
def execOpInd (selReg a b dst : Reg) (s : State) : Result := applySelector (s.indirectSelector selReg) a b dst s

/-- Operate, conditional, with the selector in a register, which is read only when the gate passes (R171, R174). -/
def execOpIfInd (flags : Reg) (n : BitVec 5) (selReg a b dst : Reg) (s : State) : Result :=
  gated flags n (fun t => applySelector (t.indirectSelector selReg) a b dst t) s

/-- `op.shr` (R177). -/
def execOpShr (a b dst : Reg) (s : State) : Result := applyAlu .shr a b dst s

/-- `op.shr?n` (R177, R173). -/
def execOpShrIf (flags : Reg) (n : BitVec 5) (a b dst : Reg) (s : State) : Result := gated flags n (applyAlu .shr a b dst) s

/-- `op.shl` (R178). -/
def execOpShl (a b dst : Reg) (s : State) : Result := applyAlu .shl a b dst s

/-- `op.shl?n` (R178, R173). -/
def execOpShlIf (flags : Reg) (n : BitVec 5) (a b dst : Reg) (s : State) : Result := gated flags n (applyAlu .shl a b dst) s

/-- `op.not` (R179). -/
def execOpNot (a b dst : Reg) (s : State) : Result := applyAlu .not a b dst s

/-- `op.not?n` (R179, R173). -/
def execOpNotIf (flags : Reg) (n : BitVec 5) (a b dst : Reg) (s : State) : Result := gated flags n (applyAlu .not a b dst) s

/-- `op.and` (R180). -/
def execOpAnd (a b dst : Reg) (s : State) : Result := applyAlu .and a b dst s

/-- `op.and?n` (R180, R173). -/
def execOpAndIf (flags : Reg) (n : BitVec 5) (a b dst : Reg) (s : State) : Result := gated flags n (applyAlu .and a b dst) s

/-- `op.or` (R181). -/
def execOpOr (a b dst : Reg) (s : State) : Result := applyAlu .or a b dst s

/-- `op.or?n` (R181, R173). -/
def execOpOrIf (flags : Reg) (n : BitVec 5) (a b dst : Reg) (s : State) : Result := gated flags n (applyAlu .or a b dst) s

/-- `op.xor` (R182). -/
def execOpXor (a b dst : Reg) (s : State) : Result := applyAlu .xor a b dst s

/-- `op.xor?n` (R182, R173). -/
def execOpXorIf (flags : Reg) (n : BitVec 5) (a b dst : Reg) (s : State) : Result := gated flags n (applyAlu .xor a b dst) s

/-- `op.add` (R183). -/
def execOpAdd (a b dst : Reg) (s : State) : Result := applyAlu .add a b dst s

/-- `op.add?n` (R183, R173). -/
def execOpAddIf (flags : Reg) (n : BitVec 5) (a b dst : Reg) (s : State) : Result := gated flags n (applyAlu .add a b dst) s

/-- `op.sub` (R184). -/
def execOpSub (a b dst : Reg) (s : State) : Result := applyAlu .sub a b dst s

/-- `op.sub?n` (R184, R173). -/
def execOpSubIf (flags : Reg) (n : BitVec 5) (a b dst : Reg) (s : State) : Result := gated flags n (applyAlu .sub a b dst) s

/-- `op.mul` (R185). -/
def execOpMul (a b dst : Reg) (s : State) : Result := applyAlu .mul a b dst s

/-- `op.mul?n` (R185, R173). -/
def execOpMulIf (flags : Reg) (n : BitVec 5) (a b dst : Reg) (s : State) : Result := gated flags n (applyAlu .mul a b dst) s

/-- `op.div` (R186). -/
def execOpDiv (a b dst : Reg) (s : State) : Result := applyAlu .div a b dst s

/-- `op.div?n` (R186, R173). -/
def execOpDivIf (flags : Reg) (n : BitVec 5) (a b dst : Reg) (s : State) : Result := gated flags n (applyAlu .div a b dst) s

/-- `op.mod` (R187). -/
def execOpMod (a b dst : Reg) (s : State) : Result := applyAlu .mod a b dst s

/-- `op.mod?n` (R187, R173). -/
def execOpModIf (flags : Reg) (n : BitVec 5) (a b dst : Reg) (s : State) : Result := gated flags n (applyAlu .mod a b dst) s

/-- `op.lt` (R188). -/
def execOpLt (a b dst : Reg) (s : State) : Result := applyAlu .lt a b dst s

/-- `op.lt?n` (R188, R173). -/
def execOpLtIf (flags : Reg) (n : BitVec 5) (a b dst : Reg) (s : State) : Result := gated flags n (applyAlu .lt a b dst) s

/-- `op.le` (R189). -/
def execOpLe (a b dst : Reg) (s : State) : Result := applyAlu .le a b dst s

/-- `op.le?n` (R189, R173). -/
def execOpLeIf (flags : Reg) (n : BitVec 5) (a b dst : Reg) (s : State) : Result := gated flags n (applyAlu .le a b dst) s

/-- `op.gt` (R190). -/
def execOpGt (a b dst : Reg) (s : State) : Result := applyAlu .gt a b dst s

/-- `op.gt?n` (R190, R173). -/
def execOpGtIf (flags : Reg) (n : BitVec 5) (a b dst : Reg) (s : State) : Result := gated flags n (applyAlu .gt a b dst) s

/-- `op.ge` (R191). -/
def execOpGe (a b dst : Reg) (s : State) : Result := applyAlu .ge a b dst s

/-- `op.ge?n` (R191, R173). -/
def execOpGeIf (flags : Reg) (n : BitVec 5) (a b dst : Reg) (s : State) : Result := gated flags n (applyAlu .ge a b dst) s

end Sys2Proof.Machine
end

