-- ==== Sys2Proof/Machine/Syscall.lean ====
section
/-! DEFINITION. Syscall: its decode and write-back, and the host's answer as a draw (`45_syscall.md`). Register sources are read
before the transaction, destinations written after it, RetDst last (R210). -/

namespace Sys2Proof.Machine

/-- One synchronous transaction with the host (`00_scope.md` R9, `45_syscall.md` R218). -/
def State.transact (s : State) (q : HostRequest) : State := (s.send q).dropAnswer

/-- How many bytes a read of at most `len` bytes places: none for a negative result, and never more than `len` (R212). -/
def placedBytes (len : Word) (ans : HostAnswer) : Nat :=
  if ans.ret.msb then 0 else min ans.ret.toNat len.toNat

/-- The result word of a read: the negative indication, or the number of bytes placed (R212, R219). -/
def readResult (len : Word) (ans : HostAnswer) : Word :=
  if ans.ret.msb then ans.ret else BitVec.ofNat wordConfig.xlen (placedBytes len ans)

/-- read (R212): the host places bytes in memory from the buffer address on. -/
def execSysRead (arg0 arg1 arg2 ret : Reg) (s : State) : Result :=
  let buf := s.reg arg1
  let len := s.reg arg2
  let k := placedBytes len s.answer
  match (s.transact (.read (s.reg arg0) buf len)).memWrite buf k s.answer.bytes with
  | some t => .next (t.setReg ret (readResult len s.answer))
  | none => .fault (.unmappedAccess buf k)

/-- write (R213): the host takes the bytes of the buffer. -/
def execSysWrite (arg0 arg1 arg2 ret : Reg) (s : State) : Result :=
  let buf := s.reg arg1
  let len := s.reg arg2
  match s.loadBytes buf len.toNat with
  | some data => .next ((s.transact (.write (s.reg arg0) buf len data)).setReg ret s.answer.ret)
  | none => .fault (.unmappedAccess buf len.toNat)

/-- open (R214): the host reads the zero-terminated path. -/
def execSysOpen (arg0 arg1 arg2 ret : Reg) (s : State) : Result :=
  match s.loadPath (s.reg arg0) with
  | some name =>
    .next ((s.transact (.openPath (s.reg arg0) (s.reg arg1) (s.reg arg2) name)).setReg ret s.answer.ret)
  | none => .fault (.unmappedAccess (s.reg arg0) 1)

/-- close (R215). -/
def execSysClose (arg0 ret : Reg) (s : State) : Result :=
  .next ((s.transact (.close (s.reg arg0))).setReg ret s.answer.ret)

/-- The write-back of stat and fstat: size, mode, then the result, whatever its sign (R210, R216). -/
def State.setStat (s : State) (arg1 arg2 ret : Reg) (ans : HostAnswer) : State :=
  ((s.setReg arg1 ans.size).setReg arg2 ans.mode).setReg ret ans.ret

/-- stat (R216): the host reads the zero-terminated path. The fields Arg1 and Arg2 are destinations. -/
def execSysStat (arg0 arg1 arg2 ret : Reg) (s : State) : Result :=
  match s.loadPath (s.reg arg0) with
  | some name => .next ((s.transact (.stat (s.reg arg0) name)).setStat arg1 arg2 ret s.answer)
  | none => .fault (.unmappedAccess (s.reg arg0) 1)

/-- fstat (R217). The fields Arg1 and Arg2 are destinations. -/
def execSysFstat (arg0 arg1 arg2 ret : Reg) (s : State) : Result :=
  .next ((s.transact (.fstat (s.reg arg0))).setStat arg1 arg2 ret s.answer)

/-- Syscall by its Number (R210); an unrecognised one is a fatal fault, raised before anything else. -/
def execSys (number : Byte) (arg0 arg1 arg2 ret : Reg) (s : State) : Result :=
  match sysOfNumber number with
  | some .read => execSysRead arg0 arg1 arg2 ret s
  | some .write => execSysWrite arg0 arg1 arg2 ret s
  | some .open => execSysOpen arg0 arg1 arg2 ret s
  | some .close => execSysClose arg0 ret s
  | some .stat => execSysStat arg0 arg1 arg2 ret s
  | some .fstat => execSysFstat arg0 arg1 arg2 ret s
  | none => .next (s.fatal .unimplementedSyscall)

end Sys2Proof.Machine
end

