-- ==== Sys2Proof/Machine/Transfer.lean ====
section
/-! DEFINITION. BufferToRegister and RegisterToBuffer (`43_buffer_transfer.md`). -/

namespace Sys2Proof.Machine

/-- BufferToRegister: a zero-extending load of 0 to 8 bytes (R160). -/
def execB2r (addrSrc byteCount dst : Reg) (s : State) : Result :=
  let a := s.effectiveAddr addrSrc
  let n := s.transferCount byteCount
  if n ≤ maxTransfer then
    match s.memRead a n with
    | some v => .next (s.setReg dst (BitVec.ofNat wordConfig.xlen v))
    | none => .fault (.unmappedAccess a n)
  else softError .invalidTransferSize s

/-- RegisterToBuffer: a truncating store of 0 to 8 bytes (R161). -/
def execR2b (src byteCount addrDst : Reg) (s : State) : Result :=
  let a := s.effectiveAddr addrDst
  let n := s.transferCount byteCount
  if n ≤ maxTransfer then
    match s.memWrite a n (s.reg src).toNat with
    | some t => .next t
    | none => .fault (.unmappedAccess a n)
  else softError .invalidTransferSize s

end Sys2Proof.Machine
end

