-- ==== Sys2Proof/Machine/Dispatch.lean ====
section
/-! DEFINITION. One arm per constructor: phase 4 of the cycle, execute (`40_fetch_dispatch_quit.md` R114). -/

namespace Sys2Proof.Machine

def exec (i : Instr) (s : State) : Host.Outcome State Fault Refusal :=
  match i with
  | .quit a b => Sys2Proof.Machine.execQuit a b s
  | .wr d v => Sys2Proof.Machine.execWr d v s
  | .alloc sizeSrc handleDst ptrDst lenDst => Sys2Proof.Machine.execAlloc sizeSrc handleDst ptrDst lenDst s
  | .dealloc handleSrc => Sys2Proof.Machine.execDealloc handleSrc s
  | .b2r addrSrc byteCount dst => Sys2Proof.Machine.execB2r addrSrc byteCount dst s
  | .r2r src dst => Sys2Proof.Machine.execR2r src dst s
  | .r2b src byteCount addrDst => Sys2Proof.Machine.execR2b src byteCount addrDst s
  | .op _ _ sel a b dst => Sys2Proof.Machine.execOp sel a b dst s
  | .opIf flags n sel a b dst => Sys2Proof.Machine.execOpIf flags n sel a b dst s
  | .opInd _ _ selReg a b dst => Sys2Proof.Machine.execOpInd selReg a b dst s
  | .opIfInd flags n selReg a b dst => Sys2Proof.Machine.execOpIfInd flags n selReg a b dst s
  | .opShr _ _ a b dst => Sys2Proof.Machine.execOpShr a b dst s
  | .opShrIf flags n a b dst => Sys2Proof.Machine.execOpShrIf flags n a b dst s
  | .opShl _ _ a b dst => Sys2Proof.Machine.execOpShl a b dst s
  | .opShlIf flags n a b dst => Sys2Proof.Machine.execOpShlIf flags n a b dst s
  | .opNot _ _ a b dst => Sys2Proof.Machine.execOpNot a b dst s
  | .opNotIf flags n a b dst => Sys2Proof.Machine.execOpNotIf flags n a b dst s
  | .opAnd _ _ a b dst => Sys2Proof.Machine.execOpAnd a b dst s
  | .opAndIf flags n a b dst => Sys2Proof.Machine.execOpAndIf flags n a b dst s
  | .opOr _ _ a b dst => Sys2Proof.Machine.execOpOr a b dst s
  | .opOrIf flags n a b dst => Sys2Proof.Machine.execOpOrIf flags n a b dst s
  | .opXor _ _ a b dst => Sys2Proof.Machine.execOpXor a b dst s
  | .opXorIf flags n a b dst => Sys2Proof.Machine.execOpXorIf flags n a b dst s
  | .opAdd _ _ a b dst => Sys2Proof.Machine.execOpAdd a b dst s
  | .opAddIf flags n a b dst => Sys2Proof.Machine.execOpAddIf flags n a b dst s
  | .opSub _ _ a b dst => Sys2Proof.Machine.execOpSub a b dst s
  | .opSubIf flags n a b dst => Sys2Proof.Machine.execOpSubIf flags n a b dst s
  | .opMul _ _ a b dst => Sys2Proof.Machine.execOpMul a b dst s
  | .opMulIf flags n a b dst => Sys2Proof.Machine.execOpMulIf flags n a b dst s
  | .opDiv _ _ a b dst => Sys2Proof.Machine.execOpDiv a b dst s
  | .opDivIf flags n a b dst => Sys2Proof.Machine.execOpDivIf flags n a b dst s
  | .opMod _ _ a b dst => Sys2Proof.Machine.execOpMod a b dst s
  | .opModIf flags n a b dst => Sys2Proof.Machine.execOpModIf flags n a b dst s
  | .opLt _ _ a b dst => Sys2Proof.Machine.execOpLt a b dst s
  | .opLtIf flags n a b dst => Sys2Proof.Machine.execOpLtIf flags n a b dst s
  | .opLe _ _ a b dst => Sys2Proof.Machine.execOpLe a b dst s
  | .opLeIf flags n a b dst => Sys2Proof.Machine.execOpLeIf flags n a b dst s
  | .opGt _ _ a b dst => Sys2Proof.Machine.execOpGt a b dst s
  | .opGtIf flags n a b dst => Sys2Proof.Machine.execOpGtIf flags n a b dst s
  | .opGe _ _ a b dst => Sys2Proof.Machine.execOpGe a b dst s
  | .opGeIf flags n a b dst => Sys2Proof.Machine.execOpGeIf flags n a b dst s
  | .sys number arg0 arg1 arg2 _ _ _ ret => Sys2Proof.Machine.execSys number arg0 arg1 arg2 ret s
  | .sysRead arg0 arg1 arg2 _ _ _ ret => Sys2Proof.Machine.execSysRead arg0 arg1 arg2 ret s
  | .sysWrite arg0 arg1 arg2 _ _ _ ret => Sys2Proof.Machine.execSysWrite arg0 arg1 arg2 ret s
  | .sysOpen arg0 arg1 arg2 _ _ _ ret => Sys2Proof.Machine.execSysOpen arg0 arg1 arg2 ret s
  | .sysClose arg0 _ _ _ _ _ ret => Sys2Proof.Machine.execSysClose arg0 ret s
  | .sysStat arg0 arg1 arg2 _ _ _ ret => Sys2Proof.Machine.execSysStat arg0 arg1 arg2 ret s
  | .sysFstat arg0 arg1 arg2 _ _ _ ret => Sys2Proof.Machine.execSysFstat arg0 arg1 arg2 ret s

end Sys2Proof.Machine
end

