-- ==== Sys2Proof/Machine/Fetch.lean ====
section
/-! DEFINITION. Phases 1 to 3 and 5 of the cycle: clear and fetch, dispatch, decode, advance (`40_fetch_dispatch_quit.md` R111 to
R115). -/

namespace Sys2Proof.Machine

/-- What the phases before execution give. -/
inductive Fetched
  /-- A byte of the instruction is unmapped. -/
  | stop (f : Fault)
  /-- The opcode ID is none of the nine; no parameter byte is read (R112). -/
  | unrecognised (s : State)
  /-- The instruction, its opcode, and the state in which it executes. -/
  | instr (i : Instr) (o : Opcode) (s : State)

/-- r2..r9 cleared and r1 holding the ID (R111). -/
def State.fetched (s : State) (id : BitVec 16) : State := s.clearScratch.setReg iidReg (id.setWidth wordConfig.xlen)

/-- The state in which an instruction of opcode `o` with parameter bytes `ps` executes (R111, R113). -/
def State.decoded (s : State) (id : BitVec 16) (o : Opcode) (ps : List Byte) : State :=
  (s.fetched id).loadScratch (cutParams o ps)

/-- Phases 1 to 3. The bytes are addressed through r0 as it is when the cycle starts. -/
def fetch (s : State) : Fetched :=
  let ip := s.reg ipReg
  match s.memRead ip 2 with
  | none => .stop (.unmappedAccess ip 2)
  | some v =>
    let id := BitVec.ofNat 16 v
    match opcodeOfId id with
    | none => .unrecognised (s.fetched id)
    | some o =>
      match s.loadBytes (ip + 2) (opcodeStride o - 2) with
      | none => .stop (.unmappedAccess (ip + 2) (opcodeStride o - 2))
      | some ps => .instr (decodeParams o ps) o (s.decoded id o ps)

/-- Phase 5 on a state: the advance, unless the effect halted or faulted (R115). -/
def State.retire (s : State) (stride : Nat) : State :=
  if s.runState = .running then s.advance stride else s

/-- Phase 5 on what the effect answered. -/
def retire (stride : Nat) : Result → Result
  | .next t => .next (t.retire stride)
  | .fault f => .fault f
  | .refused r => .refused r

end Sys2Proof.Machine
end

