-- ==== Sys2Proof/Machine/Launch.lean ====
section
/-! DEFINITION. Reset: HOST.start, the Initializing state and HOST.result (`70_reset_and_hazards.md`, `00_scope.md` R6). -/

namespace Sys2Proof.Machine

/-- What the host presents at HOST.start: the blob, the contents of memory, the further regions it declares mapped
(`20_memory.md` R57), and the answers it has ready. -/
structure Launch where
  blob : Buffer
  mem : List Host.Cell
  hostRegions : List Buffer
  hostAnswers : List HostAnswer
  deriving DecidableEq, Repr

/-- A 64-bit field of a record, from the memory the host presents; none if a byte of it is not there. -/
def recordWord (m : List Host.Cell) (a : Word) : Option Word :=
  match Memory.read m a.toNat, Memory.read m (a + 1).toNat, Memory.read m (a + 2).toNat, Memory.read m (a + 3).toNat,
    Memory.read m (a + 4).toNat, Memory.read m (a + 5).toNat, Memory.read m (a + 6).toNat, Memory.read m (a + 7).toNat with
  | some b0, some b1, some b2, some b3, some b4, some b5, some b6, some b7 =>
    some (BitVec.ofNat wordConfig.xlen (natOfBytes [b0, b1, b2, b3, b4, b5, b6, b7]))
  | _, _, _, _, _, _, _, _ => none

/-- Record `k` of the blob (`20_memory.md` R60). -/
def blobRecord (m : List Host.Cell) (blob : Buffer) (k : Nat) : Option Buffer :=
  let a := blob.data + BitVec.ofNat wordConfig.xlen (recSize * k)
  match recordWord m (a + config.recLenOff), recordWord m (a + config.recDataOff) with
  | some l, some d => some { length := l, data := d }
  | _, _ => none

/-- The input sub-buffers, at most `maxSubBuffers` (`20_memory.md` R57). -/
def subBuffers (m : List Host.Cell) (blob : Buffer) : List Buffer :=
  (List.range (min (blob.length.toNat / recSize) maxSubBuffers)).filterMap (blobRecord m blob)

/-- A region of the host's. -/
def hostRegion (serial : Nat) (b : Buffer) : Region :=
  { base := b.data, length := b.length, owner := .host, serial := serial }

/-- HOST.start (`70_reset_and_hazards.md` R260): what the host presents becomes memory and the mapped regions, nothing else
being mapped (`10_state.md` R37), and the run state becomes Initializing. The registers and the table are not touched; the
latches are null and NoError in every state but Halted and Faulted (R31, R32). -/
def State.hostStart (s : State) (l : Launch) : State :=
  { s.tick.conclude .initializing nullBuffer .noError with
    blob := l.blob
    mem := l.mem.filter fun c => (l.blob :: subBuffers l.mem l.blob ++ l.hostRegions).any fun b =>
      (hostRegion s.draws b).contains c.1
    regions := (l.blob :: subBuffers l.mem l.blob ++ l.hostRegions).map (hostRegion s.draws)
    hostAnswers := l.hostAnswers }

/-- Whether the blob's length is valid: a positive multiple of the record size, 1 to 16 records (R261). -/
def blobValid (blob : Buffer) : Bool :=
  blob.length != 0 && blob.length.toNat % recSize == 0 && decide (blob.length.toNat / recSize ≤ maxSubBuffers)

/-- Every slot the null buffer (R263). -/
def State.clearSlots (s : State) : State := { s with slots := Vector.replicate 256 nullBuffer }

/-- The registers that initialisation writes (R262). -/
def State.initRegs (s : State) (entry : Word) : State :=
  ((s.setReg ipReg entry).setReg inLenReg s.blob.length).setReg inBaseReg s.blob.data

/-- The step of the Initializing state, one indivisible step (R260 to R263). -/
def initialise (s : State) : Result :=
  if blobValid s.blob then
    match s.memRead (s.blob.data + config.recDataOff) 8 with
    | some v => .next (((s.initRegs (BitVec.ofNat wordConfig.xlen v)).clearSlots).conclude .running nullBuffer .noError)
    | none => .fault (.unmappedAccess (s.blob.data + config.recDataOff) 8)
  else .next (s.fatal .malformedInput)

/-- HOST.result: the output buffer and the out-of-band code, once the run has ended (`00_scope.md` R6,
`40_fetch_dispatch_quit.md` R120). -/
def State.hostResult (s : State) : Option (Buffer × Word) :=
  match s.runState with
  | .halted => some (s.output, config.err s.fatalCode)
  | .faulted => some (s.output, config.err s.fatalCode)
  | .initializing => none
  | .running => none

/-- Where a program is placed when nothing points at one: any address but null would do, since "the source fixes no
address" (`20_memory.md` R57; DESIGN CHOICE, log entry 9). -/
def defaultEntry : Word := 8

/-- The address an instruction is placed at: r0, unless it is null or too near the top for the longest instruction. -/
def State.entryFor (s : State) : Word :=
  if s.reg ipReg ≠ 0 ∧ (s.reg ipReg).toNat + longestStride ≤ 2 ^ wordConfig.xlen then s.reg ipReg else defaultEntry

/-- Maps the addresses of the longest instruction from `ip` on, unless they are. -/
def State.mapEntry (s : State) (ip : Word) : State :=
  if s.rangeMapped ip longestStride then s
  else s.setRegions ({ base := ip, length := BitVec.ofNat wordConfig.xlen longestStride, owner := .host, serial := s.draws } :: s.regions)

/-- Stands for the host's load of one instruction (log entry 9): its bytes where the next fetch reads, mapped, and the
machine Running with r0 there. -/
def State.placeInstr (s : State) (bytes : List Byte) : State :=
  let t := ({ s with runState := .running }.setReg ipReg s.entryFor).mapEntry s.entryFor
  t.setMem (Memory.writeBytes t.mem s.entryFor bytes)

end Sys2Proof.Machine
end

