-- ==== Sys2Proof/Machine/Step.lean ====
section
/-! DEFINITION. One step (`40_fetch_dispatch_quit.md` R116). -/

namespace Sys2Proof.Machine

/-- One step: initialisation, or one cycle in Running; Halted and Faulted are terminal (`10_state.md` R30). -/
def step (s : State) : Host.Outcome State Fault Refusal :=
  match s.runState with
  | .initializing => initialise s
  | .halted => .fault .notRunning
  | .faulted => .fault .notRunning
  | .running =>
    match fetch s with
    | .stop f => .fault f
    | .unrecognised t => .next (t.fatal .unimplementedOpcode)
    | .instr i o t => retire (opcodeStride o) (exec i t)

/-- The state with an instruction of the opcode table placed where the next step fetches (log entry 9). -/
def State.withFetchWord (s : State) (nbits w : Nat) : State := s.placeInstr (tableBytes nbits w)

end Sys2Proof.Machine
end

