-- ==== Sys2Proof/WellFormed.lean ====
section
/-! DEFINITION. Which terms of `Instr` stand for themselves: the generic forms are those of unrecognised selectors only. -/

namespace Sys2Proof

/-- The check: `op` and `opIf` carry a selector byte that names no ALU operation, `sys` a Number that names no host
operation (a recognised one belongs to the constructor of its operation). No other form can be ill-formed: every value of
every field is legal (`30_encoding.md` R81). -/
def wellFormed : Instr → Bool
  | .quit _ _ => true
  | .wr _ _ => true
  | .alloc _ _ _ _ => true
  | .dealloc _ => true
  | .b2r _ _ _ => true
  | .r2r _ _ => true
  | .r2b _ _ _ => true
  | .op _ _ sel _ _ _ => (aluOfSelector (sel.setWidth wordConfig.xlen)).isNone
  | .opIf _ _ sel _ _ _ => (aluOfSelector (sel.setWidth wordConfig.xlen)).isNone
  | .opInd _ _ _ _ _ _ => true
  | .opIfInd _ _ _ _ _ _ => true
  | .opShr _ _ _ _ _ => true
  | .opShrIf _ _ _ _ _ => true
  | .opShl _ _ _ _ _ => true
  | .opShlIf _ _ _ _ _ => true
  | .opNot _ _ _ _ _ => true
  | .opNotIf _ _ _ _ _ => true
  | .opAnd _ _ _ _ _ => true
  | .opAndIf _ _ _ _ _ => true
  | .opOr _ _ _ _ _ => true
  | .opOrIf _ _ _ _ _ => true
  | .opXor _ _ _ _ _ => true
  | .opXorIf _ _ _ _ _ => true
  | .opAdd _ _ _ _ _ => true
  | .opAddIf _ _ _ _ _ => true
  | .opSub _ _ _ _ _ => true
  | .opSubIf _ _ _ _ _ => true
  | .opMul _ _ _ _ _ => true
  | .opMulIf _ _ _ _ _ => true
  | .opDiv _ _ _ _ _ => true
  | .opDivIf _ _ _ _ _ => true
  | .opMod _ _ _ _ _ => true
  | .opModIf _ _ _ _ _ => true
  | .opLt _ _ _ _ _ => true
  | .opLtIf _ _ _ _ _ => true
  | .opLe _ _ _ _ _ => true
  | .opLeIf _ _ _ _ _ => true
  | .opGt _ _ _ _ _ => true
  | .opGtIf _ _ _ _ _ => true
  | .opGe _ _ _ _ _ => true
  | .opGeIf _ _ _ _ _ => true
  | .sys number _ _ _ _ _ _ _ => (sysOfNumber number).isNone
  | .sysRead _ _ _ _ _ _ _ => true
  | .sysWrite _ _ _ _ _ _ _ => true
  | .sysOpen _ _ _ _ _ _ _ => true
  | .sysClose _ _ _ _ _ _ _ => true
  | .sysStat _ _ _ _ _ _ _ => true
  | .sysFstat _ _ _ _ _ _ _ => true

/-- The check as a proposition. -/
abbrev WellFormed (i : Instr) : Prop := wellFormed i = true

end Sys2Proof
end

