-- ==== Sys2Proof/Safety.lean ====
section
/-! DEFINITION. The terms claims use: what an instruction leaves unchanged, what a fatal fault leaves, where an instruction
stands, and the invariant of the machine. -/

namespace Sys2Proof.Machine

/-! ## Frames -/

/-- Every byte of memory reads as before, and an unmapped address is still one. -/
def SameBytes (s t : State) : Prop := ∀ a : Nat, t.byteAt a = s.byteAt a

/-- Every byte outside the `n` addresses from `a` on reads as before. -/
def SameBytesOutside (a : Word) (n : Nat) (s t : State) : Prop :=
  ∀ x : Word, (∀ k < n, x ≠ a + BitVec.ofNat 64 k) → t.byteAt x.toNat = s.byteAt x.toNat

/-- The allocation table and the mapped regions are as before. -/
def SameTable (s t : State) : Prop := (∀ h, t.slot h = s.slot h) ∧ t.regions = s.regions

/-- The run state and the two latches are as before. -/
def SameRun (s t : State) : Prop := t.runState = s.runState ∧ t.output = s.output ∧ t.fatalCode = s.fatalCode

/-- Every register but those listed is as before. -/
def SameRegsBut (ds : List Reg) (s t : State) : Prop := ∀ r, r ∉ ds → t.reg r = s.reg r

/-- Nothing but the listed registers has changed. -/
def OnlyRegsChange (ds : List Reg) (s t : State) : Prop :=
  SameRegsBut ds s t ∧ SameBytes s t ∧ SameTable s t ∧ SameRun s t

/-- One register has received a value and nothing else has changed. -/
def WritesOnly (d : Reg) (v : Word) (s t : State) : Prop := t.reg d = v ∧ OnlyRegsChange [d] s t

/-- A soft error has written its code to the register that ERRSEL names and nothing else has changed
(`60_exceptions.md` R236). -/
def SoftErrorOnly (code : ErrorCode) (s t : State) : Prop :=
  ∃ e : Reg, e.val = (s.reg errSelReg).toNat ∧ WritesOnly e (config.err code) s t

/-- A fatal fault: Faulted, its code, a null output, and nothing else changed (`60_exceptions.md` R240, R241). -/
def FaultedWith (code : ErrorCode) (s t : State) : Prop :=
  t.runState = .faulted ∧ t.fatalCode = code ∧ t.output = nullBuffer ∧ SameRegsBut [] s t ∧ SameBytes s t ∧ SameTable s t

/-- The instruction completes: it answers a next state in which one register has received a value and nothing else has
changed. -/
def CompletesWriting (i : Instr) (d : Reg) (v : Word) (s : State) : Prop :=
  ∃ t, exec i s = .next t ∧ WritesOnly d v s t

/-- What a failed Allocate leaves: 256, 0 and 0 in its destinations, a later write winning, then the code in the register
`e`, and nothing else changed (`42_allocation.md` R144, `60_exceptions.md` R236). -/
def AllocFailed (code : ErrorCode) (handleDst ptrDst lenDst e : Reg) (s t : State) : Prop :=
  t.reg e = config.err code ∧
  (lenDst ≠ e → t.reg lenDst = 0) ∧
  (ptrDst ≠ e → t.reg ptrDst = 0) ∧
  (handleDst ∉ [ptrDst, lenDst, e] → t.reg handleDst = 256) ∧
  OnlyRegsChange [handleDst, ptrDst, lenDst, e] s t

/-- What ERRSEL holds when a failed Allocate takes its soft error: its destinations may name r12 (`42_allocation.md` R144). -/
def errSelAfterAlloc (handleDst ptrDst lenDst : Reg) (s : State) : Word :=
  if errSelReg = ptrDst ∨ errSelReg = lenDst then 0 else if errSelReg = handleDst then 256 else s.reg errSelReg

/-! ## Memory the host reads and memory it presents -/

/-- A path meets an unmapped address: every byte before that address is mapped and none of them is the zero byte that ends the
path (`45_syscall.md` R214, R220). -/
def State.pathMeetsUnmapped (s : State) (path : Word) : Prop :=
  ∃ k < 2 ^ 64, (∀ j < k, ∃ b, s.byteAt (path + BitVec.ofNat 64 j).toNat = some b ∧ b ≠ 0) ∧
    s.isMapped (path + BitVec.ofNat 64 k).toNat = false

/-- The bytes stand at the addresses from `a` on in the memory that the host presents. -/
def PresentedAt (m : List Host.Cell) (a : Word) (bs : List Byte) : Prop :=
  ∀ j (h : j < bs.length), Memory.read m (a + BitVec.ofNat 64 j).toNat = some bs[j]

/-- The region of a Buffer is mapped and reads as the host presents it; one whose data is null maps nothing
(`20_memory.md` R57). -/
def MappedAsPresented (m : List Host.Cell) (b : Buffer) (t : State) : Prop :=
  b.data ≠ 0 → ∀ a : Nat, b.data.toNat ≤ a → a < b.data.toNat + b.length.toNat → a < 2 ^ 64 →
    t.isMapped a = true ∧ ∀ v, Memory.read m a = some v → t.byteAt a = some v

/-! ## Where an instruction stands -/

/-- The machine is Running and the bytes of the instruction stand at the address in r0. -/
def State.standsAt (s : State) (i : Instr) : Prop :=
  s.runState = .running ∧ s.loadBytes (s.reg ipReg) (encode i).length = some (encode i)

/-- The state in which that instruction executes: r1 the ID, the parameters in r2.. (`40_fetch_dispatch_quit.md` R113). -/
def State.executing (s : State) (i : Instr) : State :=
  s.decoded (config.opc (instrOpcode i)) (instrOpcode i) ((encode i).drop 2)

/-- What a conditional Operate is gated by: the flags register and the bit (`44_operate.md` R173). -/
def instrGate : Instr → Option (Reg × BitVec 5)
  | .opIf f n _ _ _ _ => some (f, n)
  | .opIfInd f n _ _ _ _ => some (f, n)
  | .opShrIf f n _ _ _ => some (f, n)
  | .opShlIf f n _ _ _ => some (f, n)
  | .opNotIf f n _ _ _ => some (f, n)
  | .opAndIf f n _ _ _ => some (f, n)
  | .opOrIf f n _ _ _ => some (f, n)
  | .opXorIf f n _ _ _ => some (f, n)
  | .opAddIf f n _ _ _ => some (f, n)
  | .opSubIf f n _ _ _ => some (f, n)
  | .opMulIf f n _ _ _ => some (f, n)
  | .opDivIf f n _ _ _ => some (f, n)
  | .opModIf f n _ _ _ => some (f, n)
  | .opLtIf f n _ _ _ => some (f, n)
  | .opLeIf f n _ _ _ => some (f, n)
  | .opGtIf f n _ _ _ => some (f, n)
  | .opGeIf f n _ _ _ => some (f, n)
  | _ => none

/-- The destination registers of an instruction, soft errors apart (`10_state.md` R39). -/
def instrDests (i : Instr) : List Reg :=
  match i with
  | .wr d _ => [d]
  | .alloc _ h p l => [h, p, l]
  | .b2r _ _ d => [d]
  | .r2r _ d => [d]
  | .op _ _ _ _ _ d => [d]
  | .opIf _ _ _ _ _ d => [d]
  | .opInd _ _ _ _ _ d => [d]
  | .opIfInd _ _ _ _ _ d => [d]
  | .sys _ _ a1 a2 _ _ _ r => [a1, a2, r]
  | .sysRead _ _ _ _ _ _ r => [r]
  | .sysWrite _ _ _ _ _ _ r => [r]
  | .sysOpen _ _ _ _ _ _ r => [r]
  | .sysClose _ _ _ _ _ _ r => [r]
  | .sysStat _ a1 a2 _ _ _ r => [a1, a2, r]
  | .sysFstat _ a1 a2 _ _ _ r => [a1, a2, r]
  | .opShr _ _ _ _ d => [d]
  | .opShrIf _ _ _ _ d => [d]
  | .opShl _ _ _ _ d => [d]
  | .opShlIf _ _ _ _ d => [d]
  | .opNot _ _ _ _ d => [d]
  | .opNotIf _ _ _ _ d => [d]
  | .opAnd _ _ _ _ d => [d]
  | .opAndIf _ _ _ _ d => [d]
  | .opOr _ _ _ _ d => [d]
  | .opOrIf _ _ _ _ d => [d]
  | .opXor _ _ _ _ d => [d]
  | .opXorIf _ _ _ _ d => [d]
  | .opAdd _ _ _ _ d => [d]
  | .opAddIf _ _ _ _ d => [d]
  | .opSub _ _ _ _ d => [d]
  | .opSubIf _ _ _ _ d => [d]
  | .opMul _ _ _ _ d => [d]
  | .opMulIf _ _ _ _ d => [d]
  | .opDiv _ _ _ _ d => [d]
  | .opDivIf _ _ _ _ d => [d]
  | .opMod _ _ _ _ d => [d]
  | .opModIf _ _ _ _ d => [d]
  | .opLt _ _ _ _ d => [d]
  | .opLtIf _ _ _ _ d => [d]
  | .opLe _ _ _ _ d => [d]
  | .opLeIf _ _ _ _ d => [d]
  | .opGt _ _ _ _ d => [d]
  | .opGtIf _ _ _ _ d => [d]
  | .opGe _ _ _ _ d => [d]
  | .opGeIf _ _ _ _ d => [d]
  | .quit _ _ => []
  | .dealloc _ => []
  | .r2b _ _ _ => []

/-! ## The invariant -/

/-- Whether two regions share an address. -/
def Region.shares (r q : Region) : Prop := ∃ a, r.contains a = true ∧ q.contains a = true

/-- What every step keeps. -/
structure State.Inv (s : State) : Prop where
  /-- Memory has its canonical form. -/
  memWf : Memory.wf s.mem
  /-- Only mapped addresses hold a written byte. -/
  memMapped : ∀ c ∈ s.mem, s.isMapped c.1 = true
  /-- A live slot's region is mapped (`42_allocation.md` R141). Until initialisation has cleared the table it is that of the
  run before (`70_reset_and_hazards.md` R263). -/
  slotMapped : s.runState = .running ∨ s.runState = .halted → ∀ h, (s.slot h).data ≠ 0 →
    ∃ r ∈ s.regions, r.owner = .allocation h ∧ r.base = (s.slot h).data ∧ r.length = (s.slot h).length
  /-- A region owned by a handle is that of the handle's live slot (`42_allocation.md` R143). -/
  regionLive : ∀ r ∈ s.regions, ∀ h, r.owner = .allocation h →
    (s.slot h).data ≠ 0 ∧ r.base = (s.slot h).data ∧ r.length = (s.slot h).length
  /-- An allocation meets no other region (`42_allocation.md` R142). -/
  disjoint : s.regions.Pairwise fun r q => r.owner ≠ .host ∨ q.owner ≠ .host → ¬ r.shares q
  /-- Before initialisation no region is an allocation of this run (`10_state.md` R37). -/
  fresh : s.runState = .initializing → ∀ r ∈ s.regions, r.owner = .host
  /-- No output but after Quit (`10_state.md` R31). -/
  outputNull : s.runState ≠ .halted → s.output = nullBuffer
  /-- The fatal latch tells a fatal fault, and a fatal fault has one of the four fatal codes (`10_state.md` R32,
  `60_exceptions.md` R230). -/
  latch : (s.runState ≠ .faulted → s.fatalCode = .noError) ∧
    (s.runState = .faulted → s.fatalCode ∈
      [.malformedInput, .unimplementedOpcode, .unimplementedAluOp, .unimplementedSyscall])

end Sys2Proof.Machine
end

