-- ==== Sys2Proof/Certificates/Slice0/Obligations.lean ====
section
/-! DEFINITION. The statements for the provers. Each docstring names the rules of `spec/` it rests on. -/

open Sys2Proof Sys2Proof.Machine


/-- Reset leaves the run state, the latches and the table at the values the spec states. That no address is mapped is the model's own choice (log entry 2): R37 leaves memory as the host presents it, with the blob mapped, and State.reset has no blob. Rules: 10_state.md R37, 20_memory.md R57. -/
def Obligations.ResetLeavesTheStatedValues : Prop :=
  State.reset.runState = .running ∧ State.reset.output = nullBuffer ∧ State.reset.fatalCode = .noError ∧
    (∀ h, State.reset.slot h = nullBuffer) ∧ ∀ a, State.reset.byteAt a = none

/-- Initialisation from a valid blob loads r0, r10 and r11, clears the table and the latches, and starts Running. That the step stops where record 0 is unmapped, and the form of that stop, are the model's treatment of UNDEFINED (the spec's decision D18; log entry 17). Rules: 70_reset_and_hazards.md R262, 70_reset_and_hazards.md R263, 20_memory.md R58. -/
def Obligations.ValidBlobInitialises : Prop :=
  ∀ s : State, s.runState = .initializing →
    s.blob.length ≠ 0 → s.blob.length.toNat % 16 = 0 → s.blob.length.toNat / 16 ≤ 16 →
    (∀ v, s.memRead (s.blob.data + config.recDataOff) 8 = some v →
      ∃ t, step s = .next t ∧ t.runState = .running ∧ t.reg 0 = BitVec.ofNat 64 v ∧ t.reg 10 = s.blob.length ∧
        t.reg 11 = s.blob.data ∧ SameRegsBut [0, 10, 11] s t ∧ SameBytes s t ∧ t.regions = s.regions ∧
        (∀ h, t.slot h = nullBuffer) ∧ t.output = nullBuffer ∧ t.fatalCode = .noError) ∧
    ((∃ k < 8, s.isMapped (s.blob.data + config.recDataOff + BitVec.ofNat 64 k).toNat = false) →
      step s = .fault (.unmappedAccess (s.blob.data + config.recDataOff) 8))

/-- A blob of length 0, of a length that is no multiple of 16, or of more than 16 records is a fatal MalformedInput. Rules: R261. -/
def Obligations.MalformedBlobFaults : Prop :=
  ∀ s : State, s.runState = .initializing →
    ((s.blob.length = 0 ∨ s.blob.length.toNat % 16 ≠ 0 ∨ 16 < s.blob.length.toNat / 16) →
      ∃ t, step s = .next t ∧ t.runState = .faulted ∧ t.fatalCode = .malformedInput ∧ t.output = nullBuffer ∧
        SameRegsBut [] s t ∧ SameBytes s t) ∧
    (¬ (s.blob.length = 0 ∨ s.blob.length.toNat % 16 ≠ 0 ∨ 16 < s.blob.length.toNat / 16) →
      ∀ t, step s = .next t → t.runState = .running)

/-- The run state changes only along the spec's diagram, and Halted and Faulted take no step. Rules: 10_state.md R30, 40_fetch_dispatch_quit.md R120. -/
def Obligations.RunStateFollowsItsDiagram : Prop :=
  ∀ s t : State, step s = .next t →
    match s.runState with
    | .initializing => t.runState = .running ∨ t.runState = .faulted
    | .running =>
      t.runState = .running ∨
      (t.runState = .halted ∧ ∃ a b u, fetch s = .instr (.quit a b) .quit u) ∨
      (t.runState = .faulted ∧ t.fatalCode ≠ .noError)
    | .halted => False
    | .faulted => False

/-- When the bytes at r0 decode to an instruction, the step is exec of it, then the advance by its stride. The load of r1 and r2..r9 is the spec's own decision D10 (log entry 15), and that the stride is added to r0 as the effect left it is the spec's own decision D11 (log entry 23). The spec's decision D12 (log entry 15) is that phase 5 is left out after Quit and after a fatal fault. Rules: 40_fetch_dispatch_quit.md R115, 40_fetch_dispatch_quit.md R116. -/
def Obligations.StepRunsTheDecodedInstruction : Prop :=
  (∀ (s : State) (n : Nat) (bs : List Byte) (i : Instr), s.runState = .running →
    s.loadBytes (s.reg ipReg) n = some bs → decode bs = .ok i [] →
    step s = retire (opcodeStride (instrOpcode i))
      (exec i (s.decoded (BitVec.ofNat 16 (leNat (bs.take 2))) (instrOpcode i) (bs.drop 2)))) ∧
  (∀ (t : State) (n : Nat), retire n (.next t) = .next (t.retire n) ∧
    (t.runState = .running → WritesOnly ipReg (t.reg ipReg + BitVec.ofNat 64 n) t (t.retire n)) ∧
    (t.runState ≠ .running → t.retire n = t)) ∧
  ∀ (f : Fault) (n : Nat), retire n (.fault f) = .fault f

/-- An opcode ID outside the nine is a fatal UnimplementedOpcode. That r1 receives the ID is the spec's own decision D10 (log entry 15). That r0 is not advanced is its decision D12 (log entry 15; the spec advises against relying on r0 of a terminal state), and that all 16 bits of the ID are compared is D29 (log entry 23). Rules: 40_fetch_dispatch_quit.md R112. -/
def Obligations.UnrecognisedOpcodeFaults : Prop :=
  ∀ (s : State) (v : Nat), s.runState = .running → s.memRead (s.reg ipReg) 2 = some v →
    (∀ o, config.opc o ≠ BitVec.ofNat 16 v) →
    ∃ t, step s = .next t ∧ t.runState = .faulted ∧ t.fatalCode = .unimplementedOpcode ∧ t.output = nullBuffer ∧
      t.reg 0 = s.reg 0 ∧ t.reg 1 = BitVec.ofNat 64 v ∧ (∀ r : Reg, 2 ≤ r.val → r.val ≤ 9 → t.reg r = 0) ∧
      (∀ r : Reg, 10 ≤ r.val → t.reg r = s.reg r) ∧ SameBytes s t ∧ SameTable s t

/-- When an instruction executes, r1 holds its ID, r2..r9 its parameters and zeros, and nothing else has changed. The load of r1 and r2..r9 is the spec's own decision D10, under the switch SCRATCH_LOADED (log entry 15). Rules: 10_state.md R25, 10_state.md R26, 40_fetch_dispatch_quit.md R113, 30_encoding.md R85. -/
def Obligations.CycleLoadsIdAndParameters : Prop :=
  (∀ (s : State) (i : Instr),
    (s.executing i).reg 1 = (config.opc (instrOpcode i)).setWidth 64 ∧
    (∀ k < 8, (s.executing i).reg (scratchReg k) = (cutParams (instrOpcode i) ((encode i).drop 2)).getD k 0) ∧
    (∀ r : Reg, r.val = 0 ∨ 10 ≤ r.val → (s.executing i).reg r = s.reg r) ∧
    SameBytes s (s.executing i) ∧ SameTable s (s.executing i) ∧ SameRun s (s.executing i)) ∧
  (∀ d v, cutParams .wr ((encode (.wr d v)).drop 2) = [BitVec.ofNat 64 d.val, v]) ∧
  ∀ i, instrOpcode i ≠ .wr →
    cutParams (instrOpcode i) ((encode i).drop 2) = ((encode i).drop 2).map fun b => b.setWidth 64

/-- A fetch that touches an unmapped address stops the model: its treatment of UNDEFINED (the spec's decision D18; log entry 17). Rules: 20_memory.md R58, 40_fetch_dispatch_quit.md R116. -/
def Obligations.UnmappedFetchStops : Prop :=
  ∀ s : State, s.runState = .running →
    ((∃ k < 2, s.isMapped (s.reg ipReg + BitVec.ofNat 64 k).toNat = false) →
      step s = .fault (.unmappedAccess (s.reg ipReg) 2)) ∧
    ∀ (o : Opcode), s.memRead (s.reg ipReg) 2 = some (config.opc o).toNat →
      (∃ k < opcodeStride o - 2, s.isMapped (s.reg ipReg + 2 + BitVec.ofNat 64 k).toNat = false) →
      step s = .fault (.unmappedAccess (s.reg ipReg + 2) (opcodeStride o - 2))

/-- Byte sequences written out in the spec, with its own numbers and layout, decode to the instructions it names. The numbers and the layout of these bytes are the spec's own decisions D2 (byte order), D4 (opcode IDs), D5 (field offsets), D6 (ALU selectors) and D21 (Syscall Numbers), which the model follows (log entry 11, DESIGN CHOICE, unsafe). Rules: 95_test_vectors.md part 2, 30_encoding.md section 3, 92_eei_decisions.md D2, D4, D5, D6, D21. -/
def Obligations.SpecBytesDecode : Prop :=
  decode [0x00, 0x00, 0x14, 0x15] = .ok (.quit 20 21) [] ∧
  decode [0x01, 0x00, 0x18, 0x88, 0x77, 0x66, 0x55, 0x44, 0x33, 0x22, 0x11] = .ok (.wr 24 0x1122334455667788) [] ∧
  decode [0x02, 0x00, 0x14, 0x15, 0x16, 0x17] = .ok (.alloc 20 21 22 23) [] ∧
  decode [0x03, 0x00, 0x15] = .ok (.dealloc 21) [] ∧
  decode [0x04, 0x00, 0x14, 0x15, 0x16] = .ok (.b2r 20 21 22) [] ∧
  decode [0x05, 0x00, 0x0D, 0x14] = .ok (.r2r 13 20) [] ∧
  decode [0x06, 0x00, 0x16, 0x15, 0x14] = .ok (.r2b 22 21 20) [] ∧
  decode [0x07, 0x00, 0x00, 0x40, 0x06, 0x0D, 0x0E, 0x0F] = .ok (.opAdd 0 0 13 14 15) [] ∧
  decode [0x07, 0x00, 0x10, 0x1F, 0x06, 0x0D, 0x0E, 0x0F] = .ok (.opAddIf 16 31 13 14 15) [] ∧
  decode [0x07, 0x00, 0x00, 0x80, 0x11, 0x0D, 0x0E, 0x0F] = .ok (.opInd 0 0 17 13 14 15) [] ∧
  decode [0x07, 0x00, 0x10, 0x3F, 0x11, 0x0D, 0x0E, 0x0F] = .ok (.opIfInd 16 31 17 13 14 15) [] ∧
  decode [0x07, 0x00, 0x10, 0x03, 0xC8, 0x0D, 0x0E, 0x0F] = .ok (.opIf 16 3 200 13 14 15) [] ∧
  decode [0x08, 0x00, 0x01, 0x14, 0x15, 0x16, 0x00, 0x00, 0x00, 0x17] = .ok (.sysWrite 20 21 22 0 0 0 23) [] ∧
  decode [0x08, 0x00, 0xFF, 0x00, 0x00, 0x00, 0x00, 0x00, 0x00, 0x14] = .ok (.sys 255 0 0 0 0 0 0 20) []

/-- Decoding the encoding of any well-formed instruction gives it back, with every operand, and leaves the bytes after it. Rules: 30_encoding.md section 3, 30_encoding.md R82, 30_encoding.md R96. -/
def Obligations.DecodeOfEncodeIsTheInstruction : Prop :=
  ∀ (i : Instr) (rest : List Byte), WellFormed i → decode (encode i ++ rest) = .ok i rest

/-- Whatever the decoder reads is well formed, and encoding it gives the bytes back. That all 16 bits of the ID are compared is the spec's own decision D29 (log entry 23). Rules: 30_encoding.md R82, 30_encoding.md R99, 30_encoding.md R100. -/
def Obligations.EncodeOfDecodeIsTheBytes : Prop :=
  ∀ (bs rest : List Byte) (i : Instr), decode bs = .ok i rest → WellFormed i ∧ encode i ++ rest = bs

/-- The four ranges of Mode select the four forms of Operate, and the bit index is Mode mod 32. Rules: R172. -/
def Obligations.ModeRangesSelectTheForms : Prop :=
  ∀ (flags : Reg) (mode sel : Byte) (a b dst : Reg),
    (mode.toNat < 32 → decodeOperate flags mode sel a b dst =
      match aluOfSelector (sel.setWidth 64) with
      | some o => instrOfAluIf o flags (BitVec.ofNat 5 mode.toNat) a b dst
      | none => .opIf flags (BitVec.ofNat 5 mode.toNat) sel a b dst) ∧
    (32 ≤ mode.toNat → mode.toNat < 64 → decodeOperate flags mode sel a b dst =
      .opIfInd flags (BitVec.ofNat 5 (mode.toNat - 32)) (regOfByte sel) a b dst) ∧
    (64 ≤ mode.toNat → mode.toNat < 128 → decodeOperate flags mode sel a b dst =
      match aluOfSelector (sel.setWidth 64) with
      | some o => instrOfAlu o flags (BitVec.ofNat 6 (mode.toNat - 64)) a b dst
      | none => .op flags (BitVec.ofNat 6 (mode.toNat - 64)) sel a b dst) ∧
    (128 ≤ mode.toNat → decodeOperate flags mode sel a b dst =
      .opInd flags (BitVec.ofNat 7 (mode.toNat - 128)) (regOfByte sel) a b dst)

/-- wr writes all 64 bits of V to D and nothing else, and the step goes on 11 bytes further, or at V + 11 where D is r0. That the stride is added to r0 as the effect left it is the spec's own decision D11 (log entry 23). Rules: 41_register_writes.md R130. -/
def Obligations.WriteRegisterWritesTheImmediate : Prop :=
  (∀ (s : State) (d : Reg) (v : Word), CompletesWriting (.wr d v) d v s) ∧
  ∀ (s : State) (d : Reg) (v : Word), s.standsAt (.wr d v) →
    ∃ t, step s = .next t ∧ t.reg 0 = (if d = 0 then v else s.reg 0) + 11 ∧ (d ≠ 0 → t.reg d = v)

/-- r2r copies Src to Dst and changes nothing else; a step of it reads its own ID and fields in r1..r9 and its own address in r0. That r1..r9 hold the ID and the fields is the spec's own decision D10, under the switch SCRATCH_LOADED (log entry 15); the ID 5 is its decision D4; that the stride is added to r0 as the effect left it is D11 (log entry 23). Rules: 41_register_writes.md R131. -/
def Obligations.RegisterToRegisterCopies : Prop :=
  (∀ (s : State) (src dst : Reg), CompletesWriting (.r2r src dst) dst (s.reg src) s) ∧
  ∀ (s : State) (src dst : Reg), s.standsAt (.r2r src dst) →
    ∃ t v, step s = .next t ∧
      v = (if src.val = 1 then 5 else if src.val = 2 then BitVec.ofNat 64 src.val
        else if src.val = 3 then BitVec.ofNat 64 dst.val
        else if 4 ≤ src.val ∧ src.val ≤ 9 then 0 else s.reg src) ∧
      t.reg 0 = (if dst = 0 then v else s.reg 0) + 4 ∧ (dst ≠ 0 → t.reg dst = v)

/-- quit latches its two registers as the output, halts with NoError and leaves r0 at its own address. That r0 stays is the spec's own decision D12 (log entry 15). Rules: 40_fetch_dispatch_quit.md R119, 92_eei_decisions.md D12. -/
def Obligations.QuitHaltsWithItsOutput : Prop :=
  (∀ (s : State) (a b : Reg), ∃ t, exec (.quit a b) s = .next t ∧ t.runState = .halted ∧
    t.output = { data := s.reg a, length := s.reg b } ∧ t.fatalCode = .noError ∧
    SameRegsBut [] s t ∧ SameBytes s t ∧ SameTable s t) ∧
  ∀ (s : State) (a b : Reg), s.standsAt (.quit a b) →
    ∃ t, step s = .next t ∧ t.runState = .halted ∧ t.reg 0 = s.reg 0 ∧ t.hostResult = some (t.output, 0)

/-- alloc with a free slot and a granted reservation takes the first free slot, maps the region and writes its three destinations. That a later write wins is the spec's own decision D16 (log entry 23), the conditions on the address granted are D27 (log entry 6), and the record of requests is the model's own (log entry 22). Rules: 42_allocation.md R141, 42_allocation.md R142, 42_allocation.md R144. -/
def Obligations.AllocateSucceeds : Prop :=
  ∀ (s : State) (sizeSrc h p l : Reg) (k : Fin 256) (addr : Word),
    (s.slot k).data = 0 → (∀ j < k, (s.slot j).data ≠ 0) →
    s.answer.reserve = some addr → addr ≠ 0 → addr.toNat + (s.reg sizeSrc).toNat ≤ 2 ^ 64 →
    (∀ r ∈ s.regions, r.meets addr.toNat (s.reg sizeSrc).toNat = false) →
    ∃ t, exec (.alloc sizeSrc h p l) s = .next t ∧
      t.reg l = s.reg sizeSrc ∧ (p ≠ l → t.reg p = addr) ∧
      (h ∉ [p, l] → t.reg h = BitVec.ofNat 64 k.val) ∧ SameRegsBut [h, p, l] s t ∧
      t.slot k = { length := s.reg sizeSrc, data := addr } ∧ (∀ j, j ≠ k → t.slot j = s.slot j) ∧
      (∀ j < (s.reg sizeSrc).toNat, t.isMapped (addr.toNat + j) = true) ∧
      (∀ a : Nat, ¬ (addr.toNat ≤ a ∧ a < addr.toNat + (s.reg sizeSrc).toNat) → t.byteAt a = s.byteAt a) ∧
      SameRun s t ∧ t.requests = .reserve (s.reg sizeSrc) :: s.requests

/-- alloc with a full table or a refused reservation writes 256, 0 and 0 and then its soft error, and the table is unchanged. HandleDst = 256 and the order of the writes are the spec's own decisions D16 and D14 (log entry 23), the stop at an ERRSEL of 256 or more is D15 (log entry 18), and an answer that grants nothing includes those of log entry 6. Rules: 42_allocation.md R141, 42_allocation.md R144, 60_exceptions.md R238. -/
def Obligations.AllocateFailsSoftly : Prop :=
  ∀ (s : State) (sizeSrc h p l : Reg),
    ((∀ j, (s.slot j).data ≠ 0) →
      (∀ e : Reg, e.val = (errSelAfterAlloc h p l s).toNat →
        ∃ t, exec (.alloc sizeSrc h p l) s = .next t ∧ AllocFailed .allocTableFull h p l e s t ∧
          t.requests = s.requests) ∧
      (256 ≤ (errSelAfterAlloc h p l s).toNat → exec (.alloc sizeSrc h p l) s = .fault .errSelRange)) ∧
    ((∃ j, (s.slot j).data = 0) → s.grant (s.reg sizeSrc) s.answer = none →
      (∀ e : Reg, e.val = (errSelAfterAlloc h p l s).toNat →
        ∃ t, exec (.alloc sizeSrc h p l) s = .next t ∧ AllocFailed .allocBackingRejected h p l e s t ∧
          t.requests = .reserve (s.reg sizeSrc) :: s.requests) ∧
      (256 ≤ (errSelAfterAlloc h p l s).toNat → exec (.alloc sizeSrc h p l) s = .fault .errSelRange))

/-- dealloc of a live handle frees its slot and unmaps its region, and changes no register and no other byte. Rules: 42_allocation.md R143, 42_allocation.md R146. -/
def Obligations.DeallocateFreesItsSlot : Prop :=
  ∀ (s : State) (src : Reg) (k : Fin 256), s.Inv → s.runState = .running → k.val = (s.reg src).toNat → (s.slot k).data ≠ 0 →
    ∃ t, exec (.dealloc src) s = .next t ∧ t.slot k = nullBuffer ∧ (∀ j, j ≠ k → t.slot j = s.slot j) ∧
      SameRegsBut [] s t ∧ SameRun s t ∧
      (∀ a : Nat, (s.slot k).data.toNat ≤ a → a < (s.slot k).data.toNat + (s.slot k).length.toNat →
        a < 2 ^ 64 → t.byteAt a = none) ∧
      ∀ a : Nat, ¬ ((s.slot k).data.toNat ≤ a ∧ a < (s.slot k).data.toNat + (s.slot k).length.toNat) →
        t.byteAt a = s.byteAt a

/-- dealloc of a free slot is the soft error DeallocNotAllocated; of a handle of 256 or more, which the spec leaves undefined, the model stops. That stop is the spec's decision D17, the model's treatment of UNDEFINED (log entry 19). Rules: 42_allocation.md R143, 42_allocation.md R146. -/
def Obligations.DeallocateOfAFreeSlotIsSoft : Prop :=
  (∀ (s : State) (src : Reg) (k : Fin 256), k.val = (s.reg src).toNat → (s.slot k).data = 0 →
    (s.reg errSelReg).toNat < 256 →
    ∃ t, exec (.dealloc src) s = .next t ∧ SoftErrorOnly .deallocNotAllocated s t) ∧
  ∀ (s : State) (src : Reg), 256 ≤ (s.reg src).toNat → exec (.dealloc src) s = .fault .handleRange

/-- b2r of 0 to 8 mapped bytes loads them, the lowest address in the low byte, and zeroes the rest of Dst. Rules: 43_buffer_transfer.md R160, 43_buffer_transfer.md R162. -/
def Obligations.BufferToRegisterLoads : Prop :=
  ∀ (s : State) (addrSrc count dst : Reg), (s.reg count).toNat ≤ 8 →
    (∀ k < (s.reg count).toNat, s.isMapped (s.reg addrSrc + BitVec.ofNat 64 k).toNat = true) →
    ∃ v : Word, CompletesWriting (.b2r addrSrc count dst) dst v s ∧
      (∀ k < (s.reg count).toNat,
        s.byteAt (s.reg addrSrc + BitVec.ofNat 64 k).toNat = some (BitVec.ofNat 8 (v.toNat / 256 ^ k))) ∧
      ∀ k, (s.reg count).toNat ≤ k → k < 8 → BitVec.ofNat 8 (v.toNat / 256 ^ k) = 0

/-- r2b of 0 to 8 bytes to mapped addresses stores the low bytes of Src and changes nothing else. Rules: 43_buffer_transfer.md R161, 43_buffer_transfer.md R162. -/
def Obligations.RegisterToBufferStores : Prop :=
  ∀ (s : State) (src count addrDst : Reg), (s.reg count).toNat ≤ 8 →
    (∀ k < (s.reg count).toNat, s.isMapped (s.reg addrDst + BitVec.ofNat 64 k).toNat = true) →
    ∃ t, exec (.r2b src count addrDst) s = .next t ∧
      (∀ k < (s.reg count).toNat,
        t.byteAt (s.reg addrDst + BitVec.ofNat 64 k).toNat = some (BitVec.ofNat 8 ((s.reg src).toNat / 256 ^ k))) ∧
      SameBytesOutside (s.reg addrDst) (s.reg count).toNat s t ∧
      SameRegsBut [] s t ∧ SameTable s t ∧ SameRun s t

/-- b2r and r2b with a count above 8 make no access and raise InvalidTransferSize. Rules: 43_buffer_transfer.md R160, 43_buffer_transfer.md R161, 60_exceptions.md R238. -/
def Obligations.OversizedTransferIsSoft : Prop :=
  ∀ (s : State) (x y count : Reg), 8 < (s.reg count).toNat → (s.reg errSelReg).toNat < 256 →
    (∃ t, exec (.b2r x count y) s = .next t ∧ SoftErrorOnly .invalidTransferSize s t) ∧
    ∃ t, exec (.r2b x count y) s = .next t ∧ SoftErrorOnly .invalidTransferSize s t

/-- b2r and r2b of 1 to 8 bytes stop where one of the bytes is unmapped. The stop is the model's treatment of UNDEFINED (the spec's decision D18), and the address and count in it are its form (log entry 17). Rules: 20_memory.md R58, 43_buffer_transfer.md R160, 43_buffer_transfer.md R161. -/
def Obligations.UnmappedTransferStops : Prop :=
  ∀ (s : State) (x y count : Reg), (s.reg count).toNat ≤ 8 →
    ((∃ k < (s.reg count).toNat, s.isMapped (s.reg x + BitVec.ofNat 64 k).toNat = false) →
      exec (.b2r x count y) s = .fault (.unmappedAccess (s.reg x) (s.reg count).toNat)) ∧
    ((∃ k < (s.reg count).toNat, s.isMapped (s.reg y + BitVec.ofNat 64 k).toNat = false) →
      exec (.r2b x count y) s = .fault (.unmappedAccess (s.reg y) (s.reg count).toNat))

/-- An r2b followed by a b2r of the same count and address gives back the low bytes stored; a count above 8 leaves all but the error register. The spec marks the round trip as derived. Rules: 43_buffer_transfer.md R163, 43_buffer_transfer.md R160, 43_buffer_transfer.md R161. -/
def Obligations.StoreThenLoadGivesTheValue : Prop :=
  (∀ (s u : State) (src count addr dst : Reg), (s.reg count).toNat ≤ 8 → exec (.r2b src count addr) s = .next u →
    ∃ t, exec (.b2r addr count dst) u = .next t ∧
      (t.reg dst).toNat = (s.reg src).toNat % 256 ^ (s.reg count).toNat) ∧
  ∀ (s t : State) (x y count : Reg), 8 < (s.reg count).toNat →
    (exec (.b2r x count y) s = .next t → y.val ≠ (s.reg errSelReg).toNat → t.reg y = s.reg y) ∧
    (exec (.r2b x count y) s = .next t → SameBytes s t) ∧
    (exec (.b2r x count y) s = .next t ∨ exec (.r2b x count y) s = .next t →
      SoftErrorOnly .invalidTransferSize s t)

/-- op.shr by less than 64 writes floor(a / 2^b); by 64 or more it writes Dst with a value the spec leaves open. That A is the operand shifted and that zeros enter is the spec's own decision D9; the over-wide result is a free value (log entry 3). Rules: 44_operate.md R177, 92_eei_decisions.md D9. -/
def Obligations.RightShiftIsLogical : Prop :=
  ∀ (s : State) (flags a b dst : Reg) (m : BitVec 6) (n : BitVec 5),
    ((s.reg b).toNat < 64 →
      CompletesWriting (.opShr flags m a b dst) dst (BitVec.ofNat 64 ((s.reg a).toNat / 2 ^ (s.reg b).toNat)) s ∧
      ((s.reg flags).getLsbD n.toNat = true → CompletesWriting (.opShrIf flags n a b dst) dst (BitVec.ofNat 64 ((s.reg a).toNat / 2 ^ (s.reg b).toNat)) s)) ∧
    (64 ≤ (s.reg b).toNat →
      (∃ w, CompletesWriting (.opShr flags m a b dst) dst w s) ∧
      ((s.reg flags).getLsbD n.toNat = true → ∃ w, CompletesWriting (.opShrIf flags n a b dst) dst w s))

/-- op.shl by less than 64 writes a * 2^b mod 2^64; by 64 or more it writes Dst with a value the spec leaves open. That A is the operand shifted is the spec's own decision D9; the over-wide result is a free value (log entry 3). Rules: 44_operate.md R178, 92_eei_decisions.md D9. -/
def Obligations.LeftShiftDropsHighBits : Prop :=
  ∀ (s : State) (flags a b dst : Reg) (m : BitVec 6) (n : BitVec 5),
    ((s.reg b).toNat < 64 →
      CompletesWriting (.opShl flags m a b dst) dst (BitVec.ofNat 64 ((s.reg a).toNat * 2 ^ (s.reg b).toNat % 2 ^ 64)) s ∧
      ((s.reg flags).getLsbD n.toNat = true → CompletesWriting (.opShlIf flags n a b dst) dst (BitVec.ofNat 64 ((s.reg a).toNat * 2 ^ (s.reg b).toNat % 2 ^ 64)) s)) ∧
    (64 ≤ (s.reg b).toNat →
      (∃ w, CompletesWriting (.opShl flags m a b dst) dst w s) ∧
      ((s.reg flags).getLsbD n.toNat = true → ∃ w, CompletesWriting (.opShlIf flags n a b dst) dst w s))

/-- op.not writes 2^64 - 1 - a and ignores B. Rules: R179. -/
def Obligations.NotInvertsEveryBit : Prop :=
  ∀ (s : State) (flags a b dst : Reg) (m : BitVec 6) (n : BitVec 5),
    CompletesWriting (.opNot flags m a b dst) dst (BitVec.ofNat 64 (2 ^ 64 - 1 - (s.reg a).toNat)) s ∧
    ((s.reg flags).getLsbD n.toNat = true → CompletesWriting (.opNotIf flags n a b dst) dst (BitVec.ofNat 64 (2 ^ 64 - 1 - (s.reg a).toNat)) s)

/-- op.and writes the bitwise and of its operands. Rules: R180. -/
def Obligations.AndIsBitwise : Prop :=
  ∀ (s : State) (flags a b dst : Reg) (m : BitVec 6) (n : BitVec 5),
    ∃ v : Word, (∀ i < 64, v.getLsbD i = ((s.reg a).getLsbD i && (s.reg b).getLsbD i)) ∧
      CompletesWriting (.opAnd flags m a b dst) dst v s ∧
      ((s.reg flags).getLsbD n.toNat = true → CompletesWriting (.opAndIf flags n a b dst) dst v s)

/-- op.or writes the bitwise or of its operands. Rules: R181. -/
def Obligations.OrIsBitwise : Prop :=
  ∀ (s : State) (flags a b dst : Reg) (m : BitVec 6) (n : BitVec 5),
    ∃ v : Word, (∀ i < 64, v.getLsbD i = ((s.reg a).getLsbD i || (s.reg b).getLsbD i)) ∧
      CompletesWriting (.opOr flags m a b dst) dst v s ∧
      ((s.reg flags).getLsbD n.toNat = true → CompletesWriting (.opOrIf flags n a b dst) dst v s)

/-- op.xor writes the bitwise xor of its operands, which is 0 for equal ones. Rules: R182. -/
def Obligations.XorIsBitwise : Prop :=
  ∀ (s : State) (flags a b dst : Reg) (m : BitVec 6) (n : BitVec 5),
    ∃ v : Word, (∀ i < 64, v.getLsbD i = ((s.reg a).getLsbD i ^^ (s.reg b).getLsbD i)) ∧ (a = b → v = 0) ∧
      CompletesWriting (.opXor flags m a b dst) dst v s ∧
      ((s.reg flags).getLsbD n.toNat = true → CompletesWriting (.opXorIf flags n a b dst) dst v s)

/-- op.add writes (a + b) mod 2^64 and nothing else. The wrap is the spec's own decision D8. Rules: 44_operate.md R183, 92_eei_decisions.md D8. -/
def Obligations.AddWraps : Prop :=
  ∀ (s : State) (flags a b dst : Reg) (m : BitVec 6) (n : BitVec 5),
    CompletesWriting (.opAdd flags m a b dst) dst (BitVec.ofNat 64 (((s.reg a).toNat + (s.reg b).toNat) % 2 ^ 64)) s ∧
    ((s.reg flags).getLsbD n.toNat = true → CompletesWriting (.opAddIf flags n a b dst) dst (BitVec.ofNat 64 (((s.reg a).toNat + (s.reg b).toNat) % 2 ^ 64)) s)

/-- op.sub writes a - b, or 2^64 + a - b where a < b, and nothing else. The wrap is the spec's own decision D8. Rules: 44_operate.md R184, 92_eei_decisions.md D8. -/
def Obligations.SubtractWraps : Prop :=
  ∀ (s : State) (flags a b dst : Reg) (m : BitVec 6) (n : BitVec 5),
    CompletesWriting (.opSub flags m a b dst) dst (BitVec.ofNat 64 (if (s.reg b).toNat ≤ (s.reg a).toNat then (s.reg a).toNat - (s.reg b).toNat else 2 ^ 64 + (s.reg a).toNat - (s.reg b).toNat)) s ∧
    ((s.reg flags).getLsbD n.toNat = true → CompletesWriting (.opSubIf flags n a b dst) dst (BitVec.ofNat 64 (if (s.reg b).toNat ≤ (s.reg a).toNat then (s.reg a).toNat - (s.reg b).toNat else 2 ^ 64 + (s.reg a).toNat - (s.reg b).toNat)) s)

/-- op.mul writes (a * b) mod 2^64 and nothing else. The wrap is the spec's own decision D8. Rules: 44_operate.md R185, 92_eei_decisions.md D8. -/
def Obligations.MultiplyKeepsLowHalf : Prop :=
  ∀ (s : State) (flags a b dst : Reg) (m : BitVec 6) (n : BitVec 5),
    CompletesWriting (.opMul flags m a b dst) dst (BitVec.ofNat 64 ((s.reg a).toNat * (s.reg b).toNat % 2 ^ 64)) s ∧
    ((s.reg flags).getLsbD n.toNat = true → CompletesWriting (.opMulIf flags n a b dst) dst (BitVec.ofNat 64 ((s.reg a).toNat * (s.reg b).toNat % 2 ^ 64)) s)

/-- op.div writes floor(a / b) for b not 0; for b = 0 it raises its soft error and leaves Dst. Rules: R186. -/
def Obligations.DivideIsUnsigned : Prop :=
  ∀ (s : State) (flags a b dst : Reg) (m : BitVec 6) (n : BitVec 5),
    (s.reg b ≠ 0 →
      CompletesWriting (.opDiv flags m a b dst) dst (BitVec.ofNat 64 ((s.reg a).toNat / (s.reg b).toNat)) s ∧
      ((s.reg flags).getLsbD n.toNat = true →
        CompletesWriting (.opDivIf flags n a b dst) dst (BitVec.ofNat 64 ((s.reg a).toNat / (s.reg b).toNat)) s)) ∧
    (s.reg b = 0 → (s.reg errSelReg).toNat < 256 →
      (∃ t, exec (.opDiv flags m a b dst) s = .next t ∧ SoftErrorOnly .divideByZero s t) ∧
      ((s.reg flags).getLsbD n.toNat = true →
        ∃ t, exec (.opDivIf flags n a b dst) s = .next t ∧ SoftErrorOnly .divideByZero s t))

/-- op.mod writes a - b * floor(a / b) for b not 0; for b = 0 it raises its soft error and leaves Dst. That modulo has a code of its own is the spec's own decision D13. Rules: 44_operate.md R187, 92_eei_decisions.md D13. -/
def Obligations.ModuloIsUnsigned : Prop :=
  ∀ (s : State) (flags a b dst : Reg) (m : BitVec 6) (n : BitVec 5),
    (s.reg b ≠ 0 →
      CompletesWriting (.opMod flags m a b dst) dst (BitVec.ofNat 64 ((s.reg a).toNat - (s.reg b).toNat * ((s.reg a).toNat / (s.reg b).toNat))) s ∧
      ((s.reg flags).getLsbD n.toNat = true →
        CompletesWriting (.opModIf flags n a b dst) dst (BitVec.ofNat 64 ((s.reg a).toNat - (s.reg b).toNat * ((s.reg a).toNat / (s.reg b).toNat))) s)) ∧
    (s.reg b = 0 → (s.reg errSelReg).toNat < 256 →
      (∃ t, exec (.opMod flags m a b dst) s = .next t ∧ SoftErrorOnly .moduloByZero s t) ∧
      ((s.reg flags).getLsbD n.toNat = true →
        ∃ t, exec (.opModIf flags n a b dst) s = .next t ∧ SoftErrorOnly .moduloByZero s t))

/-- op.lt writes 1 if a < b as unsigned numbers, else 0, and nothing else. The comparison and its boolean word are the spec's own decisions D6 and D7. Rules: 44_operate.md R188, 92_eei_decisions.md D6, D7. -/
def Obligations.LessThanIsUnsigned : Prop :=
  ∀ (s : State) (flags a b dst : Reg) (m : BitVec 6) (n : BitVec 5),
    CompletesWriting (.opLt flags m a b dst) dst (if (s.reg a).toNat < (s.reg b).toNat then 1 else 0) s ∧
    ((s.reg flags).getLsbD n.toNat = true → CompletesWriting (.opLtIf flags n a b dst) dst (if (s.reg a).toNat < (s.reg b).toNat then 1 else 0) s)

/-- op.le writes 1 if a <= b as unsigned numbers, else 0, and nothing else. The comparison and its boolean word are the spec's own decisions D6 and D7. Rules: 44_operate.md R189, 92_eei_decisions.md D6, D7. -/
def Obligations.LessOrEqualIsUnsigned : Prop :=
  ∀ (s : State) (flags a b dst : Reg) (m : BitVec 6) (n : BitVec 5),
    CompletesWriting (.opLe flags m a b dst) dst (if (s.reg a).toNat ≤ (s.reg b).toNat then 1 else 0) s ∧
    ((s.reg flags).getLsbD n.toNat = true → CompletesWriting (.opLeIf flags n a b dst) dst (if (s.reg a).toNat ≤ (s.reg b).toNat then 1 else 0) s)

/-- op.gt writes 1 if a > b as unsigned numbers, else 0, and nothing else. The comparison and its boolean word are the spec's own decisions D6 and D7. Rules: 44_operate.md R190, 92_eei_decisions.md D6, D7. -/
def Obligations.GreaterThanIsUnsigned : Prop :=
  ∀ (s : State) (flags a b dst : Reg) (m : BitVec 6) (n : BitVec 5),
    CompletesWriting (.opGt flags m a b dst) dst (if (s.reg a).toNat > (s.reg b).toNat then 1 else 0) s ∧
    ((s.reg flags).getLsbD n.toNat = true → CompletesWriting (.opGtIf flags n a b dst) dst (if (s.reg a).toNat > (s.reg b).toNat then 1 else 0) s)

/-- op.ge writes 1 if a >= b as unsigned numbers, else 0, and nothing else. The comparison and its boolean word are the spec's own decisions D6 and D7. Rules: 44_operate.md R191, 92_eei_decisions.md D6, D7. -/
def Obligations.GreaterOrEqualIsUnsigned : Prop :=
  ∀ (s : State) (flags a b dst : Reg) (m : BitVec 6) (n : BitVec 5),
    CompletesWriting (.opGe flags m a b dst) dst (if (s.reg a).toNat ≥ (s.reg b).toNat then 1 else 0) s ∧
    ((s.reg flags).getLsbD n.toNat = true → CompletesWriting (.opGeIf flags n a b dst) dst (if (s.reg a).toNat ≥ (s.reg b).toNat then 1 else 0) s)

/-- A conditional Operate whose bit is 0 changes nothing and goes on, whatever its selector and operands. Rules: R174. -/
def Obligations.FailedGateIsANoOp : Prop :=
  (∀ (i : Instr) (s : State) (f : Reg) (n : BitVec 5), instrGate i = some (f, n) →
    (s.reg f).getLsbD n.toNat = false → exec i s = .next s) ∧
  ∀ (i : Instr) (s : State) (f : Reg) (n : BitVec 5), instrGate i = some (f, n) → WellFormed i → s.standsAt i →
    ((s.executing i).reg f).getLsbD n.toNat = false → ∃ t, step s = .next t ∧ t.reg 0 = s.reg 0 + 8

/-- op* and op?n* run the operation whose selector value the selector register holds. Rules: 30_encoding.md R97, 44_operate.md R171, 44_operate.md R175. -/
def Obligations.IndirectSelectorPicksTheOperation : Prop :=
  ∀ (s : State) (o : AluOp) (flags sel a b dst : Reg) (m : BitVec 7) (n : BitVec 5),
    s.reg sel = (config.alu o).setWidth 64 →
    (∀ flags' m', exec (.opInd flags m sel a b dst) s = exec (instrOfAlu o flags' m' a b dst) s) ∧
    (∀ v, aluResult o (s.reg a) (s.reg b) = .value v → CompletesWriting (.opInd flags m sel a b dst) dst v s) ∧
    ((s.reg flags).getLsbD n.toNat = true →
      exec (.opIfInd flags n sel a b dst) s = exec (instrOfAluIf o flags n a b dst) s ∧
      ∀ v, aluResult o (s.reg a) (s.reg b) = .value v → CompletesWriting (.opIfInd flags n sel a b dst) dst v s)

/-- An Operate whose gate passes and whose selector names no operation is a fatal UnimplementedAluOp. That all 64 bits of an indirect selector are compared is the spec's own decision D29 (log entry 23). That a fatal fault leaves r0 where it is is the spec's own decision D12 (log entry 15). Rules: 44_operate.md R175, 44_operate.md R193, 30_encoding.md R99. -/
def Obligations.UnrecognisedSelectorFaults : Prop :=
  ∀ (s : State) (flags selReg a b dst : Reg) (m : BitVec 6) (m' : BitVec 7) (n : BitVec 5) (sel : Byte),
    ((∀ o, config.alu o ≠ sel) →
      (∃ t, exec (.op flags m sel a b dst) s = .next t ∧ FaultedWith .unimplementedAluOp s t) ∧
      ((s.reg flags).getLsbD n.toNat = true →
        ∃ t, exec (.opIf flags n sel a b dst) s = .next t ∧ FaultedWith .unimplementedAluOp s t)) ∧
    ((∀ o, (config.alu o).setWidth 64 ≠ s.reg selReg) →
      (∃ t, exec (.opInd flags m' selReg a b dst) s = .next t ∧ FaultedWith .unimplementedAluOp s t) ∧
      ((s.reg flags).getLsbD n.toNat = true →
        ∃ t, exec (.opIfInd flags n selReg a b dst) s = .next t ∧ FaultedWith .unimplementedAluOp s t))

/-- A Syscall whose Number names no host operation is a fatal UnimplementedSyscall, with no host operation performed. That a fatal fault leaves r0 where it is is the spec's own decision D12 (log entry 15). Rules: 45_syscall.md R210, 30_encoding.md R99. -/
def Obligations.UnrecognisedSyscallFaults : Prop :=
  ∀ (s : State) (k : Byte) (a0 a1 a2 a3 a4 a5 ret : Reg), (∀ o, config.sys o ≠ k) →
    ∃ t, exec (.sys k a0 a1 a2 a3 a4 a5 ret) s = .next t ∧ FaultedWith .unimplementedSyscall s t ∧
      t.requests = s.requests

/-- sys.read writes the bytes the host gives, at most len of them, at the buffer, and their number to RetDst. What the call means and the roles of the arguments are general knowledge and the spec's decision D21 (log entry 8, PRESUMED); that min(ret, len) bytes are placed is log entry 7, the stop log entries 17 and 24. Rules: 45_syscall.md R210, 45_syscall.md R212, 45_syscall.md R220. -/
def Obligations.SyscallReadPlacesTheBytes : Prop :=
  ∀ (s : State) (a0 a1 a2 a3 a4 a5 ret : Reg),
    (s.answer.ret.msb = true →
      ∃ t, exec (.sysRead a0 a1 a2 a3 a4 a5 ret) s = .next t ∧ WritesOnly ret s.answer.ret s t ∧
        t.requests = .read (s.reg a0) (s.reg a1) (s.reg a2) :: s.requests) ∧
    (s.answer.ret.msb = false →
      ((∀ j < min s.answer.ret.toNat (s.reg a2).toNat, s.isMapped (s.reg a1 + BitVec.ofNat 64 j).toNat = true) →
        ∃ t, exec (.sysRead a0 a1 a2 a3 a4 a5 ret) s = .next t ∧
          t.reg ret = BitVec.ofNat 64 (min s.answer.ret.toNat (s.reg a2).toNat) ∧
          (∀ j < min s.answer.ret.toNat (s.reg a2).toNat,
            t.byteAt (s.reg a1 + BitVec.ofNat 64 j).toNat = some (BitVec.ofNat 8 (s.answer.bytes / 256 ^ j))) ∧
          SameBytesOutside (s.reg a1) (min s.answer.ret.toNat (s.reg a2).toNat) s t ∧
          SameRegsBut [ret] s t ∧ SameTable s t ∧ SameRun s t ∧
          t.requests = .read (s.reg a0) (s.reg a1) (s.reg a2) :: s.requests) ∧
      ((∃ j < min s.answer.ret.toNat (s.reg a2).toNat,
          s.isMapped (s.reg a1 + BitVec.ofNat 64 j).toNat = false) →
        exec (.sysRead a0 a1 a2 a3 a4 a5 ret) s =
          .fault (.unmappedAccess (s.reg a1) (min s.answer.ret.toNat (s.reg a2).toNat))))

/-- sys.write sends the buffer's bytes to the host, changes no memory, and writes the host's result to RetDst. What the call means and the roles of the arguments are general knowledge and the spec's decision D21 (log entry 8, PRESUMED); the stop, whatever the host would answer, is log entries 17 and 24. Rules: 45_syscall.md R210, 45_syscall.md R213, 45_syscall.md R220. -/
def Obligations.SyscallWriteSendsTheBuffer : Prop :=
  ∀ (s : State) (a0 a1 a2 a3 a4 a5 ret : Reg),
    (∀ data : List Byte, data.length = (s.reg a2).toNat →
      (∀ k (h : k < data.length), s.byteAt (s.reg a1 + BitVec.ofNat 64 k).toNat = some data[k]) →
      ∃ t, exec (.sysWrite a0 a1 a2 a3 a4 a5 ret) s = .next t ∧ WritesOnly ret s.answer.ret s t ∧
        t.requests = .write (s.reg a0) (s.reg a1) (s.reg a2) data :: s.requests) ∧
    ((∃ k < (s.reg a2).toNat, s.isMapped (s.reg a1 + BitVec.ofNat 64 k).toNat = false) →
      exec (.sysWrite a0 a1 a2 a3 a4 a5 ret) s = .fault (.unmappedAccess (s.reg a1) (s.reg a2).toNat))

/-- sys.open and sys.stat send the zero-terminated path to the host and write its answer to their destinations, and stop where a byte of the path is unmapped. Zero-terminated paths and the roles of the arguments are general knowledge and the spec's decision D21 (log entry 8, PRESUMED); the stop is log entries 17 and 24. Rules: 45_syscall.md R210, 45_syscall.md R214, 45_syscall.md R216, 45_syscall.md R220. -/
def Obligations.SyscallOpenAndStatReadThePath : Prop :=
  ∀ (s : State) (a0 a1 a2 a3 a4 a5 ret : Reg),
    (∀ name : List Byte, name.length < 2 ^ 64 → (∀ b ∈ name, b ≠ 0) →
      s.loadBytes (s.reg a0) (name.length + 1) = some (name ++ [0]) →
      (∃ t, exec (.sysOpen a0 a1 a2 a3 a4 a5 ret) s = .next t ∧ WritesOnly ret s.answer.ret s t ∧
        t.requests = .openPath (s.reg a0) (s.reg a1) (s.reg a2) (name ++ [0]) :: s.requests) ∧
      ∃ t, exec (.sysStat a0 a1 a2 a3 a4 a5 ret) s = .next t ∧
        t.reg ret = s.answer.ret ∧ (a2 ≠ ret → t.reg a2 = s.answer.mode) ∧
        (a1 ∉ [a2, ret] → t.reg a1 = s.answer.size) ∧ OnlyRegsChange [a1, a2, ret] s t ∧
        t.requests = .stat (s.reg a0) (name ++ [0]) :: s.requests) ∧
    (s.pathMeetsUnmapped (s.reg a0) →
      exec (.sysOpen a0 a1 a2 a3 a4 a5 ret) s = .fault (.unmappedAccess (s.reg a0) 1) ∧
      exec (.sysStat a0 a1 a2 a3 a4 a5 ret) s = .fault (.unmappedAccess (s.reg a0) 1))

/-- sys.close and sys.fstat send the descriptor to the host and write its answer to their destinations. The roles of the arguments, the destinations Arg1 and Arg2 and their order are general knowledge and the spec's decision D21 (log entry 8, PRESUMED). Rules: 45_syscall.md R210, 45_syscall.md R215, 45_syscall.md R217. -/
def Obligations.SyscallCloseAndFstatAnswer : Prop :=
  ∀ (s : State) (a0 a1 a2 a3 a4 a5 ret : Reg),
    (∃ t, exec (.sysClose a0 a1 a2 a3 a4 a5 ret) s = .next t ∧ WritesOnly ret s.answer.ret s t ∧
      t.requests = .close (s.reg a0) :: s.requests) ∧
    ∃ t, exec (.sysFstat a0 a1 a2 a3 a4 a5 ret) s = .next t ∧
      t.reg ret = s.answer.ret ∧ (a2 ≠ ret → t.reg a2 = s.answer.mode) ∧
      (a1 ∉ [a2, ret] → t.reg a1 = s.answer.size) ∧ OnlyRegsChange [a1, a2, ret] s t ∧
      t.requests = .fstat (s.reg a0) :: s.requests

/-- A soft error of dealloc, b2r, r2b, division or modulo, in every form, stops the model while ERRSEL holds 256 or more; that of alloc is in AllocateFailsSoftly. The stop is the spec's decision D15, the model's treatment of UNDEFINED (log entry 18). Rules: 60_exceptions.md R236, 10_state.md R28, 44_operate.md R186, 44_operate.md R187, 30_encoding.md R97. -/
def Obligations.SoftErrorNeedsAnErrorRegister : Prop :=
  ∀ (s : State) (x y z flags sel : Reg) (m : BitVec 6) (m' : BitVec 7) (n : BitVec 5), 256 ≤ (s.reg errSelReg).toNat →
    (∀ k : Fin 256, k.val = (s.reg x).toNat → (s.slot k).data = 0 → exec (.dealloc x) s = .fault .errSelRange) ∧
    (8 < (s.reg y).toNat → exec (.b2r x y z) s = .fault .errSelRange ∧ exec (.r2b x y z) s = .fault .errSelRange) ∧
    (s.reg y = 0 → exec (.opDiv flags m x y z) s = .fault .errSelRange ∧
      exec (.opMod flags m x y z) s = .fault .errSelRange ∧
      ((s.reg flags).getLsbD n.toNat = true → exec (.opDivIf flags n x y z) s = .fault .errSelRange ∧
        exec (.opModIf flags n x y z) s = .fault .errSelRange) ∧
      (s.reg sel = (config.alu .div).setWidth 64 ∨ s.reg sel = (config.alu .mod).setWidth 64 →
        exec (.opInd flags m' sel x y z) s = .fault .errSelRange ∧
        ((s.reg flags).getLsbD n.toNat = true → exec (.opIfInd flags n sel x y z) s = .fault .errSelRange)))

/-- Allocate then Deallocate of its handle restores the count, a second Deallocate fails, and a full table never allocates. Rules: R148. -/
def Obligations.AllocateThenDeallocateRestoresTheCount : Prop :=
  (∀ (s t : State) (size addr : Word) (k : Fin 256), s.allocate size = (.ok k addr, t) →
    ∃ u, t.deallocate k = some u ∧ u.liveCount = s.liveCount ∧ u.deallocate k = none) ∧
  ∀ (s : State) (size : Word), s.liveCount = 256 → (s.allocate size).1 = .full

/-- The state after reset has the invariant. Rules: 10_state.md R37, 20_memory.md R57. -/
def Obligations.InvariantAtReset : Prop :=
  State.reset.Inv

/-- HOST.start leads from any state to one with the invariant, in Initializing, with the registers untouched, and maps what the host presents. That memory and the mapped regions are then the host's alone, bytes outside them dropped, is the model's own choice (log entry 13). Rules: 70_reset_and_hazards.md R260, 10_state.md R31, 10_state.md R32, 20_memory.md R57, 20_memory.md R60. -/
def Obligations.HostStartGivesTheInvariant : Prop :=
  ∀ (s : State) (l : Launch), Memory.wf l.mem →
    (s.hostStart l).Inv ∧ (s.hostStart l).runState = .initializing ∧ SameRegsBut [] s (s.hostStart l) ∧
      (s.hostStart l).blob = l.blob ∧
      MappedAsPresented l.mem l.blob (s.hostStart l) ∧
      (∀ k < 16, k < l.blob.length.toNat / 16 → ∀ len data : List Byte, len.length = 8 → data.length = 8 →
        PresentedAt l.mem (l.blob.data + BitVec.ofNat 64 (16 * k) + config.recLenOff) len →
        PresentedAt l.mem (l.blob.data + BitVec.ofNat 64 (16 * k) + config.recDataOff) data →
        MappedAsPresented l.mem
          { length := BitVec.ofNat 64 (natOfBytes len), data := BitVec.ofNat 64 (natOfBytes data) } (s.hostStart l)) ∧
      (∀ b ∈ l.hostRegions, MappedAsPresented l.mem b (s.hostStart l)) ∧
      ∀ a : Nat, (s.hostStart l).isMapped a = true →
        ∃ b ∈ l.blob :: subBuffers l.mem l.blob ++ l.hostRegions,
          b.data ≠ 0 ∧ b.data.toNat ≤ a ∧ a < b.data.toNat + b.length.toNat

/-- Every step keeps the invariant: canonical memory within the mapped regions, the table and the regions in agreement, allocations disjoint, the latches true. Rules: 10_state.md R31, 10_state.md R32, 20_memory.md R53, 42_allocation.md R141, 42_allocation.md R142, 42_allocation.md R143. -/
def Obligations.EveryStepKeepsTheInvariant : Prop :=
  ∀ s t : State, s.Inv → step s = .next t → t.Inv

/-- No instruction changes a register that is neither a destination of it nor the one ERRSEL names. Rules: 10_state.md R39, 10_state.md R22, 60_exceptions.md R236. -/
def Obligations.RegistersChangeOnlyAtDestinations : Prop :=
  ∀ (i : Instr) (s t : State) (r : Reg), exec i s = .next t → r ∉ instrDests i →
    r.val ≠ (s.reg errSelReg).toNat → (errSelReg ∈ instrDests i → r ≠ 0) → t.reg r = s.reg r

/-- No instruction but r2b and a Syscall read changes a byte, and none but alloc and dealloc changes what is mapped. Rules: 20_memory.md R51, 42_allocation.md R144, 42_allocation.md R146. -/
def Obligations.OnlyStoresChangeMemory : Prop :=
  (∀ (i : Instr) (s t : State), exec i s = .next t →
    (∀ x y z, i ≠ .r2b x y z) → (∀ a b c d e f r, i ≠ .sysRead a b c d e f r) → (∀ k a b c d e f r, i ≠ .sys k a b c d e f r) →
    (∀ x h p l, i ≠ .alloc x h p l) → (∀ x, i ≠ .dealloc x) → SameBytes s t) ∧
  (∀ (s t : State) (src count addrDst : Reg), exec (.r2b src count addrDst) s = .next t →
    SameBytesOutside (s.effectiveAddr addrDst) (if s.transferCount count ≤ 8 then s.transferCount count else 0) s t) ∧
  ∀ (i : Instr) (s t : State), exec i s = .next t →
    (∀ x h p l, i ≠ .alloc x h p l) → (∀ x, i ≠ .dealloc x) → SameTable s t

/-- The run state and the latches change only by Quit and by a fatal fault, which changes nothing else; the blob never changes. That a fatal fault leaves r0 where it is is the spec's own decision D12 (log entry 15). Rules: 10_state.md R31, 10_state.md R32, 60_exceptions.md R240, 00_scope.md R6. -/
def Obligations.LatchesChangeOnlyAtTheEnd : Prop :=
  (∀ (i : Instr) (s t : State), s.runState = .running → exec i s = .next t →
    SameRun s t ∨ (t.runState = .halted ∧ ∃ a b, i = .quit a b) ∨
      FaultedWith .unimplementedAluOp s t ∨ FaultedWith .unimplementedSyscall s t) ∧
  ∀ (i : Instr) (s t : State), exec i s = .next t → t.blob = s.blob

/-- No instruction is refused, and the only stops are an unmapped access, an ERRSEL out of range and a handle out of range. The stops are the model's treatment of UNDEFINED (the spec's decisions D15, D17, D18; log entries 17, 18, 19 and 24). Rules: 00_scope.md R15, 60_exceptions.md R230, 93_implementation_defined.md part 1. -/
def Obligations.StopsAreTheOnesTheSpecLeavesOpen : Prop :=
  (∀ (i : Instr) (s : State) (r : Refusal), exec i s ≠ .refused r) ∧
  ∀ (i : Instr) (s : State) (f : Fault), exec i s = .fault f →
    match f with
    | .unmappedAccess a n =>
      (instrOpcode i ∈ [.b2r, .r2b, .sys] ∧ ∃ k < n, s.isMapped (a + BitVec.ofNat 64 k).toNat = false) ∨
      ∃ a0 a1 a2 a3 a4 a5 ret, (i = .sysOpen a0 a1 a2 a3 a4 a5 ret ∨ i = .sysStat a0 a1 a2 a3 a4 a5 ret ∨
          ∃ k, i = .sys k a0 a1 a2 a3 a4 a5 ret) ∧ a = s.reg a0 ∧ s.pathMeetsUnmapped a
    | .errSelRange =>
      (∃ x h p l, i = .alloc x h p l ∧ 256 ≤ (errSelAfterAlloc h p l s).toNat) ∨
      (instrOpcode i ∈ [.dealloc, .b2r, .r2b, .op] ∧ 256 ≤ (s.reg errSelReg).toNat)
    | .handleRange => ∃ h, i = .dealloc h ∧ 256 ≤ (s.reg h).toNat
    | .notRunning => False

/-- A relative jump adds its offset and 8 to r0, a conditional one does so only if its bit is 1, and a failed check can jump through ERRSEL. The spec marks these as derived; that the stride is added to r0 as the effect left it is its own decision D11 (log entry 23). Rules: 40_fetch_dispatch_quit.md R118, 70_reset_and_hazards.md R270. -/
def Obligations.WritesToR0AreJumps : Prop :=
  (∀ (s : State) (f off : Reg) (m : BitVec 6), 10 ≤ off.val → s.standsAt (.opAdd f m 0 off 0) →
    ∃ t, step s = .next t ∧ t.reg 0 = s.reg 0 + s.reg off + 8) ∧
  (∀ (s : State) (f off : Reg) (n : BitVec 5), 10 ≤ f.val → 10 ≤ off.val → s.standsAt (.opAddIf f n 0 off 0) →
    ∃ t, step s = .next t ∧
      t.reg 0 = if (s.reg f).getLsbD n.toNat then s.reg 0 + s.reg off + 8 else s.reg 0 + 8) ∧
  ∀ (s : State) (x count y : Reg), 10 ≤ count.val → 8 < (s.reg count).toNat → s.reg errSelReg = 0 →
    s.standsAt (.b2r x count y) →
    ∃ t, step s = .next t ∧ t.reg 0 = config.err .invalidTransferSize + 5
end

