-- ==== Sys2Proof/Laws/State.lean ====
section
/-! SUPPORT. One lemma per field per update of a state. -/

namespace Sys2Proof.Machine

@[simp] theorem State.setReg_runState (s : State) (r : Reg) (v : Word) : (s.setReg r v).runState = s.runState := rfl
@[simp] theorem State.setReg_output (s : State) (r : Reg) (v : Word) : (s.setReg r v).output = s.output := rfl
@[simp] theorem State.setReg_fatalCode (s : State) (r : Reg) (v : Word) : (s.setReg r v).fatalCode = s.fatalCode := rfl
@[simp] theorem State.setReg_slots (s : State) (r : Reg) (v : Word) : (s.setReg r v).slots = s.slots := rfl
@[simp] theorem State.setReg_mem (s : State) (r : Reg) (v : Word) : (s.setReg r v).mem = s.mem := rfl
@[simp] theorem State.setReg_regions (s : State) (r : Reg) (v : Word) : (s.setReg r v).regions = s.regions := rfl
@[simp] theorem State.setReg_blob (s : State) (r : Reg) (v : Word) : (s.setReg r v).blob = s.blob := rfl
@[simp] theorem State.setReg_hostAnswers (s : State) (r : Reg) (v : Word) : (s.setReg r v).hostAnswers = s.hostAnswers := rfl
@[simp] theorem State.setReg_requests (s : State) (r : Reg) (v : Word) : (s.setReg r v).requests = s.requests := rfl
@[simp] theorem State.setReg_draws (s : State) (r : Reg) (v : Word) : (s.setReg r v).draws = s.draws := rfl
@[simp] theorem State.setReg_regs (s : State) (r : Reg) (v : Word) : (s.setReg r v).regs = s.regs.set r.val v r.isLt := rfl

@[simp] theorem State.setMem_runState (s : State) (m : List Host.Cell) : (s.setMem m).runState = s.runState := rfl
@[simp] theorem State.setMem_output (s : State) (m : List Host.Cell) : (s.setMem m).output = s.output := rfl
@[simp] theorem State.setMem_fatalCode (s : State) (m : List Host.Cell) : (s.setMem m).fatalCode = s.fatalCode := rfl
@[simp] theorem State.setMem_slots (s : State) (m : List Host.Cell) : (s.setMem m).slots = s.slots := rfl
@[simp] theorem State.setMem_mem (s : State) (m : List Host.Cell) : (s.setMem m).mem = m := rfl
@[simp] theorem State.setMem_regions (s : State) (m : List Host.Cell) : (s.setMem m).regions = s.regions := rfl
@[simp] theorem State.setMem_blob (s : State) (m : List Host.Cell) : (s.setMem m).blob = s.blob := rfl
@[simp] theorem State.setMem_hostAnswers (s : State) (m : List Host.Cell) : (s.setMem m).hostAnswers = s.hostAnswers := rfl
@[simp] theorem State.setMem_requests (s : State) (m : List Host.Cell) : (s.setMem m).requests = s.requests := rfl
@[simp] theorem State.setMem_draws (s : State) (m : List Host.Cell) : (s.setMem m).draws = s.draws := rfl
@[simp] theorem State.setMem_regs (s : State) (m : List Host.Cell) : (s.setMem m).regs = s.regs := rfl

@[simp] theorem State.setSlot_runState (s : State) (h : Fin 256) (b : Buffer) : (s.setSlot h b).runState = s.runState := rfl
@[simp] theorem State.setSlot_output (s : State) (h : Fin 256) (b : Buffer) : (s.setSlot h b).output = s.output := rfl
@[simp] theorem State.setSlot_fatalCode (s : State) (h : Fin 256) (b : Buffer) : (s.setSlot h b).fatalCode = s.fatalCode := rfl
@[simp] theorem State.setSlot_slots (s : State) (h : Fin 256) (b : Buffer) : (s.setSlot h b).slots = s.slots.set h.val b h.isLt := rfl
@[simp] theorem State.setSlot_mem (s : State) (h : Fin 256) (b : Buffer) : (s.setSlot h b).mem = s.mem := rfl
@[simp] theorem State.setSlot_regions (s : State) (h : Fin 256) (b : Buffer) : (s.setSlot h b).regions = s.regions := rfl
@[simp] theorem State.setSlot_blob (s : State) (h : Fin 256) (b : Buffer) : (s.setSlot h b).blob = s.blob := rfl
@[simp] theorem State.setSlot_hostAnswers (s : State) (h : Fin 256) (b : Buffer) : (s.setSlot h b).hostAnswers = s.hostAnswers := rfl
@[simp] theorem State.setSlot_requests (s : State) (h : Fin 256) (b : Buffer) : (s.setSlot h b).requests = s.requests := rfl
@[simp] theorem State.setSlot_draws (s : State) (h : Fin 256) (b : Buffer) : (s.setSlot h b).draws = s.draws := rfl
@[simp] theorem State.setSlot_regs (s : State) (h : Fin 256) (b : Buffer) : (s.setSlot h b).regs = s.regs := rfl

@[simp] theorem State.setRegions_runState (s : State) (rs : List Region) : (s.setRegions rs).runState = s.runState := rfl
@[simp] theorem State.setRegions_output (s : State) (rs : List Region) : (s.setRegions rs).output = s.output := rfl
@[simp] theorem State.setRegions_fatalCode (s : State) (rs : List Region) : (s.setRegions rs).fatalCode = s.fatalCode := rfl
@[simp] theorem State.setRegions_slots (s : State) (rs : List Region) : (s.setRegions rs).slots = s.slots := rfl
@[simp] theorem State.setRegions_mem (s : State) (rs : List Region) : (s.setRegions rs).mem = s.mem := rfl
@[simp] theorem State.setRegions_regions (s : State) (rs : List Region) : (s.setRegions rs).regions = rs := rfl
@[simp] theorem State.setRegions_blob (s : State) (rs : List Region) : (s.setRegions rs).blob = s.blob := rfl
@[simp] theorem State.setRegions_hostAnswers (s : State) (rs : List Region) : (s.setRegions rs).hostAnswers = s.hostAnswers := rfl
@[simp] theorem State.setRegions_requests (s : State) (rs : List Region) : (s.setRegions rs).requests = s.requests := rfl
@[simp] theorem State.setRegions_draws (s : State) (rs : List Region) : (s.setRegions rs).draws = s.draws := rfl
@[simp] theorem State.setRegions_regs (s : State) (rs : List Region) : (s.setRegions rs).regs = s.regs := rfl

@[simp] theorem State.send_runState (s : State) (q : HostRequest) : (s.send q).runState = s.runState := rfl
@[simp] theorem State.send_output (s : State) (q : HostRequest) : (s.send q).output = s.output := rfl
@[simp] theorem State.send_fatalCode (s : State) (q : HostRequest) : (s.send q).fatalCode = s.fatalCode := rfl
@[simp] theorem State.send_slots (s : State) (q : HostRequest) : (s.send q).slots = s.slots := rfl
@[simp] theorem State.send_mem (s : State) (q : HostRequest) : (s.send q).mem = s.mem := rfl
@[simp] theorem State.send_regions (s : State) (q : HostRequest) : (s.send q).regions = s.regions := rfl
@[simp] theorem State.send_blob (s : State) (q : HostRequest) : (s.send q).blob = s.blob := rfl
@[simp] theorem State.send_hostAnswers (s : State) (q : HostRequest) : (s.send q).hostAnswers = s.hostAnswers := rfl
@[simp] theorem State.send_requests (s : State) (q : HostRequest) : (s.send q).requests = q :: s.requests := rfl
@[simp] theorem State.send_draws (s : State) (q : HostRequest) : (s.send q).draws = s.draws := rfl
@[simp] theorem State.send_regs (s : State) (q : HostRequest) : (s.send q).regs = s.regs := rfl

@[simp] theorem State.tick_runState (s : State) : (s.tick).runState = s.runState := rfl
@[simp] theorem State.tick_output (s : State) : (s.tick).output = s.output := rfl
@[simp] theorem State.tick_fatalCode (s : State) : (s.tick).fatalCode = s.fatalCode := rfl
@[simp] theorem State.tick_slots (s : State) : (s.tick).slots = s.slots := rfl
@[simp] theorem State.tick_mem (s : State) : (s.tick).mem = s.mem := rfl
@[simp] theorem State.tick_regions (s : State) : (s.tick).regions = s.regions := rfl
@[simp] theorem State.tick_blob (s : State) : (s.tick).blob = s.blob := rfl
@[simp] theorem State.tick_hostAnswers (s : State) : (s.tick).hostAnswers = s.hostAnswers := rfl
@[simp] theorem State.tick_requests (s : State) : (s.tick).requests = s.requests := rfl
@[simp] theorem State.tick_draws (s : State) : (s.tick).draws = s.draws + 1 := rfl
@[simp] theorem State.tick_regs (s : State) : (s.tick).regs = s.regs := rfl

@[simp] theorem State.dropAnswer_runState (s : State) : (s.dropAnswer).runState = s.runState := rfl
@[simp] theorem State.dropAnswer_output (s : State) : (s.dropAnswer).output = s.output := rfl
@[simp] theorem State.dropAnswer_fatalCode (s : State) : (s.dropAnswer).fatalCode = s.fatalCode := rfl
@[simp] theorem State.dropAnswer_slots (s : State) : (s.dropAnswer).slots = s.slots := rfl
@[simp] theorem State.dropAnswer_mem (s : State) : (s.dropAnswer).mem = s.mem := rfl
@[simp] theorem State.dropAnswer_regions (s : State) : (s.dropAnswer).regions = s.regions := rfl
@[simp] theorem State.dropAnswer_blob (s : State) : (s.dropAnswer).blob = s.blob := rfl
@[simp] theorem State.dropAnswer_hostAnswers (s : State) : (s.dropAnswer).hostAnswers = s.hostAnswers.drop 1 := rfl
@[simp] theorem State.dropAnswer_requests (s : State) : (s.dropAnswer).requests = s.requests := rfl
@[simp] theorem State.dropAnswer_draws (s : State) : (s.dropAnswer).draws = s.draws + 1 := rfl
@[simp] theorem State.dropAnswer_regs (s : State) : (s.dropAnswer).regs = s.regs := rfl

@[simp] theorem State.conclude_runState (s : State) (st : RunState) (o : Buffer) (c : ErrorCode) : (s.conclude st o c).runState = st := rfl
@[simp] theorem State.conclude_output (s : State) (st : RunState) (o : Buffer) (c : ErrorCode) : (s.conclude st o c).output = o := rfl
@[simp] theorem State.conclude_fatalCode (s : State) (st : RunState) (o : Buffer) (c : ErrorCode) : (s.conclude st o c).fatalCode = c := rfl
@[simp] theorem State.conclude_slots (s : State) (st : RunState) (o : Buffer) (c : ErrorCode) : (s.conclude st o c).slots = s.slots := rfl
@[simp] theorem State.conclude_mem (s : State) (st : RunState) (o : Buffer) (c : ErrorCode) : (s.conclude st o c).mem = s.mem := rfl
@[simp] theorem State.conclude_regions (s : State) (st : RunState) (o : Buffer) (c : ErrorCode) : (s.conclude st o c).regions = s.regions := rfl
@[simp] theorem State.conclude_blob (s : State) (st : RunState) (o : Buffer) (c : ErrorCode) : (s.conclude st o c).blob = s.blob := rfl
@[simp] theorem State.conclude_hostAnswers (s : State) (st : RunState) (o : Buffer) (c : ErrorCode) : (s.conclude st o c).hostAnswers = s.hostAnswers := rfl
@[simp] theorem State.conclude_requests (s : State) (st : RunState) (o : Buffer) (c : ErrorCode) : (s.conclude st o c).requests = s.requests := rfl
@[simp] theorem State.conclude_draws (s : State) (st : RunState) (o : Buffer) (c : ErrorCode) : (s.conclude st o c).draws = s.draws := rfl
@[simp] theorem State.conclude_regs (s : State) (st : RunState) (o : Buffer) (c : ErrorCode) : (s.conclude st o c).regs = s.regs := rfl

/-! ## Views that an update does not touch -/

@[simp] theorem State.setReg_slot (s : State) (r : Reg) (v : Word) (x : Fin 256) : (s.setReg r v).slot x = s.slot x := rfl
@[simp] theorem State.setReg_isMapped (s : State) (r : Reg) (v : Word) (x : Nat) : (s.setReg r v).isMapped x = s.isMapped x := rfl
@[simp] theorem State.setReg_regionAt (s : State) (r : Reg) (v : Word) (x : Nat) : (s.setReg r v).regionAt x = s.regionAt x := rfl
@[simp] theorem State.setReg_byteAt (s : State) (r : Reg) (v : Word) (x : Nat) : (s.setReg r v).byteAt x = s.byteAt x := rfl
@[simp] theorem State.setMem_reg (s : State) (m : List Host.Cell) (x : Reg) : (s.setMem m).reg x = s.reg x := rfl
@[simp] theorem State.setMem_slot (s : State) (m : List Host.Cell) (x : Fin 256) : (s.setMem m).slot x = s.slot x := rfl
@[simp] theorem State.setMem_isMapped (s : State) (m : List Host.Cell) (x : Nat) : (s.setMem m).isMapped x = s.isMapped x := rfl
@[simp] theorem State.setMem_regionAt (s : State) (m : List Host.Cell) (x : Nat) : (s.setMem m).regionAt x = s.regionAt x := rfl
@[simp] theorem State.setSlot_reg (s : State) (h : Fin 256) (b : Buffer) (x : Reg) : (s.setSlot h b).reg x = s.reg x := rfl
@[simp] theorem State.setSlot_isMapped (s : State) (h : Fin 256) (b : Buffer) (x : Nat) : (s.setSlot h b).isMapped x = s.isMapped x := rfl
@[simp] theorem State.setSlot_regionAt (s : State) (h : Fin 256) (b : Buffer) (x : Nat) : (s.setSlot h b).regionAt x = s.regionAt x := rfl
@[simp] theorem State.setSlot_byteAt (s : State) (h : Fin 256) (b : Buffer) (x : Nat) : (s.setSlot h b).byteAt x = s.byteAt x := rfl
@[simp] theorem State.setRegions_reg (s : State) (rs : List Region) (x : Reg) : (s.setRegions rs).reg x = s.reg x := rfl
@[simp] theorem State.setRegions_slot (s : State) (rs : List Region) (x : Fin 256) : (s.setRegions rs).slot x = s.slot x := rfl
@[simp] theorem State.send_reg (s : State) (q : HostRequest) (x : Reg) : (s.send q).reg x = s.reg x := rfl
@[simp] theorem State.send_slot (s : State) (q : HostRequest) (x : Fin 256) : (s.send q).slot x = s.slot x := rfl
@[simp] theorem State.send_isMapped (s : State) (q : HostRequest) (x : Nat) : (s.send q).isMapped x = s.isMapped x := rfl
@[simp] theorem State.send_regionAt (s : State) (q : HostRequest) (x : Nat) : (s.send q).regionAt x = s.regionAt x := rfl
@[simp] theorem State.send_byteAt (s : State) (q : HostRequest) (x : Nat) : (s.send q).byteAt x = s.byteAt x := rfl
@[simp] theorem State.tick_reg (s : State) (x : Reg) : (s.tick).reg x = s.reg x := rfl
@[simp] theorem State.tick_slot (s : State) (x : Fin 256) : (s.tick).slot x = s.slot x := rfl
@[simp] theorem State.tick_isMapped (s : State) (x : Nat) : (s.tick).isMapped x = s.isMapped x := rfl
@[simp] theorem State.tick_regionAt (s : State) (x : Nat) : (s.tick).regionAt x = s.regionAt x := rfl
@[simp] theorem State.tick_byteAt (s : State) (x : Nat) : (s.tick).byteAt x = s.byteAt x := rfl
@[simp] theorem State.dropAnswer_reg (s : State) (x : Reg) : (s.dropAnswer).reg x = s.reg x := rfl
@[simp] theorem State.dropAnswer_slot (s : State) (x : Fin 256) : (s.dropAnswer).slot x = s.slot x := rfl
@[simp] theorem State.dropAnswer_isMapped (s : State) (x : Nat) : (s.dropAnswer).isMapped x = s.isMapped x := rfl
@[simp] theorem State.dropAnswer_regionAt (s : State) (x : Nat) : (s.dropAnswer).regionAt x = s.regionAt x := rfl
@[simp] theorem State.dropAnswer_byteAt (s : State) (x : Nat) : (s.dropAnswer).byteAt x = s.byteAt x := rfl
@[simp] theorem State.conclude_reg (s : State) (st : RunState) (o : Buffer) (c : ErrorCode) (x : Reg) : (s.conclude st o c).reg x = s.reg x := rfl
@[simp] theorem State.conclude_slot (s : State) (st : RunState) (o : Buffer) (c : ErrorCode) (x : Fin 256) : (s.conclude st o c).slot x = s.slot x := rfl
@[simp] theorem State.conclude_isMapped (s : State) (st : RunState) (o : Buffer) (c : ErrorCode) (x : Nat) : (s.conclude st o c).isMapped x = s.isMapped x := rfl
@[simp] theorem State.conclude_regionAt (s : State) (st : RunState) (o : Buffer) (c : ErrorCode) (x : Nat) : (s.conclude st o c).regionAt x = s.regionAt x := rfl
@[simp] theorem State.conclude_byteAt (s : State) (st : RunState) (o : Buffer) (c : ErrorCode) (x : Nat) : (s.conclude st o c).byteAt x = s.byteAt x := rfl

/-- A read after a write to the same register gives the value written. -/
@[simp] theorem State.reg_setReg_same (s : State) (r : Reg) (v : Word) : (s.setReg r v).reg r = v := by
  simp [State.reg]

/-- A write leaves every other register alone. -/
theorem State.reg_setReg_other (s : State) {r x : Reg} (v : Word) (h : x ≠ r) : (s.setReg r v).reg x = s.reg x := by
  have h' : r.val ≠ x.val := fun e => h (Fin.ext e.symm)
  simp [State.reg, Vector.getElem_set_ne _ _ h']

/-- A register after a write. -/
theorem State.reg_setReg (s : State) (r x : Reg) (v : Word) : (s.setReg r v).reg x = if x = r then v else s.reg x := by
  split
  · next h => subst h; simp
  · next h => exact s.reg_setReg_other v h

/-- A slot after a write to the table. -/
theorem State.slot_setSlot (s : State) (h x : Fin 256) (b : Buffer) :
    (s.setSlot h b).slot x = if x = h then b else s.slot x := by
  split
  · next e => subst e; simp [State.slot]
  · next e =>
    have h' : h.val ≠ x.val := fun e' => e (Fin.ext e'.symm)
    simp [State.slot, Vector.getElem_set_ne _ _ h']

end Sys2Proof.Machine
end

