-- ==== Sys2Proof/Laws/Memory.lean ====
section
/-! SUPPORT. Memory as data: what a write does to a read, that every operation keeps the canonical form, and the byte order. -/

namespace Sys2Proof.Machine

/-- The addresses after the first of a run are the run from the next address on. -/
theorem addr_succ (a : Word) (k : Nat) : a + 1 + BitVec.ofNat 64 k = a + BitVec.ofNat 64 (k + 1) := by
  rw [BitVec.add_assoc]; congr 1; simp [BitVec.ofNat_add, BitVec.add_comm]

/-! ## One byte -/

@[simp] theorem Memory.read_write_same (m : List Host.Cell) (a : Nat) (b : Byte) :
    Memory.read (Memory.write m a b) a = some b := by
  induction m with
  | nil => simp [Memory.write, Memory.read]
  | cons c m ih =>
    obtain ⟨k, c⟩ := c
    simp only [Memory.write]
    split
    · simp [Memory.read]
    · split
      · simp [Memory.read]
      · next h => simp [Memory.read, h, ih]

theorem Memory.read_write_other (m : List Host.Cell) {a x : Nat} (b : Byte) (h : x ≠ a) :
    Memory.read (Memory.write m a b) x = Memory.read m x := by
  induction m with
  | nil => simp [Memory.write, Memory.read, h]
  | cons c m ih =>
    obtain ⟨k, c⟩ := c
    simp only [Memory.write]
    split
    · simp [Memory.read, h]
    · split
      · next e => subst e; simp [Memory.read, h]
      · simp [Memory.read, ih]

/-- What a write lists: the cell written, and cells that were listed. -/
theorem Memory.mem_write {m : List Host.Cell} {a : Nat} {b : Byte} {c : Host.Cell} (h : c ∈ Memory.write m a b) :
    c = (a, b) ∨ c ∈ m := by
  induction m with
  | nil => simpa [Memory.write] using h
  | cons d m ih =>
    obtain ⟨k, e⟩ := d
    simp only [Memory.write] at h
    split at h
    · simpa using h
    · split at h
      · rcases List.mem_cons.1 h with h | h
        · exact .inl h
        · exact .inr (List.mem_cons_of_mem _ h)
      · rcases List.mem_cons.1 h with h | h
        · exact .inr (by simp [h])
        · exact (ih h).imp_right (List.mem_cons_of_mem _)

/-- A write keeps the canonical form. -/
theorem Memory.wf_write {m : List Host.Cell} (a : Nat) (b : Byte) (h : Memory.wf m) : Memory.wf (Memory.write m a b) := by
  induction m with
  | nil => simp [Memory.write]
  | cons c m ih =>
    obtain ⟨k, c⟩ := c
    obtain ⟨hk, hm⟩ := List.pairwise_cons.1 h
    simp only [Memory.write]
    split
    · next hlt =>
      refine List.pairwise_cons.2 ⟨fun y hy => ?_, h⟩
      rcases List.mem_cons.1 hy with rfl | hy
      · exact hlt
      · exact Nat.lt_trans hlt (hk y hy)
    · split
      · next heq => subst heq; exact List.pairwise_cons.2 ⟨hk, hm⟩
      · refine List.pairwise_cons.2 ⟨fun y hy => ?_, ih hm⟩
        rcases Memory.mem_write hy with rfl | hy
        · show k < a; omega
        · exact hk y hy

/-! ## Runs of bytes -/

theorem Memory.wf_writeBytes {m : List Host.Cell} (a : Word) (bs : List Byte) (h : Memory.wf m) :
    Memory.wf (Memory.writeBytes m a bs) := by
  induction bs generalizing m a with
  | nil => exact h
  | cons b bs ih => exact ih _ (Memory.wf_write _ _ h)

/-- What a run of writes lists. -/
theorem Memory.mem_writeBytes {m : List Host.Cell} {a : Word} {bs : List Byte} {c : Host.Cell}
    (h : c ∈ Memory.writeBytes m a bs) : (∃ k < bs.length, c.1 = (a + BitVec.ofNat 64 k).toNat) ∨ c ∈ m := by
  induction bs generalizing m a with
  | nil => exact .inr h
  | cons b bs ih =>
    rcases ih h with ⟨k, hk, e⟩ | h
    · refine .inl ⟨k + 1, by simpa using hk, ?_⟩
      rw [e, addr_succ]
    · rcases Memory.mem_write h with rfl | h
      · exact .inl ⟨0, by simp, by simp⟩
      · exact .inr h

/-- A run of writes leaves every address outside it alone. -/
theorem Memory.read_writeBytes_outside {m : List Host.Cell} {a x : Word} (bs : List Byte)
    (h : ∀ k < bs.length, x ≠ a + BitVec.ofNat 64 k) :
    Memory.read (Memory.writeBytes m a bs) x.toNat = Memory.read m x.toNat := by
  induction bs generalizing m a with
  | nil => rfl
  | cons b bs ih =>
    simp only [Memory.writeBytes]
    rw [ih, Memory.read_write_other]
    · intro e
      exact h 0 (by simp) (by simpa using BitVec.eq_of_toNat_eq e)
    · intro k hk e
      refine h (k + 1) (by simpa using hk) ?_
      rw [e, addr_succ]

/-- Each address of a run of at most 2^64 bytes holds its byte afterwards. -/
theorem Memory.read_writeBytes_inside {m : List Host.Cell} {a : Word} (bs : List Byte) (hl : bs.length ≤ 2 ^ 64)
    {k : Nat} (hk : k < bs.length) :
    Memory.read (Memory.writeBytes m a bs) (a + BitVec.ofNat 64 k).toNat = some bs[k] := by
  induction bs generalizing m a k with
  | nil => simp at hk
  | cons b bs ih =>
    simp only [List.length_cons] at hl hk
    cases k with
    | zero =>
      simp only [Memory.writeBytes]
      rw [Memory.read_writeBytes_outside]
      · simp
      · intro j hj e
        have := congrArg BitVec.toNat e
        simp only [BitVec.toNat_add, BitVec.toNat_ofNat] at this
        have ha := a.isLt
        have h1 : BitVec.toNat (1 : Word) = 1 := rfl
        omega
    | succ k =>
      rw [← addr_succ]
      simpa [Memory.writeBytes] using ih (m := Memory.write m a.toNat b) (a := a + 1) (by omega) (k := k) (by omega)

/-! ## Dropping bytes -/

theorem Memory.wf_filter {m : List Host.Cell} (p : Host.Cell → Bool) (h : Memory.wf m) : Memory.wf (m.filter p) :=
  List.Pairwise.filter p h

/-- Dropping the bytes of some addresses leaves the others readable. -/
theorem Memory.read_filter (m : List Host.Cell) (p : Nat → Bool) (x : Nat) :
    Memory.read (m.filter fun c => p c.1) x = if p x then Memory.read m x else none := by
  induction m with
  | nil => simp [Memory.read]
  | cons c m ih =>
    obtain ⟨k, c⟩ := c
    by_cases hx : x = k
    · subst hx
      by_cases hp : p x = true
      · simp [hp, Memory.read]
      · simp [hp, ih]
    · by_cases hp : p k = true
      · simp [hp, Memory.read, hx, ih]
      · simp [hp, Memory.read, hx, ih]

end Sys2Proof.Machine

namespace Sys2Proof

/-! ## Byte order -/

@[simp] theorem leBytes_length (n v : Nat) : (leBytes n v).length = n := by
  induction n generalizing v with
  | zero => rfl
  | succ n ih => simp [leBytes, ih]

/-- Byte `k` of a number. -/
theorem leBytes_getElem (n v k : Nat) (h : k < (leBytes n v).length) :
    (leBytes n v)[k] = BitVec.ofNat 8 (v / 256 ^ k) := by
  induction n generalizing v k with
  | zero => simp at h
  | succ n ih =>
    cases k with
    | zero => simp [leBytes]
    | succ k => simp [leBytes, ih, Nat.div_div_eq_div_mul, Nat.pow_succ, Nat.mul_comm]

/-- Assembling the low bytes of a number gives it back, truncated. -/
theorem leNat_leBytes (n v : Nat) : leNat (leBytes n v) = v % 256 ^ n := by
  induction n generalizing v with
  | zero => simp [leBytes, leNat, Nat.mod_one]
  | succ n ih =>
    have h : v % 256 ^ (n + 1) = v % 256 + 256 * (v / 256 % 256 ^ n) := by
      rw [Nat.pow_succ, Nat.mul_comm, Nat.mod_mul]
    simp [leBytes, leNat, ih, h]

/-- A number assembled from `n` bytes is below 256^n. -/
theorem leNat_lt (bs : List Byte) : leNat bs < 256 ^ bs.length := by
  induction bs with
  | nil => simp [leNat]
  | cons b bs ih =>
    have hb := b.isLt
    simp only [leNat, List.length_cons, Nat.pow_succ]
    omega

/-- Splitting an assembled number gives the bytes back. -/
theorem leBytes_leNat (bs : List Byte) : leBytes bs.length (leNat bs) = bs := by
  induction bs with
  | nil => rfl
  | cons b bs ih =>
    have hb := b.isLt
    have h1 : (b.toNat + 256 * leNat bs) / 256 = leNat bs := by omega
    have h2 : BitVec.ofNat 8 (b.toNat + 256 * leNat bs) = b := by
      apply BitVec.eq_of_toNat_eq; simp only [BitVec.toNat_ofNat]; omega
    simp [leBytes, leNat, h1, h2, ih]

/-- At the configured BYTE_ORDER the byte at the lowest address is the least significant (`92_eei_decisions.md` D2). -/
@[simp] theorem natOfBytes_eq (bs : List Byte) : natOfBytes bs = leNat bs := rfl
@[simp] theorem bytesOfNat_eq (n v : Nat) : bytesOfNat n v = leBytes n v := rfl
@[simp] theorem idOfBytes_eq (b0 b1 : Byte) : idOfBytes b0 b1 = b1 ++ b0 := rfl

/-- XLEN is 64, as `omega` can use it of a word. -/
theorem Word.toNat_lt (w : Word) : w.toNat < 2 ^ 64 := w.isLt

end Sys2Proof
end

