-- ==== Sys2Proof/Laws/Ops.lean ====
section
/-! SUPPORT. One lemma for each shared operation, saying everything it can do. -/

namespace Sys2Proof.Machine

/-! ## Mapped memory -/

theorem State.isMapped_eq (s : State) (a : Nat) : s.isMapped a = (s.regionAt a).isSome := by
  simp [State.isMapped, State.regionAt, List.isSome_find?]

/-- A byte reads as something exactly where it is mapped. -/
theorem State.byteAt_isSome (s : State) (a : Nat) : (s.byteAt a).isSome = s.isMapped a := by
  rw [State.isMapped_eq]
  unfold State.byteAt
  split <;> simp_all

/-- A byte depends on the regions and on memory alone. -/
theorem State.byteAt_congr {s t : State} (a : Nat) (hr : t.regions = s.regions) (hm : Memory.read t.mem a = Memory.read s.mem a) :
    t.byteAt a = s.byteAt a := by
  simp [State.byteAt, State.regionAt, hr, hm]

theorem State.isMapped_congr {s t : State} (a : Nat) (hr : t.regions = s.regions) : t.isMapped a = s.isMapped a := by
  simp [State.isMapped, hr]

/-- A range is mapped exactly if each of its addresses is. -/
theorem State.rangeMapped_iff (s : State) (a : Word) (n : Nat) :
    s.rangeMapped a n = true ↔ ∀ k < n, s.isMapped (a + BitVec.ofNat 64 k).toNat = true := by
  induction n generalizing a with
  | zero => simp [State.rangeMapped]
  | succ n ih =>
    simp only [State.rangeMapped, Bool.and_eq_true, ih, addr_succ]
    constructor
    · rintro ⟨h0, h⟩ k hk
      cases k with
      | zero => simpa using h0
      | succ k => exact h k (by omega)
    · intro h
      exact ⟨by simpa using h 0 (by omega), fun k hk => h (k + 1) (by omega)⟩

/-- What a load gives: as many bytes as asked for, each the byte at its address. -/
theorem State.loadBytes_spec {s : State} {a : Word} {n : Nat} {bs : List Byte} :
    s.loadBytes a n = some bs ↔
      bs.length = n ∧ ∀ k (h : k < bs.length), s.byteAt (a + BitVec.ofNat 64 k).toNat = some bs[k] := by
  induction n generalizing a bs with
  | zero =>
    simp only [State.loadBytes, Option.some.injEq, List.length_eq_zero_iff]
    constructor
    · rintro rfl; simp
    · rintro ⟨rfl, -⟩; rfl
  | succ n ih =>
    simp only [State.loadBytes]
    constructor
    · intro h
      split at h
      · cases h
      · next b hb =>
        split at h
        · cases h
        · next tl ht =>
          cases h
          obtain ⟨hl, hk⟩ := ih.1 ht
          refine ⟨by simp [hl], fun k hk' => ?_⟩
          cases k with
          | zero => simpa using hb
          | succ k => rw [← addr_succ]; simpa using hk k (by simpa using hk')
    · rintro ⟨hl, hk⟩
      cases bs with
      | nil => simp at hl
      | cons b tl =>
        have h0 : s.byteAt a.toNat = some b := by
          have := hk 0 (by simp)
          rwa [show a + BitVec.ofNat 64 0 = a by simp] at this
        have ht : s.loadBytes (a + 1) n = some tl :=
          ih.2 ⟨by simpa using hl, fun k hk' => by rw [addr_succ]; exact hk (k + 1) (by simpa using hk')⟩
        rw [h0, ht]

/-- A load answers exactly where the range is mapped. -/
theorem State.loadBytes_isSome (s : State) (a : Word) (n : Nat) : (s.loadBytes a n).isSome = s.rangeMapped a n := by
  induction n generalizing a with
  | zero => rfl
  | succ n ih =>
    simp only [State.loadBytes, State.rangeMapped, ← ih, ← State.byteAt_isSome]
    cases s.byteAt a.toNat with
    | none => rfl
    | some b => cases s.loadBytes (a + 1) n <;> rfl

/-- A load depends on the bytes alone. -/
theorem State.loadBytes_congr {s t : State} (a : Word) (n : Nat) (h : ∀ x : Nat, t.byteAt x = s.byteAt x) :
    t.loadBytes a n = s.loadBytes a n := by
  induction n generalizing a with
  | zero => rfl
  | succ n ih => simp [State.loadBytes, h, ih]

/-- A load of `m + n` bytes is a load of `m` and one of the `n` after them. -/
theorem State.loadBytes_add (s : State) (a : Word) (m n : Nat) :
    s.loadBytes a (m + n) =
      (s.loadBytes a m).bind fun xs => (s.loadBytes (a + BitVec.ofNat 64 m) n).map fun ys => xs ++ ys := by
  induction m generalizing a with
  | zero => simp [State.loadBytes]
  | succ m ih =>
    rw [Nat.succ_add]
    simp only [State.loadBytes, ih, addr_succ]
    cases s.byteAt a.toNat with
    | none => rfl
    | some b =>
      cases s.loadBytes (a + 1) m with
      | none => rfl
      | some xs => cases s.loadBytes (a + BitVec.ofNat 64 (m + 1)) n <;> rfl

/-- The null address is in no mapped region. -/
theorem State.isMapped_zero (s : State) : s.isMapped 0 = false := by
  simp only [State.isMapped, List.any_eq_false]
  intro r _ h
  have h0 : r.base = 0 := BitVec.eq_of_toNat_eq (by simp [Region.contains] at h; simp [h])
  simp [Region.contains, h0] at h

/-- A string read that gives nothing has met an unmapped address before a zero byte, or no zero byte within its fuel. -/
theorem State.loadString_none {s : State} {a : Word} {fuel : Nat} : s.loadString a fuel = none ↔
    (∃ k < fuel, (∀ j < k, ∃ b, s.byteAt (a + BitVec.ofNat 64 j).toNat = some b ∧ b ≠ 0) ∧
      s.isMapped (a + BitVec.ofNat 64 k).toNat = false) ∨
    ∀ j < fuel, ∃ b, s.byteAt (a + BitVec.ofNat 64 j).toNat = some b ∧ b ≠ 0 := by
  induction fuel generalizing a with
  | zero => simp [State.loadString]
  | succ fuel ih =>
    have h0 : s.byteAt (a + BitVec.ofNat 64 0).toNat = s.byteAt a.toNat := by simp
    have hm0 : s.isMapped (a + BitVec.ofNat 64 0).toNat = (s.byteAt a.toNat).isSome := by
      rw [State.byteAt_isSome]; simp
    simp only [State.loadString]
    split
    · next hb =>
      exact ⟨fun _ => .inl ⟨0, by omega, fun j hj => absurd hj (by omega), by rw [hm0, hb]; rfl⟩, fun _ => rfl⟩
    · next b hb =>
      have hm0' : s.isMapped (a + BitVec.ofNat 64 0).toNat = true := by rw [hm0, hb]; rfl
      split
      · next hz =>
        refine ⟨fun h => by (cases h), ?_⟩
        rintro (⟨k, -, hk, hu⟩ | h)
        · cases k with
          | zero => rw [hm0'] at hu; cases hu
          | succ k =>
            obtain ⟨c, hc, hc0⟩ := hk 0 (by omega)
            rw [h0, hb] at hc
            cases hc
            exact absurd hz hc0
        · obtain ⟨c, hc, hc0⟩ := h 0 (by omega)
          rw [h0, hb] at hc
          cases hc
          exact absurd hz hc0
      · next hz =>
        refine Iff.trans (b := s.loadString (a + 1) fuel = none) (by cases s.loadString (a + 1) fuel <;> simp) (ih.trans ?_)
        constructor
        · rintro (⟨k, hk, hj, hu⟩ | h)
          · refine .inl ⟨k + 1, by omega, fun j hj' => ?_, addr_succ a k ▸ hu⟩
            cases j with
            | zero => exact ⟨b, h0.trans hb, hz⟩
            | succ j => exact addr_succ a j ▸ hj j (by omega)
          · refine .inr fun j hj' => ?_
            cases j with
            | zero => exact ⟨b, h0.trans hb, hz⟩
            | succ j => exact addr_succ a j ▸ h j (by omega)
        · rintro (⟨k, hk, hj, hu⟩ | h)
          · cases k with
            | zero => rw [hm0'] at hu; cases hu
            | succ k =>
              exact .inl ⟨k, by omega, fun j hj' => (addr_succ a j).symm ▸ hj (j + 1) (by omega), (addr_succ a k).symm ▸ hu⟩
          · exact .inr fun j hj' => (addr_succ a j).symm ▸ h (j + 1) (by omega)

/-- A path read gives nothing exactly where the path meets an unmapped address: the null address, among all of them, is never
mapped, so a path cannot go on for ever. -/
theorem State.loadPath_none {s : State} {a : Word} : s.loadPath a = none ↔ s.pathMeetsUnmapped a := by
  refine State.loadString_none.trans ⟨?_, .inl⟩
  rintro (h | h)
  · exact h
  · have hlt : (-a).toNat < 2 ^ 64 := Word.toNat_lt _
    obtain ⟨b, hb, -⟩ := h (-a).toNat hlt
    have e : a + BitVec.ofNat 64 (-a).toNat = 0 := by
      rw [BitVec.ofNat_toNat, BitVec.setWidth_eq]
      exact BitVec.add_right_neg a
    have hm := s.byteAt_isSome 0
    rw [e] at hb
    rw [show ((0 : Word).toNat) = 0 from rfl] at hb
    rw [hb, State.isMapped_zero] at hm
    cases hm

/-- Everything a store can do: where the range is mapped it writes the bytes, else it does nothing. -/
theorem State.memWrite_spec {s t : State} {a : Word} {n v : Nat} (h : s.memWrite a n v = some t) :
    s.rangeMapped a n = true ∧ t = s.setMem (Memory.writeBytes s.mem a (leBytes n v)) := by
  unfold State.memWrite at h
  split at h
  · next hm => exact ⟨hm, (Option.some.inj h).symm⟩
  · cases h

theorem State.memWrite_isSome (s : State) (a : Word) (n v : Nat) : (s.memWrite a n v).isSome = s.rangeMapped a n := by
  unfold State.memWrite
  split <;> simp_all

/-- A store leaves every byte outside its range as it was. -/
theorem State.memWrite_outside {s t : State} {a : Word} {n v : Nat} (h : s.memWrite a n v = some t) :
    SameBytesOutside a n s t := by
  obtain ⟨-, rfl⟩ := State.memWrite_spec h
  intro x hx
  exact State.byteAt_congr _ rfl (Memory.read_writeBytes_outside _ (by simpa using hx))

/-- A store of at most 2^64 bytes puts byte `k` of the value at address `a + k`. -/
theorem State.memWrite_inside {s t : State} {a : Word} {n v : Nat} (h : s.memWrite a n v = some t) (hn : n ≤ 2 ^ 64)
    {k : Nat} (hk : k < n) : t.byteAt (a + BitVec.ofNat 64 k).toNat = some (BitVec.ofNat 8 (v / 256 ^ k)) := by
  obtain ⟨hm, rfl⟩ := State.memWrite_spec h
  have hmap := (State.rangeMapped_iff _ _ _).1 hm k hk
  rw [State.isMapped_eq] at hmap
  obtain ⟨r, hr⟩ := Option.isSome_iff_exists.1 hmap
  have := Memory.read_writeBytes_inside (m := s.mem) (a := a) (leBytes n v) (by simpa using hn) (k := k) (by simpa using hk)
  simp only [State.byteAt, State.regionAt, State.setMem_regions, State.setMem_mem]
  simp only [State.regionAt] at hr
  rw [hr, this, leBytes_getElem]
  rfl

/-! ## Errors -/

/-- Everything a soft error can do (`60_exceptions.md` R236). -/
theorem softError_spec (code : ErrorCode) (s : State) :
    (∃ e : Reg, e.val = (s.reg errSelReg).toNat ∧ softError code s = .next (s.setReg e (config.err code))) ∨
      (256 ≤ (s.reg errSelReg).toNat ∧ softError code s = .fault .errSelRange) := by
  unfold softError
  split
  · next h => exact .inl ⟨_, rfl, rfl⟩
  · next h => exact .inr ⟨by omega, rfl⟩

/-! ## Frames of the updates -/

theorem onlyRegs_setReg (s : State) (r : Reg) (v : Word) : WritesOnly r v s (s.setReg r v) :=
  ⟨s.reg_setReg_same r v, fun x hx => s.reg_setReg_other v (by simpa using hx), fun _ => rfl, ⟨fun _ => rfl, rfl⟩, rfl, rfl, rfl⟩

theorem faultedWith_fatal (s : State) (code : ErrorCode) : FaultedWith code s (s.fatal code) :=
  ⟨rfl, rfl, rfl, fun _ _ => rfl, fun _ => rfl, fun _ => rfl, rfl⟩

/-! ## The scratch registers -/

/-- A write of scratch registers changes no other part of the state. -/
theorem State.writeScratch_frame (s : State) (k : Nat) (vs : List Word) :
    ∃ rs, s.writeScratch k vs = { s with regs := rs } := by
  induction vs generalizing s k with
  | nil => exact ⟨s.regs, rfl⟩
  | cons v vs ih =>
    obtain ⟨rs, h⟩ := ih (s.setReg (scratchReg k) v) (k + 1)
    exact ⟨rs, by rw [State.writeScratch, h]; rfl⟩

/-- A register after a write of at most eight scratch registers. -/
theorem State.reg_writeScratch (s : State) (k : Nat) (vs : List Word) (h : k + vs.length ≤ 8) (r : Reg) :
    (s.writeScratch k vs).reg r =
      if 2 + k ≤ r.val ∧ r.val < 2 + k + vs.length then vs.getD (r.val - 2 - k) 0 else s.reg r := by
  induction vs generalizing s k with
  | nil => simp [State.writeScratch]
  | cons v vs ih =>
    simp only [List.length_cons] at h
    have hv : (scratchReg k).val = 2 + k := by simp [scratchReg, Fin.ofNat]; omega
    rw [State.writeScratch, ih _ _ (by omega), State.reg_setReg]
    have hr : (r = scratchReg k) ↔ r.val = 2 + k := by rw [Fin.ext_iff, hv]
    by_cases h0 : r.val = 2 + k
    · rw [if_neg (by omega), if_pos (hr.2 h0), if_pos (by simp; omega)]
      simp [h0]
    · by_cases h1 : 2 + (k + 1) ≤ r.val ∧ r.val < 2 + (k + 1) + vs.length
      · rw [if_pos h1, if_pos (by simp; omega)]
        obtain ⟨j, hj⟩ : ∃ j, r.val = 2 + (k + 1) + j := ⟨r.val - (2 + (k + 1)), by omega⟩
        have e1 : r.val - 2 - (k + 1) = j := by omega
        have e2 : r.val - 2 - k = j + 1 := by omega
        simp [e1, e2]
      · rw [if_neg h1, if_neg (fun e => h0 (hr.1 e)), if_neg (by simp; omega)]

/-- Every register outside r1..r9 is the same when an instruction executes as when its cycle began. -/
theorem State.decoded_frame (s : State) (id : BitVec 16) (o : Opcode) (ps : List Byte) :
    ∃ rs, s.decoded id o ps = { s with regs := rs } := by
  obtain ⟨r1, h1⟩ := s.writeScratch_frame 0 (List.replicate numScratch 0)
  unfold State.decoded State.fetched State.loadScratch State.clearScratch
  rw [h1]
  split
  · obtain ⟨r2, h2⟩ := (State.setReg { s with regs := r1 } iidReg (id.setWidth 64)).writeScratch_frame 0 (cutParams o ps)
    exact ⟨r2, by rw [h2]; rfl⟩
  · exact ⟨_, rfl⟩

/-! ## The allocation table -/

/-- The first free slot is free, and every slot before it is live (`42_allocation.md` R141). -/
theorem State.freeSlot_some {s : State} {h : Fin 256} (e : s.freeSlot = some h) :
    (s.slot h).data = 0 ∧ ∀ j < h, (s.slot j).data ≠ 0 := by
  unfold State.freeSlot at e
  obtain ⟨hp, i, hi, hget, hj⟩ := List.find?_eq_some_iff_getElem.1 e
  refine ⟨by simpa using hp, fun j hjh => ?_⟩
  have hi' : h.val = i := by simpa using (congrArg Fin.val hget).symm
  have := hj j.val (by rw [Fin.lt_def] at hjh; omega)
  simpa using this

/-- There is no free slot exactly if all 256 are live. -/
theorem State.freeSlot_none {s : State} : s.freeSlot = none ↔ ∀ h, (s.slot h).data ≠ 0 := by
  simp [State.freeSlot]

/-- What a granted address satisfies (`42_allocation.md` R142). -/
theorem State.grant_some {s : State} {size addr : Word} {ans : HostAnswer} (h : s.grant size ans = some addr) :
    ans.reserve = some addr ∧ addr ≠ 0 ∧ addr.toNat + size.toNat ≤ 2 ^ 64 ∧
      ∀ r ∈ s.regions, r.meets addr.toNat size.toNat = false := by
  unfold State.grant at h
  split at h
  · cases h
  · next a ha =>
    split at h
    · next hc =>
      cases h
      simp only [Bool.and_eq_true, bne_iff_ne, ne_eq, decide_eq_true_eq, Bool.not_eq_true', List.any_eq_false] at hc
      exact ⟨ha, hc.1.1, hc.1.2, fun r hr => by simpa using hc.2 r hr⟩
    · cases h

/-- Everything `allocate` can do (`42_allocation.md` R141). -/
theorem State.allocate_spec (s : State) (size : Word) :
    (s.freeSlot = none ∧ s.allocate size = (.full, s)) ∨
    (∃ h, s.freeSlot = some h ∧ s.grant size s.answer = none ∧
      s.allocate size = (.rejected, (s.send (.reserve size)).dropAnswer)) ∨
    (∃ h addr, s.freeSlot = some h ∧ s.grant size s.answer = some addr ∧
      s.allocate size = (.ok h addr,
        (((s.send (.reserve size)).dropAnswer).setSlot h { length := size, data := addr }).setRegions
          ({ base := addr, length := size, owner := .allocation h, serial := s.draws } :: s.regions))) := by
  unfold State.allocate
  cases hf : s.freeSlot with
  | none => exact .inl ⟨rfl, rfl⟩
  | some h =>
    cases hg : s.grant size s.answer with
    | none => exact .inr (.inl ⟨h, rfl, rfl, by simp⟩)
    | some addr => exact .inr (.inr ⟨h, addr, rfl, rfl, by simp⟩)

/-- Everything `deallocate` can do (`42_allocation.md` R143). -/
theorem State.deallocate_spec (s : State) (h : Fin 256) :
    ((s.slot h).data = 0 ∧ s.deallocate h = none) ∨
      ((s.slot h).data ≠ 0 ∧ s.deallocate h = some ((s.unmap h).setSlot h nullBuffer)) := by
  unfold State.deallocate
  split
  · next e => exact .inl ⟨e, rfl⟩
  · next e => exact .inr ⟨e, rfl⟩

/-! ## Every memory operation keeps the canonical form -/

theorem Memory.wf_memWrite {s t : State} {a : Word} {n v : Nat} (h : s.memWrite a n v = some t) (hw : Memory.wf s.mem) :
    Memory.wf t.mem := by
  obtain ⟨-, rfl⟩ := State.memWrite_spec h
  exact Memory.wf_writeBytes _ _ hw

theorem Memory.wf_unmap {s : State} (h : Fin 256) (hw : Memory.wf s.mem) : Memory.wf (s.unmap h).mem :=
  Memory.wf_filter _ hw

theorem State.mapEntry_mem (s : State) (ip : Word) : (s.mapEntry ip).mem = s.mem := by
  unfold State.mapEntry; split <;> rfl

theorem Memory.wf_placeInstr {s : State} (bs : List Byte) (hw : Memory.wf s.mem) : Memory.wf (s.placeInstr bs).mem := by
  exact Memory.wf_writeBytes _ _ (by rw [State.mapEntry_mem]; exact hw)

theorem Memory.wf_hostStart (s : State) (l : Launch) (hw : Memory.wf l.mem) : Memory.wf (s.hostStart l).mem :=
  Memory.wf_filter _ hw

theorem Memory.wf_reset : Memory.wf State.reset.mem := List.Pairwise.nil

end Sys2Proof.Machine
end

