-- ==== Sys2Proof/Laws/Exec.lean ====
section
/-! SUPPORT. What an instruction and a step can do, said once: the inversions of `exec` and of `step`. -/

namespace Sys2Proof.Machine

/-- A soft error that goes on has written its code to the register of ERRSEL. -/
theorem softError_cases {code} {s t : State} (h : softError code s = .next t) : ∃ e : Reg, e.val = (s.reg errSelReg).toNat ∧ t = s.setReg e (config.err code) := by
  rcases softError_spec code s with ⟨e, he, h'⟩ | ⟨h', h2⟩
  · rw [h'] at h; cases h; exact ⟨e, he, rfl⟩
  · rw [h2] at h; cases h

/-- An ALU operation that goes on has written Dst or the register of ERRSEL. -/
theorem applyAlu_cases {o a b d} {s t : State} (h : applyAlu o a b d s = .next t) :
   (∃ v, t = s.setReg d v) ∨ (∃ v, t = s.tick.setReg d v) ∨ (∃ e c, e.val = (s.reg errSelReg).toNat ∧ t = s.setReg e (config.err c)) := by
  unfold applyAlu at h
  split at h
  · cases h; exact .inl ⟨_, rfl⟩
  · cases h; exact .inr (.inl ⟨_, rfl⟩)
  · obtain ⟨e, he, rfl⟩ := softError_cases h; exact .inr (.inr ⟨e, _, he, rfl⟩)

/-- The two states differ in the model's own fields at most. -/
def SameMachine (s u : State) : Prop :=
  u.mem = s.mem ∧ u.regions = s.regions ∧ u.slots = s.slots ∧ u.runState = s.runState ∧ u.output = s.output ∧
    u.fatalCode = s.fatalCode ∧ u.blob = s.blob ∧ u.regs = s.regs

/-- Nothing but registers has changed, and of those only the destinations `ds` and the one a soft error of the instruction
writes (`60_exceptions.md` R236): that of ERRSEL, or r0 where the instruction itself zeroed r12. -/
def RegsOnly (ds : List Reg) (s t : State) : Prop :=
  t.mem = s.mem ∧ t.regions = s.regions ∧ t.slots = s.slots ∧ t.runState = s.runState ∧ t.output = s.output ∧
    t.fatalCode = s.fatalCode ∧ t.blob = s.blob ∧
    ∀ r, r ∉ ds → r.val ≠ (s.reg errSelReg).toNat → (errSelReg ∈ ds → r ≠ 0) → t.reg r = s.reg r

theorem RegsOnly.refl (ds : List Reg) (s : State) : RegsOnly ds s s :=
  ⟨rfl, rfl, rfl, rfl, rfl, rfl, rfl, fun _ _ _ _ => rfl⟩
theorem regsOnly_setReg {ds : List Reg} {s : State} {d : Reg} {v : Word} (h : d ∈ ds) : RegsOnly ds s (s.setReg d v) :=
  ⟨rfl, rfl, rfl, rfl, rfl, rfl, rfl, fun _ hr _ _ => State.reg_setReg_other _ _ (fun e => hr (e ▸ h))⟩
theorem regsOnly_errReg {ds : List Reg} {s : State} {d : Reg} {v : Word} (h : d.val = (s.reg errSelReg).toNat) : RegsOnly ds s (s.setReg d v) :=
  ⟨rfl, rfl, rfl, rfl, rfl, rfl, rfl, fun _ _ hr _ => State.reg_setReg_other _ _ (fun e => hr (e ▸ h))⟩

theorem applyAlu_regsOnly {o a b d} {s t : State} (h : applyAlu o a b d s = .next t) : RegsOnly [d] s t := by
  rcases applyAlu_cases h with ⟨v, rfl⟩ | ⟨v, rfl⟩ | ⟨e, c, he, rfl⟩
  · exact regsOnly_setReg (by simp)
  · exact regsOnly_setReg (s := s.tick) (by simp)
  · exact regsOnly_errReg he

/-- Every way in which an instruction answers a next state. -/
inductive ExecCase (i : Instr) (s t : State) : Prop
  /-- Registers alone: its destinations, or the code of a soft error. -/
  | regs (h : RegsOnly (instrDests i) s t)
  /-- Quit. -/
  | quit (a b : Reg) (h : i = .quit a b)
      (e : t = s.conclude .halted { data := s.reg a, length := s.reg b } .noError)
  /-- A fatal fault. -/
  | fatal (c : ErrorCode) (hc : c = .unimplementedAluOp ∨ c = .unimplementedSyscall) (e : t = s.fatal c)
  /-- A store. -/
  | store (x y z : Reg) (h : i = .r2b x y z) (hn : s.transferCount y ≤ 8)
      (e : s.memWrite (s.effectiveAddr z) (s.transferCount y) (s.reg x).toNat = some t)
  /-- A Syscall read. -/
  | read (a0 a1 a2 r : Reg) (u : State)
      (h : (∃ a3 a4 a5, i = .sysRead a0 a1 a2 a3 a4 a5 r) ∨ ∃ k a3 a4 a5, i = .sys k a0 a1 a2 a3 a4 a5 r)
      (e : (s.transact (.read (s.reg a0) (s.reg a1) (s.reg a2))).memWrite (s.reg a1)
        (placedBytes (s.reg a2) s.answer) s.answer.bytes = some u)
      (e' : t = u.setReg r (readResult (s.reg a2) s.answer))
  /-- An allocation that succeeds. -/
  | alloc (x h p l : Reg) (k : Fin 256) (addr : Word) (hi : i = .alloc x h p l) (hf : s.freeSlot = some k)
      (hg : s.grant (s.reg x) s.answer = some addr)
      (e : t = State.setAlloc
        ((((s.send (.reserve (s.reg x))).dropAnswer).setSlot k { length := s.reg x, data := addr }).setRegions
          ({ base := addr, length := s.reg x, owner := .allocation k, serial := s.draws } :: s.regions))
        h p l (BitVec.ofNat 64 k.val) addr (s.reg x))
  /-- A deallocation that succeeds. -/
  | dealloc (x : Reg) (k : Fin 256) (h : i = .dealloc x) (hk : k.val = (s.reg x).toNat) (hl : (s.slot k).data ≠ 0)
      (e : t = (s.unmap k).setSlot k nullBuffer)

theorem applySelector_cases {sel a b d} {s t : State} (h : applySelector sel a b d s = .next t) : RegsOnly [d] s t ∨ t = s.fatal .unimplementedAluOp := by
  unfold applySelector at h
  split at h
  · exact .inl (applyAlu_regsOnly h)
  · cases h; exact .inr rfl
theorem gated_cases {f n e} {s t : State} (h : gated f n e s = .next t) : t = s ∨ e s = .next t := by
  unfold gated at h; split at h
  · exact .inr h
  · cases h; exact .inl rfl

theorem gated_applyAlu_regsOnly {o f n a b d} {s t : State} (h : gated f n (applyAlu o a b d) s = .next t) : RegsOnly [d] s t := by
  rcases gated_cases h with rfl | h
  · exact RegsOnly.refl _ _
  · exact applyAlu_regsOnly h

theorem allocFails_regsOnly {code h p l} {s t u : State} (hu : SameMachine s u)
   (e : allocFails code h p l u = .next t) : RegsOnly [h, p, l] s t := by
  obtain ⟨e', he, rfl⟩ := softError_cases e
  obtain ⟨h1, h2, h3, h4, h5, h6, hb, h7⟩ := hu
  have hr : ∀ r, u.reg r = s.reg r := by intro r; simp [State.reg, h7]
  refine ⟨h1, h2, h3, h4, h5, h6, hb, fun r hd hn h0 => ?_⟩
  have hsel : (u.setAlloc h p l noSlotHandle 0 0).reg errSelReg = if errSelReg = l then 0 else if errSelReg = p then 0 else if errSelReg = h then 256 else s.reg errSelReg := by
    simp only [State.setAlloc, State.reg_setReg, hr]; rfl
  rw [hsel] at he
  simp at hd
  have : r ≠ e' := by
    rintro rfl
    by_cases c : errSelReg ∈ [h, p, l]
    · have h00 := h0 c
      have : r.val < 256 := r.isLt
      split at he
      · exact h00 (Fin.ext (by simpa using he))
      · split at he
        · exact h00 (Fin.ext (by simpa using he))
        · split at he
          · simp at he; omega
          · simp_all
    · simp at c
      simp [c] at he
      exact hn he
  simp only [State.setAlloc, State.reg_setReg, hr]
  simp [this, hd]

theorem regsOnly_setStat {s u : State} {a1 a2 r : Reg} {ans} (hu : SameMachine s u) :
    RegsOnly [a1, a2, r] s (u.setStat a1 a2 r ans) := by
  obtain ⟨h1, h2, h3, h4, h5, h6, hb, h7⟩ := hu
  have hr : ∀ r, u.reg r = s.reg r := by intro r; simp [State.reg, h7]
  refine ⟨h1, h2, h3, h4, h5, h6, hb, fun x hd _ _ => ?_⟩
  simp at hd
  simp [State.setStat, State.reg_setReg, hd, hr]
theorem regsOnly_ret {ds} {s u : State} {r : Reg} {v} (hd : r ∈ ds) (hu : SameMachine s u) :
    RegsOnly ds s (u.setReg r v) := by
  obtain ⟨h1, h2, h3, h4, h5, h6, hb, h7⟩ := hu
  have hr : ∀ r, u.reg r = s.reg r := by intro r; simp [State.reg, h7]
  refine ⟨h1, h2, h3, h4, h5, h6, hb, fun x hx _ _ => ?_⟩
  have : x ≠ r := by rintro rfl; exact hx hd
  rw [State.reg_setReg_other _ _ this, hr]

theorem execSysRead_cases {i} {s t : State} {a0 a1 a2 r} (hi : (∃ a3 a4 a5, i = Instr.sysRead a0 a1 a2 a3 a4 a5 r) ∨ ∃ k a3 a4 a5, i = .sys k a0 a1 a2 a3 a4 a5 r) (h : execSysRead a0 a1 a2 r s = .next t) : ExecCase i s t := by
  unfold execSysRead at h
  dsimp only at h
  split at h
  · next u hu => cases h; exact .read a0 a1 a2 r u hi hu rfl
  · cases h
theorem execSysWrite_cases {i} {s t : State} {a0 a1 a2 r} (hi : r ∈ instrDests i) (h : execSysWrite a0 a1 a2 r s = .next t) : ExecCase i s t := by
  unfold execSysWrite at h
  dsimp only at h
  split at h
  · cases h; exact .regs (regsOnly_ret hi ⟨rfl, rfl, rfl, rfl, rfl, rfl, rfl, rfl⟩)
  · cases h
theorem execSysOpen_cases {i} {s t : State} {a0 a1 a2 r} (hi : r ∈ instrDests i) (h : execSysOpen a0 a1 a2 r s = .next t) : ExecCase i s t := by
  unfold execSysOpen at h
  split at h
  · cases h; exact .regs (regsOnly_ret hi ⟨rfl, rfl, rfl, rfl, rfl, rfl, rfl, rfl⟩)
  · cases h
theorem execSysClose_cases {i} {s t : State} {a0 r} (hi : r ∈ instrDests i) (h : execSysClose a0 r s = .next t) : ExecCase i s t := by
  unfold execSysClose at h
  cases h; exact .regs (regsOnly_ret hi ⟨rfl, rfl, rfl, rfl, rfl, rfl, rfl, rfl⟩)
theorem execSysStat_cases {i} {s t : State} {a0 a1 a2 r} (hi : instrDests i = [a1, a2, r]) (h : execSysStat a0 a1 a2 r s = .next t) : ExecCase i s t := by
  unfold execSysStat at h
  split at h
  · cases h; exact .regs (hi ▸ regsOnly_setStat ⟨rfl, rfl, rfl, rfl, rfl, rfl, rfl, rfl⟩)
  · cases h
theorem execSysFstat_cases {i} {s t : State} {a0 a1 a2 r} (hi : instrDests i = [a1, a2, r]) (h : execSysFstat a0 a1 a2 r s = .next t) : ExecCase i s t := by
  unfold execSysFstat at h
  cases h; exact .regs (hi ▸ regsOnly_setStat ⟨rfl, rfl, rfl, rfl, rfl, rfl, rfl, rfl⟩)

/-- The inversion of `exec`: cite this, never unfold the dispatch. -/
theorem exec_cases {i} {s t : State} (h : exec i s = .next t) : ExecCase i s t := by
  cases i
  case quit a b => cases h; exact .quit a b rfl rfl
  case wr d v => cases h; exact .regs (regsOnly_setReg (by simp [instrDests]))
  case r2r x d => cases h; exact .regs (regsOnly_setReg (by simp [instrDests]))
  case alloc x hd p l =>
    have hh := h
    change execAlloc x hd p l s = _ at hh
    unfold execAlloc at hh
    rcases s.allocate_spec (s.reg x) with ⟨-, e⟩ | ⟨k, -, -, e⟩ | ⟨k, addr, hf, hg, e⟩
    · rw [e] at hh; exact .regs (allocFails_regsOnly (u := s) ⟨rfl, rfl, rfl, rfl, rfl, rfl, rfl, rfl⟩ hh)
    · rw [e] at hh; exact .regs (allocFails_regsOnly (u := (s.send (.reserve (s.reg x))).dropAnswer) ⟨rfl, rfl, rfl, rfl, rfl, rfl, rfl, rfl⟩ hh)
    · rw [e] at hh; cases hh; exact .alloc x hd p l k addr rfl hf hg rfl
  case dealloc x =>
    change execDealloc x s = _ at h
    unfold execDealloc at h
    split at h
    · next hlt =>
      rcases s.deallocate_spec ⟨(s.reg x).toNat, hlt⟩ with ⟨-, e⟩ | ⟨hl, e⟩
      · rw [e] at h; obtain ⟨e', he, rfl⟩ := softError_cases h; exact .regs (regsOnly_errReg he)
      · rw [e] at h; cases h; exact .dealloc x _ rfl rfl hl rfl
    · cases h
  case b2r x c d =>
    change execB2r x c d s = _ at h
    unfold execB2r at h
    dsimp only at h
    split at h
    · split at h
      · cases h; exact .regs (regsOnly_setReg (by simp [instrDests]))
      · cases h
    · obtain ⟨e', he, rfl⟩ := softError_cases h; exact .regs (regsOnly_errReg he)
  case r2b x c d =>
    change execR2b x c d s = _ at h
    unfold execR2b at h
    dsimp only at h
    split at h
    · next hn =>
      split at h
      · next u hu => cases h; exact .store x c d rfl hn hu
      · cases h
    · obtain ⟨e', he, rfl⟩ := softError_cases h; exact .regs (regsOnly_errReg he)
  case op f m sel a b d =>
    rcases applySelector_cases (show applySelector _ _ _ _ _ = _ from h) with h | h
    · exact .regs h
    · exact .fatal _ (.inl rfl) h
  case opInd f m sel a b d =>
    rcases applySelector_cases (show applySelector _ _ _ _ _ = _ from h) with h | h
    · exact .regs h
    · exact .fatal _ (.inl rfl) h
  case opIf f m sel a b d =>
    rcases gated_cases (show gated _ _ _ _ = _ from h) with rfl | h
    · exact .regs (RegsOnly.refl _ _)
    rcases applySelector_cases h with h | h
    · exact .regs h
    · exact .fatal _ (.inl rfl) h
  case opIfInd f m sel a b d =>
    rcases gated_cases (show gated _ _ _ _ = _ from h) with rfl | h
    · exact .regs (RegsOnly.refl _ _)
    rcases applySelector_cases h with h | h
    · exact .regs h
    · exact .fatal _ (.inl rfl) h
  case sysRead a0 a1 a2 a3 a4 a5 r => exact execSysRead_cases (.inl ⟨a3, a4, a5, rfl⟩) h
  case sysWrite => exact execSysWrite_cases (by simp [instrDests]) h
  case sysOpen => exact execSysOpen_cases (by simp [instrDests]) h
  case sysClose => exact execSysClose_cases (by simp [instrDests]) h
  case sysStat => exact execSysStat_cases rfl h
  case sysFstat => exact execSysFstat_cases rfl h
  case sys k a0 a1 a2 a3 a4 a5 r =>
    change execSys _ _ _ _ _ _ = _ at h
    unfold execSys at h
    split at h
    · exact execSysRead_cases (.inr ⟨k, a3, a4, a5, rfl⟩) h
    · exact execSysWrite_cases (by simp [instrDests]) h
    · exact execSysOpen_cases (by simp [instrDests]) h
    · exact execSysClose_cases (by simp [instrDests]) h
    · exact execSysStat_cases rfl h
    · exact execSysFstat_cases rfl h
    · cases h; exact .fatal _ (.inr rfl) rfl
  all_goals
    simp only [exec, execOpShr, execOpShrIf, execOpShl, execOpShlIf, execOpNot, execOpNotIf, execOpAnd, execOpAndIf, execOpOr, execOpOrIf, execOpXor, execOpXorIf, execOpAdd, execOpAddIf, execOpSub, execOpSubIf, execOpMul, execOpMulIf, execOpDiv, execOpDivIf, execOpMod, execOpModIf, execOpLt, execOpLtIf, execOpLe, execOpLeIf, execOpGt, execOpGtIf, execOpGe, execOpGeIf] at h
    first
    | exact .regs (applyAlu_regsOnly h)
    | exact .regs (gated_applyAlu_regsOnly h)

theorem RegsOnly.sameBytes {ds} {s t : State} (h : RegsOnly ds s t) : SameBytes s t := fun a => State.byteAt_congr a h.2.1 (by rw [h.1])
theorem RegsOnly.sameTable {ds} {s t : State} (h : RegsOnly ds s t) : SameTable s t := ⟨fun x => by simp [State.slot, h.2.2.1], h.2.1⟩
theorem RegsOnly.sameRun {ds} {s t : State} (h : RegsOnly ds s t) : SameRun s t := ⟨h.2.2.2.1, h.2.2.2.2.1, h.2.2.2.2.2.1⟩

/-- The inversion of initialisation. -/
theorem initialise_cases {s t : State} (h : initialise s = .next t) : 
    (∃ v, t = ((s.initRegs v).clearSlots).conclude .running nullBuffer .noError ∧ blobValid s.blob = true) ∨ (t = s.fatal .malformedInput ∧ blobValid s.blob = false) := by
  unfold initialise at h
  split at h
  · next hv =>
    split at h
    · cases h; exact .inl ⟨_, rfl, hv⟩
    · cases h
  · next hv => cases h; exact .inr ⟨rfl, by simpa using hv⟩

/-- A fetched instruction comes from its parameter bytes, and only registers have changed. -/
theorem fetch_instr {s : State} {i o u} (h : fetch s = .instr i o u) :
    (∃ rs, u = { s with regs := rs }) ∧ ∃ ps id, i = decodeParams o ps ∧ u = s.decoded id o ps ∧ opcodeOfId id = some o ∧ ps.length = opcodeStride o - 2 := by
  unfold fetch at h
  dsimp only at h
  split at h
  · cases h
  · split at h
    · cases h
    · next o' ho =>
      split at h
      · cases h
      · next ps hp =>
        cases h
        exact ⟨s.decoded_frame _ _ _, ps, _, rfl, rfl, ho, (State.loadBytes_spec.1 hp).1⟩

/-- An unrecognised ID leaves the state of phase 1. -/
theorem fetch_unrecognised {s u : State} (h : fetch s = .unrecognised u) : ∃ id, u = s.fetched id := by
  unfold fetch at h
  dsimp only at h
  split at h
  · cases h
  · split at h
    · cases h; exact ⟨_, rfl⟩
    · split at h <;> cases h

theorem State.fetched_frame (s : State) (id) : ∃ rs, s.fetched id = { s with regs := rs } := by
  obtain ⟨rs, h⟩ := s.writeScratch_frame 0 (List.replicate numScratch 0)
  exact ⟨_, by rw [State.fetched, State.clearScratch, h]; rfl⟩

/-- Every way in which a step answers a next state. -/
inductive StepCase (s t : State) : Prop
  /-- Initialisation. -/
  | initialising (hr : s.runState = .initializing) (h : initialise s = .next t)
  /-- An unrecognised opcode ID. -/
  | unrecognised (hr : s.runState = .running) (rs : Vector Word 256)
      (h : t = ({ s with regs := rs } : State).fatal .unimplementedOpcode)
  /-- An instruction that answers a next state, and the advance. -/
  | instruction (hr : s.runState = .running) (i : Instr) (o : Opcode) (rs : Vector Word 256) (u : State)
      (hf : fetch s = .instr i o { s with regs := rs }) (he : exec i { s with regs := rs } = .next u)
      (h : t = u.retire (opcodeStride o))

/-- The inversion of `step`. -/
theorem step_cases {s t : State} (h : step s = .next t) : StepCase s t := by
  unfold step at h
  split at h
  · next hr => exact .initialising hr h
  · cases h
  · cases h
  · next hr =>
    split at h
    · cases h
    · next u hu =>
      obtain ⟨id, rfl⟩ := fetch_unrecognised hu
      obtain ⟨rs, hrs⟩ := State.fetched_frame s id
      cases h
      exact .unrecognised hr rs (by rw [hrs])
    · next i o u hu =>
      obtain ⟨⟨rs, rfl⟩, -⟩ := fetch_instr hu
      cases he : exec i { s with regs := rs } with
      | next v => rw [he] at h; cases h; exact .instruction hr i o rs v hu he rfl
      | fault f => rw [he] at h; cases h
      | refused f => rw [he] at h; cases h

end Sys2Proof.Machine
end

