-- ==== Sys2Proof/Laws/PerInstr.lean ====
section
/-! SUPPORT. Facts about each instruction as a term of `Instr`, one lemma a constructor. -/

namespace Sys2Proof.Laws.EncodingShape

/-- The encoding of an instruction begins with its opcode ID and is as long as its opcode's stride (`30_encoding.md` R80,
R82, R84). -/
def Statement (i : Instr) : Prop :=
  (encode i).take 2 = encodeId (instrOpcode i) ∧ (encode i).length = opcodeStride (instrOpcode i)

theorem quit (a b : Reg) : Statement (.quit a b) := ⟨rfl, rfl⟩

theorem wr (d : Reg) (v : Word) : Statement (.wr d v) := ⟨rfl, rfl⟩

theorem alloc (sizeSrc handleDst ptrDst lenDst : Reg) : Statement (.alloc sizeSrc handleDst ptrDst lenDst) := ⟨rfl, rfl⟩

theorem dealloc (handleSrc : Reg) : Statement (.dealloc handleSrc) := ⟨rfl, rfl⟩

theorem b2r (addrSrc byteCount dst : Reg) : Statement (.b2r addrSrc byteCount dst) := ⟨rfl, rfl⟩

theorem r2r (src dst : Reg) : Statement (.r2r src dst) := ⟨rfl, rfl⟩

theorem r2b (src byteCount addrDst : Reg) : Statement (.r2b src byteCount addrDst) := ⟨rfl, rfl⟩

theorem op (flags : Reg) (m : BitVec 6) (sel : Byte) (a b dst : Reg) : Statement (.op flags m sel a b dst) := ⟨rfl, rfl⟩

theorem opIf (flags : Reg) (n : BitVec 5) (sel : Byte) (a b dst : Reg) : Statement (.opIf flags n sel a b dst) := ⟨rfl, rfl⟩

theorem opInd (flags : Reg) (m : BitVec 7) (selReg a b dst : Reg) : Statement (.opInd flags m selReg a b dst) := ⟨rfl, rfl⟩

theorem opIfInd (flags : Reg) (n : BitVec 5) (selReg a b dst : Reg) : Statement (.opIfInd flags n selReg a b dst) := ⟨rfl, rfl⟩

theorem opShr (flags : Reg) (m : BitVec 6) (a b dst : Reg) : Statement (.opShr flags m a b dst) := ⟨rfl, rfl⟩

theorem opShrIf (flags : Reg) (n : BitVec 5) (a b dst : Reg) : Statement (.opShrIf flags n a b dst) := ⟨rfl, rfl⟩

theorem opShl (flags : Reg) (m : BitVec 6) (a b dst : Reg) : Statement (.opShl flags m a b dst) := ⟨rfl, rfl⟩

theorem opShlIf (flags : Reg) (n : BitVec 5) (a b dst : Reg) : Statement (.opShlIf flags n a b dst) := ⟨rfl, rfl⟩

theorem opNot (flags : Reg) (m : BitVec 6) (a b dst : Reg) : Statement (.opNot flags m a b dst) := ⟨rfl, rfl⟩

theorem opNotIf (flags : Reg) (n : BitVec 5) (a b dst : Reg) : Statement (.opNotIf flags n a b dst) := ⟨rfl, rfl⟩

theorem opAnd (flags : Reg) (m : BitVec 6) (a b dst : Reg) : Statement (.opAnd flags m a b dst) := ⟨rfl, rfl⟩

theorem opAndIf (flags : Reg) (n : BitVec 5) (a b dst : Reg) : Statement (.opAndIf flags n a b dst) := ⟨rfl, rfl⟩

theorem opOr (flags : Reg) (m : BitVec 6) (a b dst : Reg) : Statement (.opOr flags m a b dst) := ⟨rfl, rfl⟩

theorem opOrIf (flags : Reg) (n : BitVec 5) (a b dst : Reg) : Statement (.opOrIf flags n a b dst) := ⟨rfl, rfl⟩

theorem opXor (flags : Reg) (m : BitVec 6) (a b dst : Reg) : Statement (.opXor flags m a b dst) := ⟨rfl, rfl⟩

theorem opXorIf (flags : Reg) (n : BitVec 5) (a b dst : Reg) : Statement (.opXorIf flags n a b dst) := ⟨rfl, rfl⟩

theorem opAdd (flags : Reg) (m : BitVec 6) (a b dst : Reg) : Statement (.opAdd flags m a b dst) := ⟨rfl, rfl⟩

theorem opAddIf (flags : Reg) (n : BitVec 5) (a b dst : Reg) : Statement (.opAddIf flags n a b dst) := ⟨rfl, rfl⟩

theorem opSub (flags : Reg) (m : BitVec 6) (a b dst : Reg) : Statement (.opSub flags m a b dst) := ⟨rfl, rfl⟩

theorem opSubIf (flags : Reg) (n : BitVec 5) (a b dst : Reg) : Statement (.opSubIf flags n a b dst) := ⟨rfl, rfl⟩

theorem opMul (flags : Reg) (m : BitVec 6) (a b dst : Reg) : Statement (.opMul flags m a b dst) := ⟨rfl, rfl⟩

theorem opMulIf (flags : Reg) (n : BitVec 5) (a b dst : Reg) : Statement (.opMulIf flags n a b dst) := ⟨rfl, rfl⟩

theorem opDiv (flags : Reg) (m : BitVec 6) (a b dst : Reg) : Statement (.opDiv flags m a b dst) := ⟨rfl, rfl⟩

theorem opDivIf (flags : Reg) (n : BitVec 5) (a b dst : Reg) : Statement (.opDivIf flags n a b dst) := ⟨rfl, rfl⟩

theorem opMod (flags : Reg) (m : BitVec 6) (a b dst : Reg) : Statement (.opMod flags m a b dst) := ⟨rfl, rfl⟩

theorem opModIf (flags : Reg) (n : BitVec 5) (a b dst : Reg) : Statement (.opModIf flags n a b dst) := ⟨rfl, rfl⟩

theorem opLt (flags : Reg) (m : BitVec 6) (a b dst : Reg) : Statement (.opLt flags m a b dst) := ⟨rfl, rfl⟩

theorem opLtIf (flags : Reg) (n : BitVec 5) (a b dst : Reg) : Statement (.opLtIf flags n a b dst) := ⟨rfl, rfl⟩

theorem opLe (flags : Reg) (m : BitVec 6) (a b dst : Reg) : Statement (.opLe flags m a b dst) := ⟨rfl, rfl⟩

theorem opLeIf (flags : Reg) (n : BitVec 5) (a b dst : Reg) : Statement (.opLeIf flags n a b dst) := ⟨rfl, rfl⟩

theorem opGt (flags : Reg) (m : BitVec 6) (a b dst : Reg) : Statement (.opGt flags m a b dst) := ⟨rfl, rfl⟩

theorem opGtIf (flags : Reg) (n : BitVec 5) (a b dst : Reg) : Statement (.opGtIf flags n a b dst) := ⟨rfl, rfl⟩

theorem opGe (flags : Reg) (m : BitVec 6) (a b dst : Reg) : Statement (.opGe flags m a b dst) := ⟨rfl, rfl⟩

theorem opGeIf (flags : Reg) (n : BitVec 5) (a b dst : Reg) : Statement (.opGeIf flags n a b dst) := ⟨rfl, rfl⟩

theorem sys (number : Byte) (arg0 arg1 arg2 arg3 arg4 arg5 ret : Reg) : Statement (.sys number arg0 arg1 arg2 arg3 arg4 arg5 ret) := ⟨rfl, rfl⟩

theorem sysRead (arg0 arg1 arg2 arg3 arg4 arg5 ret : Reg) : Statement (.sysRead arg0 arg1 arg2 arg3 arg4 arg5 ret) := ⟨rfl, rfl⟩

theorem sysWrite (arg0 arg1 arg2 arg3 arg4 arg5 ret : Reg) : Statement (.sysWrite arg0 arg1 arg2 arg3 arg4 arg5 ret) := ⟨rfl, rfl⟩

theorem sysOpen (arg0 arg1 arg2 arg3 arg4 arg5 ret : Reg) : Statement (.sysOpen arg0 arg1 arg2 arg3 arg4 arg5 ret) := ⟨rfl, rfl⟩

theorem sysClose (arg0 arg1 arg2 arg3 arg4 arg5 ret : Reg) : Statement (.sysClose arg0 arg1 arg2 arg3 arg4 arg5 ret) := ⟨rfl, rfl⟩

theorem sysStat (arg0 arg1 arg2 arg3 arg4 arg5 ret : Reg) : Statement (.sysStat arg0 arg1 arg2 arg3 arg4 arg5 ret) := ⟨rfl, rfl⟩

theorem sysFstat (arg0 arg1 arg2 arg3 arg4 arg5 ret : Reg) : Statement (.sysFstat arg0 arg1 arg2 arg3 arg4 arg5 ret) := ⟨rfl, rfl⟩

end Sys2Proof.Laws.EncodingShape
end

