-- ==== Sys2Proof/Tests/Slice0.lean ====
section
/-! SUPPORT. Tests. Every expected value is the spec's own: `95_test_vectors.md` (part and row in the comment) or the rule
named there. After them, for each obligation with hypotheses, concrete states and operands that meet them (`test_witness_…`). -/

namespace Sys2Proof.Tests

open Sys2Proof.Machine

set_option Elab.async false

/-! ## Well-formedness: each check refuses an ill-formed term -/

/-- R176: selector byte 6 is `add`, which has its own constructor. -/
theorem test_wf_refuses_op : wellFormed (.op 0 0 6 13 14 15) = false := by decide

/-- R176: selector byte 14 is `ge`, the last recognised one. -/
theorem test_wf_refuses_opIf : wellFormed (.opIf 0 0 14 13 14 15) = false := by decide

/-- R211: Number 5 is `fstat`, the last recognised one. -/
theorem test_wf_refuses_sys : wellFormed (.sys 5 0 0 0 0 0 0 20) = false := by decide

theorem test_wf_accepts :
    wellFormed (.op 0 0 15 13 14 15) ∧ wellFormed (.opIf 16 3 200 13 14 15) ∧ wellFormed (.sys 6 0 0 0 0 0 0 20) := by decide

/-! ## Decoding: the bytes are those of the formats R86 to R94 -/

/-- Part 2, sections 2.1 to 2.4. -/
theorem test_decode_plain :
    decode [0x00, 0x00, 0x14, 0x15] = .ok (.quit 20 21) [] ∧
    decode [0x01, 0x00, 0x18, 0x88, 0x77, 0x66, 0x55, 0x44, 0x33, 0x22, 0x11] = .ok (.wr 24 0x1122334455667788) [] ∧
    decode [0x02, 0x00, 0x14, 0x15, 0x16, 0x17] = .ok (.alloc 20 21 22 23) [] ∧
    decode [0x03, 0x00, 0x15] = .ok (.dealloc 21) [] ∧
    decode [0x04, 0x00, 0x14, 0x15, 0x16] = .ok (.b2r 20 21 22) [] ∧
    decode [0x05, 0x00, 0x0D, 0x14] = .ok (.r2r 13 20) [] ∧
    decode [0x06, 0x00, 0x16, 0x15, 0x14] = .ok (.r2b 22 21 20) [] := by decide

/-- Section 2.5: the four Mode classes, at both ends of each. -/
theorem test_decode_modes :
    decode [0x07, 0x00, 0x10, 0x00, 0x0F, 0x0D, 0x0E, 0x0F] = .ok (.opIf 16 0 15 13 14 15) [] ∧
    decode [0x07, 0x00, 0x10, 0x1F, 0xC8, 0x0D, 0x0E, 0x0F] = .ok (.opIf 16 31 200 13 14 15) [] ∧
    decode [0x07, 0x00, 0x10, 0x20, 0x11, 0x0D, 0x0E, 0x0F] = .ok (.opIfInd 16 0 17 13 14 15) [] ∧
    decode [0x07, 0x00, 0x10, 0x3F, 0x11, 0x0D, 0x0E, 0x0F] = .ok (.opIfInd 16 31 17 13 14 15) [] ∧
    decode [0x07, 0x00, 0x00, 0x40, 0x0F, 0x0D, 0x0E, 0x0F] = .ok (.op 0 0 15 13 14 15) [] ∧
    decode [0x07, 0x00, 0x10, 0x7F, 0xFF, 0x0D, 0x0E, 0x0F] = .ok (.op 16 63 255 13 14 15) [] ∧
    decode [0x07, 0x00, 0x00, 0x80, 0x11, 0x0D, 0x0E, 0x0F] = .ok (.opInd 0 0 17 13 14 15) [] ∧
    decode [0x07, 0x00, 0x00, 0xFF, 0x11, 0x0D, 0x0E, 0x0F] = .ok (.opInd 0 127 17 13 14 15) [] := by decide

/-- R176, R96: the fifteen direct forms that always execute, Mode 64. -/
theorem test_decode_alu :
    decode [0x07, 0x00, 0x00, 0x40, 0x00, 0x0D, 0x0E, 0x0F] = .ok (.opShr 0 0 13 14 15) [] ∧
    decode [0x07, 0x00, 0x00, 0x40, 0x01, 0x0D, 0x0E, 0x0F] = .ok (.opShl 0 0 13 14 15) [] ∧
    decode [0x07, 0x00, 0x00, 0x40, 0x02, 0x0D, 0x0E, 0x0F] = .ok (.opNot 0 0 13 14 15) [] ∧
    decode [0x07, 0x00, 0x00, 0x40, 0x03, 0x0D, 0x0E, 0x0F] = .ok (.opAnd 0 0 13 14 15) [] ∧
    decode [0x07, 0x00, 0x00, 0x40, 0x04, 0x0D, 0x0E, 0x0F] = .ok (.opOr 0 0 13 14 15) [] ∧
    decode [0x07, 0x00, 0x00, 0x40, 0x05, 0x0D, 0x0E, 0x0F] = .ok (.opXor 0 0 13 14 15) [] ∧
    decode [0x07, 0x00, 0x00, 0x40, 0x06, 0x0D, 0x0E, 0x0F] = .ok (.opAdd 0 0 13 14 15) [] ∧
    decode [0x07, 0x00, 0x00, 0x40, 0x07, 0x0D, 0x0E, 0x0F] = .ok (.opSub 0 0 13 14 15) [] ∧
    decode [0x07, 0x00, 0x10, 0x7F, 0x08, 0x0D, 0x0E, 0x0F] = .ok (.opMul 16 63 13 14 15) [] ∧
    decode [0x07, 0x00, 0x00, 0x40, 0x09, 0x0D, 0x0E, 0x0F] = .ok (.opDiv 0 0 13 14 15) [] ∧
    decode [0x07, 0x00, 0x00, 0x40, 0x0A, 0x0D, 0x0E, 0x0F] = .ok (.opMod 0 0 13 14 15) [] ∧
    decode [0x07, 0x00, 0x00, 0x40, 0x0B, 0x0D, 0x0E, 0x0F] = .ok (.opLt 0 0 13 14 15) [] ∧
    decode [0x07, 0x00, 0x00, 0x40, 0x0C, 0x0D, 0x0E, 0x0F] = .ok (.opLe 0 0 13 14 15) [] ∧
    decode [0x07, 0x00, 0x00, 0x40, 0x0D, 0x0E, 0x10, 0x12] = .ok (.opGt 0 0 14 16 18) [] ∧
    decode [0x07, 0x00, 0x00, 0x40, 0x0E, 0x0D, 0x0E, 0x0F] = .ok (.opGe 0 0 13 14 15) [] := by decide

/-- R176, R96: the fifteen direct forms gated by a bit, Mode 0 to 31. -/
theorem test_decode_alu_if :
    decode [0x07, 0x00, 0x19, 0x00, 0x00, 0x0D, 0x0E, 0x0F] = .ok (.opShrIf 25 0 13 14 15) [] ∧
    decode [0x07, 0x00, 0x19, 0x01, 0x01, 0x0D, 0x0E, 0x0F] = .ok (.opShlIf 25 1 13 14 15) [] ∧
    decode [0x07, 0x00, 0x19, 0x02, 0x02, 0x0D, 0x0E, 0x0F] = .ok (.opNotIf 25 2 13 14 15) [] ∧
    decode [0x07, 0x00, 0x19, 0x03, 0x03, 0x0D, 0x0E, 0x0F] = .ok (.opAndIf 25 3 13 14 15) [] ∧
    decode [0x07, 0x00, 0x19, 0x04, 0x04, 0x0D, 0x0E, 0x0F] = .ok (.opOrIf 25 4 13 14 15) [] ∧
    decode [0x07, 0x00, 0x19, 0x01, 0x05, 0x18, 0x18, 0x18] = .ok (.opXorIf 25 1 24 24 24) [] ∧
    decode [0x07, 0x00, 0x10, 0x1F, 0x06, 0x0D, 0x0E, 0x0F] = .ok (.opAddIf 16 31 13 14 15) [] ∧
    decode [0x07, 0x00, 0x19, 0x00, 0x07, 0x18, 0x14, 0x18] = .ok (.opSubIf 25 0 24 20 24) [] ∧
    decode [0x07, 0x00, 0x19, 0x08, 0x08, 0x0D, 0x0E, 0x0F] = .ok (.opMulIf 25 8 13 14 15) [] ∧
    decode [0x07, 0x00, 0x19, 0x09, 0x09, 0x0D, 0x0E, 0x0F] = .ok (.opDivIf 25 9 13 14 15) [] ∧
    decode [0x07, 0x00, 0x19, 0x0A, 0x0A, 0x0D, 0x0E, 0x0F] = .ok (.opModIf 25 10 13 14 15) [] ∧
    decode [0x07, 0x00, 0x19, 0x0B, 0x0B, 0x0D, 0x0E, 0x0F] = .ok (.opLtIf 25 11 13 14 15) [] ∧
    decode [0x07, 0x00, 0x19, 0x0C, 0x0C, 0x0D, 0x0E, 0x0F] = .ok (.opLeIf 25 12 13 14 15) [] ∧
    decode [0x07, 0x00, 0x19, 0x0D, 0x0D, 0x0D, 0x0E, 0x0F] = .ok (.opGtIf 25 13 13 14 15) [] ∧
    decode [0x07, 0x00, 0x19, 0x1F, 0x0E, 0x0D, 0x0E, 0x0F] = .ok (.opGeIf 25 31 13 14 15) [] := by decide

/-- Section 2.7 and R94, R211. -/
theorem test_decode_sys :
    decode [0x08, 0x00, 0x00, 0x14, 0x15, 0x16, 0x00, 0x00, 0x00, 0x17] = .ok (.sysRead 20 21 22 0 0 0 23) [] ∧
    decode [0x08, 0x00, 0x01, 0x14, 0x15, 0x16, 0x00, 0x00, 0x00, 0x17] = .ok (.sysWrite 20 21 22 0 0 0 23) [] ∧
    decode [0x08, 0x00, 0x02, 0x14, 0x15, 0x16, 0x01, 0x02, 0x03, 0x17] = .ok (.sysOpen 20 21 22 1 2 3 23) [] ∧
    decode [0x08, 0x00, 0x03, 0x14, 0x00, 0x00, 0x00, 0x00, 0x00, 0x17] = .ok (.sysClose 20 0 0 0 0 0 23) [] ∧
    decode [0x08, 0x00, 0x04, 0x14, 0x1E, 0x1F, 0x00, 0x00, 0x00, 0x17] = .ok (.sysStat 20 30 31 0 0 0 23) [] ∧
    decode [0x08, 0x00, 0x05, 0x14, 0x1E, 0x1F, 0x00, 0x00, 0x00, 0x17] = .ok (.sysFstat 20 30 31 0 0 0 23) [] ∧
    decode [0x08, 0x00, 0x06, 0x00, 0x00, 0x00, 0x00, 0x00, 0x00, 0x14] = .ok (.sys 6 0 0 0 0 0 0 20) [] ∧
    decode [0x08, 0x00, 0xFF, 0x00, 0x00, 0x00, 0x00, 0x00, 0x00, 0x14] = .ok (.sys 255 0 0 0 0 0 0 20) [] := by decide

/-- Section 2.1 (IDs 9, 0x0101, 0xFFFF) and R84; bytes that end too early. -/
theorem test_decode_refuses :
    decode [0x09, 0x00, 0x01, 0x02] = .error (.unrecognisedOpcode 9) ∧
    decode [0x01, 0x01, 0x01, 0x02] = .error (.unrecognisedOpcode 0x101) ∧
    decode [0xFF, 0xFF] = .error (.unrecognisedOpcode 0xFFFF) ∧
    decode [0x03, 0x00] = .error .truncated ∧ decode [0x03] = .error .truncated := by decide

/-- R82: the decoder takes the stride's bytes and leaves the others (the two instructions of program P3 from offset 101). -/
theorem test_decode_leaves_the_rest :
    decode [0x03, 0x00, 0x15, 0x03, 0x00, 0x15] = .ok (.dealloc 21) [0x03, 0x00, 0x15] := by decide

/-- The words of the table: `quit` with `match` 0, and `op.add` with Mode 64. -/
theorem test_table_words :
    decodeTableWord 32 0 = some (.quit 0 0) ∧ decodeTableWord 40 0x0640000007 = some (.opAdd 0 0 0 0 0) ∧
    decodeTableWord 16 9 = none := by decide

/-- R86 to R94: the encoder writes the same bytes. -/
theorem test_encode :
    encode (.wr 13 42) = [0x01, 0x00, 0x0D, 0x2A, 0, 0, 0, 0, 0, 0, 0] ∧
    encode (.opSubIf 25 0 24 20 24) = [0x07, 0x00, 0x19, 0x00, 0x07, 0x18, 0x14, 0x18] ∧
    encode (.sysFstat 20 30 31 0 0 0 23) = [0x08, 0x00, 0x05, 0x14, 0x1E, 0x1F, 0, 0, 0, 0x17] := by decide

/-! ## States for the tests: the common start of part 2 -/

/-- The data of section 2.4, at 0x5000. -/
def hello : List Byte := [0x48, 0x65, 0x6C, 0x6C, 0x6F, 0x20, 0x77, 0x6F, 0x72]

/-- Running, r0 = 0x2000, r12 = 50, the given bytes at 0x2000, `hello` at 0x5000, the given registers and host answers. -/
def start (bytes : List Byte) (rs : List (Reg × Word)) (as : List HostAnswer := []) : State :=
  rs.foldl (fun s p => s.setReg p.1 p.2)
    (({ State.reset with
        regions := [⟨0x2000, 16, .host, 0⟩, ⟨0x5000, 9, .host, 0⟩]
        mem := Memory.writeBytes (Memory.writeBytes [] 0x5000 hello) 0x2000 bytes
        hostAnswers := as }.setReg ipReg 0x2000).setReg errSelReg 50)

/-- Whether the step answers a next state of which `p` holds. -/
def goes (s : State) (p : State → Bool) : Bool :=
  match step s with
  | .next t => p t
  | .fault _ => false
  | .refused _ => false

/-- Whether the step stops for the given reason. -/
def stops (s : State) (f : Fault) : Bool :=
  match step s with
  | .next _ => false
  | .fault g => g == f
  | .refused _ => false

/-- A host answer. -/
def ans (reserve : Option Word) (ret : Word) (size mode : Word := 0) (bytes : Nat := 0) : HostAnswer :=
  ⟨reserve, ret, size, mode, bytes⟩

/-- The bytes from an address on. -/
def bytesAt (s : State) (a : Word) (n : Nat) : Option (List Byte) := s.loadBytes a n

/-! ## Section 2.1 -/

theorem test_quit : goes (start [0x00, 0x00, 0x14, 0x15] [(20, 0x1000), (21, 12)]) (fun t =>
    t.runState == .halted && t.output == { data := 0x1000, length := 12 } && t.fatalCode == .noError
      && t.reg 0 == 0x2000 && t.reg 1 == 0 && t.reg 2 == 20 && t.reg 3 == 21 && t.reg 4 == 0) = true := by decide +kernel

/-- `quit r2, r3` returns its own parameters. -/
theorem test_quit_own_parameters : goes (start [0x00, 0x00, 0x02, 0x03] []) (fun t =>
    t.output == { data := 2, length := 3 }) = true := by decide +kernel

theorem test_unrecognised_opcode : goes (start [0x01, 0x01, 0x01, 0x02] [(5, 77)]) (fun t =>
    t.runState == .faulted && t.hostResult == some (nullBuffer, 6) && t.reg 0 == 0x2000 && t.reg 1 == 0x101
      && t.reg 5 == 0) = true := by decide +kernel

/-! ## Section 2.2 -/

theorem test_wr : goes (start [0x01, 0x00, 0x0D, 0x2A, 0, 0, 0, 0, 0, 0, 0] []) (fun t =>
    t.reg 13 == 42 && t.reg 0 == 0x200B && t.reg 1 == 1 && t.reg 2 == 13 && t.reg 3 == 42) = true := by decide +kernel

theorem test_wr_jumps : goes (start [0x01, 0x00, 0x00, 0x0B, 0x20, 0, 0, 0, 0, 0, 0] []) (fun t =>
    t.reg 0 == 0x2016) = true := by decide +kernel

/-- `r2r r3, r20` reads its own Dst field. -/
theorem test_r2r_own_field : goes (start [0x05, 0x00, 0x03, 0x14] []) (fun t =>
    t.reg 20 == 0x14 && t.reg 0 == 0x2004) = true := by decide +kernel

theorem test_r2r_jumps : goes (start [0x05, 0x00, 0x14, 0x00] [(20, 0x2004)]) (fun t => t.reg 0 == 0x2008) = true := by
  decide +kernel

/-! ## Section 2.3 -/

theorem test_alloc : goes (start [0x02, 0x00, 0x14, 0x15, 0x16, 0x17] [(20, 64)] [ans (some 0x7000) 0]) (fun t =>
    t.reg 21 == 0 && t.reg 22 == 0x7000 && t.reg 23 == 64 && t.slot 0 == { length := 64, data := 0x7000 }
      && t.isMapped 0x703F && !t.isMapped 0x7040 && t.reg 50 == 0 && t.reg 0 == 0x2006) = true := by decide +kernel

theorem test_alloc_refused : goes (start [0x02, 0x00, 0x14, 0x15, 0x16, 0x17] [(20, 64)] [ans none 0]) (fun t =>
    t.reg 21 == 256 && t.reg 22 == 0 && t.reg 23 == 0 && t.reg 50 == 2 && t.slot 0 == nullBuffer) = true := by
  decide +kernel

/-- A state in which slot 0 holds a region of 64 bytes at 0x7000. -/
def live (bytes : List Byte) (rs : List (Reg × Word)) : State :=
  ((start bytes rs).setSlot 0 { length := 64, data := 0x7000 }).setRegions
    [⟨0x7000, 64, .allocation 0, 1⟩, ⟨0x2000, 16, .host, 0⟩, ⟨0x5000, 9, .host, 0⟩]

theorem test_dealloc : goes (live [0x03, 0x00, 0x15] [(21, 0)]) (fun t =>
    t.slot 0 == nullBuffer && !t.isMapped 0x7000 && t.isMapped 0x2000 && t.reg 50 == 0 && t.reg 0 == 0x2003) = true := by
  decide +kernel

theorem test_dealloc_of_a_free_slot : goes (start [0x03, 0x00, 0x15] [(21, 5)]) (fun t => t.reg 50 == 3) = true := by
  decide +kernel

/-! ## Section 2.4 -/

theorem test_b2r : goes (start [0x04, 0x00, 0x14, 0x15, 0x16] [(20, 0x5001), (21, 4)]) (fun t =>
    t.reg 22 == 0x6F6C6C65 && t.reg 0 == 0x2005) = true := by decide +kernel

/-- The error code lands in Dst where ERRSEL names it. -/
theorem test_b2r_oversized : goes (start [0x04, 0x00, 0x14, 0x15, 0x16] [(20, 0x5000), (21, 9), (22, 0x77), (12, 22)])
    (fun t => t.reg 22 == 5) = true := by decide +kernel

theorem test_r2b : goes (start [0x06, 0x00, 0x16, 0x15, 0x14] [(22, 0x1122334455667788), (21, 2), (20, 0x5000)]) (fun t =>
    bytesAt t 0x5000 4 == some [0x88, 0x77, 0x6C, 0x6C] && t.reg 0 == 0x2005) = true := by decide +kernel

theorem test_r2b_all_bytes : goes (start [0x06, 0x00, 0x16, 0x15, 0x14] [(22, 0x1122334455667788), (21, 8), (20, 0x5000)])
    (fun t => bytesAt t 0x5000 9 == some [0x88, 0x77, 0x66, 0x55, 0x44, 0x33, 0x22, 0x11, 0x72]) = true := by decide +kernel

/-! ## Section 2.5 -/

/-- Bad selector behind a passing gate. -/
theorem test_opIf_faults : goes (start [0x07, 0x00, 0x10, 0x03, 0xC8, 0x0D, 0x0E, 0x0F] [(16, 0x08)]) (fun t =>
    t.runState == .faulted && t.fatalCode == .unimplementedAluOp && t.reg 0 == 0x2000) = true := by decide +kernel

/-- Bad selector behind a failing gate. -/
theorem test_opIf_gate_fails : goes (start [0x07, 0x00, 0x10, 0x03, 0xC8, 0x0D, 0x0E, 0x0F] [(16, 0xF7)]) (fun t =>
    t.runState == .running && t.reg 0 == 0x2008) = true := by decide +kernel

theorem test_op_faults : goes (start [0x07, 0x00, 0x00, 0x40, 0x0F, 0x0D, 0x0E, 0x0F] []) (fun t =>
    t.fatalCode == .unimplementedAluOp) = true := by decide +kernel

theorem test_opInd : goes (start [0x07, 0x00, 0x00, 0xFF, 0x11, 0x0D, 0x0E, 0x0F] [(13, 3), (14, 5), (17, 7)]) (fun t =>
    t.reg 15 == 0xFFFFFFFFFFFFFFFE) = true := by decide +kernel

/-- All 64 bits of the selector are compared. -/
theorem test_opInd_compares_64_bits : goes (start [0x07, 0x00, 0x00, 0x80, 0x11, 0x0D, 0x0E, 0x0F] [(17, 0x100000006)])
    (fun t => t.fatalCode == .unimplementedAluOp) = true := by decide +kernel

theorem test_opIfInd : goes (start [0x07, 0x00, 0x10, 0x3F, 0x11, 0x0D, 0x0E, 0x0F]
    [(13, 3), (14, 5), (16, 0x80000000), (17, 8)]) (fun t => t.reg 15 == 15) = true := by decide +kernel

/-- Bits above 31 do not gate. -/
theorem test_opAddIf_gate : goes (start [0x07, 0x00, 0x10, 0x1F, 0x06, 0x0D, 0x0E, 0x0F]
    [(13, 3), (14, 5), (16, 0x100000000), (15, 1)]) (fun t => t.reg 15 == 1 && t.reg 0 == 0x2008) = true := by decide +kernel

/-- The relative jump `add r0, r17, r0`. -/
theorem test_opAdd_jumps : goes (start [0x07, 0x00, 0x00, 0x40, 0x06, 0x00, 0x11, 0x00] [(17, 16)]) (fun t =>
    t.reg 0 == 0x2018) = true := by decide +kernel

/-! ## Section 2.6 -/

/-- Operate with selector `sel` on `a` and `b`, always and gated by bit 0 of a register that holds 1: the word in Dst. -/
def alu (sel : Byte) (a b r : Word) : Bool :=
  goes (start [0x07, 0x00, 0x00, 0x40, sel, 0x0D, 0x0E, 0x0F] [(13, a), (14, b)]) (fun t => t.reg 15 == r)
    && goes (start [0x07, 0x00, 0x10, 0x00, sel, 0x0D, 0x0E, 0x0F] [(13, a), (14, b), (16, 1)]) (fun t => t.reg 15 == r)

theorem test_shr : alu 0 0x8000000000000000 63 1 = true ∧ alu 0 0x1234 0 0x1234 = true := by decide +kernel
theorem test_shl : alu 1 1 63 0x8000000000000000 = true ∧ alu 1 0xFFFFFFFFFFFFFFFF 4 0xFFFFFFFFFFFFFFF0 = true := by
  decide +kernel
theorem test_not : alu 2 1 0 0xFFFFFFFFFFFFFFFE = true := by decide +kernel
theorem test_and : alu 3 0xFF00 0x0FF0 0x0F00 = true := by decide +kernel
theorem test_or : alu 4 0xFF00 0x0FF0 0xFFF0 = true := by decide +kernel
theorem test_xor : alu 5 0xFF00 0x0FF0 0xF0F0 = true := by decide +kernel
theorem test_add : alu 6 0xFFFFFFFFFFFFFFFF 1 0 = true := by decide +kernel
theorem test_sub : alu 7 3 5 0xFFFFFFFFFFFFFFFE = true := by decide +kernel
theorem test_mul : alu 8 0xFFFFFFFFFFFFFFFF 2 0xFFFFFFFFFFFFFFFE = true := by decide +kernel
theorem test_div : alu 9 0xFFFFFFFFFFFFFFFF 2 0x7FFFFFFFFFFFFFFF = true := by decide +kernel
theorem test_mod : alu 10 0xFFFFFFFFFFFFFFFF 10 5 = true := by decide +kernel
theorem test_lt : alu 11 3 5 1 = true ∧ alu 11 0xFFFFFFFFFFFFFFFF 0 0 = true := by decide +kernel
theorem test_le : alu 12 5 5 1 = true ∧ alu 12 6 5 0 = true := by decide +kernel
theorem test_gt : alu 13 0xFFFFFFFFFFFFFFFF 0 1 = true ∧ alu 13 5 5 0 = true := by decide +kernel
theorem test_ge : alu 14 5 5 1 = true ∧ alu 14 4 5 0 = true := by decide +kernel

/-- Division by zero leaves Dst and goes on. -/
theorem test_div_by_zero : goes (start [0x07, 0x00, 0x00, 0x40, 0x09, 0x0D, 0x0E, 0x0F] [(13, 7), (15, 0xAA)]) (fun t =>
    t.reg 15 == 0xAA && t.reg 50 == 9 && t.reg 0 == 0x2008) = true := by decide +kernel

/-- The soft error as a jump: ERRSEL 0. -/
theorem test_mod_by_zero_jumps : goes (start [0x07, 0x00, 0x00, 0x40, 0x0A, 0x0D, 0x0E, 0x0F] [(13, 3), (15, 1), (12, 0)])
    (fun t => t.reg 15 == 1 && t.reg 0 == 0x12) = true := by decide +kernel

/-! ## Section 2.7 -/

theorem test_sysWrite : goes (start [0x08, 0x00, 0x01, 0x14, 0x15, 0x16, 0x00, 0x00, 0x00, 0x17]
    [(20, 1), (21, 0x5000), (22, 5)] [ans none 0xFFFFFFFFFFFFFFFF]) (fun t =>
    t.reg 23 == 0xFFFFFFFFFFFFFFFF && t.reg 0 == 0x200A && t.reg 9 == 23
      && t.requests == [.write 1 0x5000 5 [0x48, 0x65, 0x6C, 0x6C, 0x6F]]) = true := by decide +kernel

theorem test_sysRead : goes (start [0x08, 0x00, 0x00, 0x14, 0x15, 0x16, 0x00, 0x00, 0x00, 0x17]
    [(21, 0x5000), (22, 4)] [ans none 2 0 0 0x4241]) (fun t =>
    t.reg 23 == 2 && bytesAt t 0x5000 4 == some [0x41, 0x42, 0x6C, 0x6C]) = true := by decide +kernel

theorem test_sysClose : goes (start [0x08, 0x00, 0x03, 0x14, 0x00, 0x00, 0x00, 0x00, 0x00, 0x17] [(20, 3), (23, 9)]
    [ans none 0]) (fun t => t.reg 23 == 0 && t.requests == [.close 3]) = true := by decide +kernel

theorem test_sysFstat : goes (start [0x08, 0x00, 0x05, 0x14, 0x1E, 0x1F, 0x00, 0x00, 0x00, 0x17] [(20, 3)]
    [ans none 0 1234 0x81A4]) (fun t => t.reg 30 == 1234 && t.reg 31 == 0x81A4 && t.reg 23 == 0) = true := by decide +kernel

theorem test_sys_unrecognised : goes (start [0x08, 0x00, 0x06, 0x00, 0x00, 0x00, 0x00, 0x00, 0x00, 0x14] []) (fun t =>
    t.hostResult == some (nullBuffer, 8) && t.reg 0 == 0x2000 && t.requests == []) = true := by decide +kernel

/-- R214, R216: the path "Hell" ends at a zero byte written over the fifth byte of the data. -/
def pathState (bytes : List Byte) (as : List HostAnswer) : State :=
  let s := start bytes [(20, 0x5000), (21, 7), (22, 8)] as
  s.setMem (Memory.write s.mem 0x5004 0)

theorem test_sysOpen : goes (pathState [0x08, 0x00, 0x02, 0x14, 0x15, 0x16, 0x00, 0x00, 0x00, 0x17] [ans none 3]) (fun t =>
    t.reg 23 == 3 && t.requests == [.openPath 0x5000 7 8 [0x48, 0x65, 0x6C, 0x6C, 0x00]]) = true := by decide +kernel

theorem test_sysStat : goes (pathState [0x08, 0x00, 0x04, 0x14, 0x1E, 0x1F, 0x00, 0x00, 0x00, 0x17] [ans none 0 1234 0x81A4])
    (fun t => t.reg 30 == 1234 && t.reg 31 == 0x81A4 && t.reg 23 == 0 && t.reg 21 == 7) = true := by decide +kernel

/-! ## Stops (`93_implementation_defined.md` U2 to U4) and terminal states -/

theorem test_stop_errSel : stops (start [0x04, 0x00, 0x14, 0x15, 0x16] [(21, 9), (12, 256)]) .errSelRange = true := by
  decide +kernel
theorem test_stop_handle : stops (start [0x03, 0x00, 0x15] [(21, 256)]) .handleRange = true := by decide +kernel
theorem test_stop_unmapped : stops (start [0x04, 0x00, 0x14, 0x15, 0x16] [(20, 0xDEAD0000), (21, 1)])
    (.unmappedAccess 0xDEAD0000 1) = true := by decide +kernel
theorem test_stop_halted : stops { State.reset with runState := .halted } .notRunning = true := by decide +kernel

/-! ## Reset (R260 to R263) -/

/-- Program P1's launch: one record {45, 0x2000} at 0x1000. -/
def launchP1 : Launch where
  blob := { length := 16, data := 0x1000 }
  mem := Memory.writeBytes [] 0x1000 [0x2D, 0, 0, 0, 0, 0, 0, 0, 0x00, 0x20, 0, 0, 0, 0, 0, 0]
  hostRegions := []
  hostAnswers := []

/-- Part 3: x[0] = 0x2000, x[10] = blob.length, x[11] = 0x1000, Running; sub-buffer 0 is mapped. -/
theorem test_initialise : goes (State.reset.hostStart launchP1) (fun t =>
    t.reg 0 == 0x2000 && t.reg 10 == 16 && t.reg 11 == 0x1000 && t.runState == .running && t.isMapped 0x202C
      && !t.isMapped 0x202D) = true := by decide +kernel

/-- The same launch with a blob of another length; the records beyond the first are not there, so nothing maps them. -/
def launchLen (n : Word) : Launch := { launchP1 with blob := { length := n, data := 0x1000 } }

/-- What HOST.result shows after the step of initialisation, for a blob of length `n`. -/
def starts (n : Word) (r : Option (Buffer × Word)) : Bool :=
  goes (State.reset.hostStart (launchLen n)) fun t => t.hostResult == r

/-- Part 1, S2: the valid lengths. -/
theorem test_valid_lengths : starts 16 none = true ∧ starts 32 none = true ∧ starts 256 none = true := by decide +kernel

/-- Part 1, S2: the malformed lengths. -/
theorem test_malformed_lengths :
    starts 0 (some (nullBuffer, 4)) = true ∧ starts 8 (some (nullBuffer, 4)) = true ∧
    starts 17 (some (nullBuffer, 4)) = true ∧ starts 24 (some (nullBuffer, 4)) = true ∧
    starts 272 (some (nullBuffer, 4)) = true ∧ starts 0xFFFFFFFFFFFFFFF0 (some (nullBuffer, 4)) = true := by decide +kernel

/-- The table's word of `wr` with zero operands, as the first instruction after reset. -/
theorem test_withFetchWord : goes (State.reset.withFetchWord 88 1) (fun t =>
    t.reg 1 == 1 && t.runState == .running && t.reg 0 == 11) = true := by decide +kernel

/-! ## Witnesses: the hypotheses of each obligation are met

The name of each says which obligation it is for. Where an obligation has clauses, there is a witness for each. -/

/-- O2: a valid blob of 16 and one of 256 bytes whose record 0 can be read, and a valid one that stands nowhere. -/
theorem test_witness_ValidBlobInitialises :
    (let s := State.reset.hostStart (launchLen 16)
     s.runState = .initializing ∧ s.blob.length ≠ 0 ∧ s.blob.length.toNat % 16 = 0 ∧ s.blob.length.toNat / 16 ≤ 16 ∧
       s.memRead (s.blob.data + config.recDataOff) 8 = some 0x2000) ∧
    (let s := State.reset.hostStart (launchLen 256)
     s.blob.length.toNat % 16 = 0 ∧ s.blob.length.toNat / 16 = 16 ∧
       s.memRead (s.blob.data + config.recDataOff) 8 = some 0x2000) ∧
    (let s := State.reset.hostStart { launchP1 with blob := { length := 16, data := 0 } }
     s.runState = .initializing ∧ s.blob.length.toNat % 16 = 0 ∧ s.blob.length ≠ 0 ∧
       ∃ k < 8, s.isMapped (s.blob.data + config.recDataOff + BitVec.ofNat 64 k).toNat = false) := by decide +kernel

/-- O3: lengths 0, 17 and 272, and the valid ones 16 and 256, which do lead to a next state. -/
theorem test_witness_MalformedBlobFaults :
    (State.reset.hostStart (launchLen 0)).runState = .initializing ∧ (State.reset.hostStart (launchLen 0)).blob.length = 0 ∧
    (State.reset.hostStart (launchLen 17)).blob.length.toNat % 16 ≠ 0 ∧
    16 < (State.reset.hostStart (launchLen 272)).blob.length.toNat / 16 ∧
    (State.reset.hostStart (launchLen 256)).blob.length.toNat / 16 = 16 ∧
    goes (State.reset.hostStart (launchLen 16)) (fun _ => true) = true ∧
    goes (State.reset.hostStart (launchLen 256)) (fun _ => true) = true := by decide +kernel

/-- O4: steps from Initializing to Running and to Faulted, from Running to Running, Halted and Faulted. -/
theorem test_witness_RunStateFollowsItsDiagram :
    goes (State.reset.hostStart (launchLen 16)) (fun t => t.runState == .running) = true ∧
    goes (State.reset.hostStart (launchLen 17)) (fun t => t.runState == .faulted) = true ∧
    goes (start [0x05, 0x00, 0x0D, 0x14] []) (fun t => t.runState == .running) = true ∧
    goes (start [0x00, 0x00, 0x0D, 0x14] []) (fun t => t.runState == .halted) = true ∧
    goes (start [0x09, 0x00] []) (fun t => t.runState == .faulted) = true := by decide +kernel

/-- O5: the bytes at r0 decode; `retire` on a Running and on a Halted state. -/
theorem test_witness_StepRunsTheDecodedInstruction :
    (let s := start [0x05, 0x00, 0x0D, 0x14] []
     s.runState = .running ∧ s.loadBytes (s.reg ipReg) 4 = some [0x05, 0x00, 0x0D, 0x14] ∧
       decode [0x05, 0x00, 0x0D, 0x14] = .ok (.r2r 13 20) []) ∧
    State.reset.runState = .running ∧ ({ State.reset with runState := .halted } : State).runState ≠ .running := by
  decide +kernel

/-- O6: ID 9, the first outside the nine. -/
theorem test_witness_UnrecognisedOpcodeFaults :
    (let s := start [0x09, 0x00, 0x01, 0x02] []
     s.runState = .running ∧ s.memRead (s.reg ipReg) 2 = some 9) ∧ ∀ o, config.opc o ≠ BitVec.ofNat 16 9 := by
  refine ⟨by decide +kernel, fun o => ?_⟩
  cases o <;> decide

/-- O7, last clause: an opcode other than WriteRegister. -/
theorem test_witness_CycleLoadsIdAndParameters : instrOpcode (.quit 20 21) ≠ .wr := by decide

/-- A state in which only the two ID bytes of a `quit` are mapped, at 0x2000. -/
def shortImage : State :=
  ({ State.reset with regions := [⟨0x2000, 2, .host, 0⟩], mem := [(0x2000, 0x00), (0x2001, 0x00)] }).setReg ipReg 0x2000

/-- O8: nothing mapped; and an ID whose parameter bytes are unmapped. -/
theorem test_witness_UnmappedFetchStops :
    (State.reset.runState = .running ∧
      ∃ k < 2, State.reset.isMapped (State.reset.reg ipReg + BitVec.ofNat 64 k).toNat = false) ∧
    shortImage.runState = .running ∧ shortImage.memRead (shortImage.reg ipReg) 2 = some (config.opc .quit).toNat ∧
    ∃ k < opcodeStride .quit - 2, shortImage.isMapped (shortImage.reg ipReg + 2 + BitVec.ofNat 64 k).toNat = false := by
  decide +kernel

/-- O10: well-formed terms, a generic one among them. -/
theorem test_witness_DecodeOfEncodeIsTheInstruction :
    WellFormed (.wr 255 0xFFFFFFFFFFFFFFFF) ∧ WellFormed (.op 255 63 255 1 2 3) ∧ WellFormed (.sys 6 0 0 0 0 0 0 0) := by
  decide

/-- O11: bytes that decode, with a rest. -/
theorem test_witness_EncodeOfDecodeIsTheBytes : decode [0x03, 0x00, 0x15, 0xAA] = .ok (.dealloc 21) [0xAA] := by decide

/-- O12: both ends of the four ranges. -/
theorem test_witness_ModeRangesSelectTheForms :
    (0 : Byte).toNat < 32 ∧ (31 : Byte).toNat < 32 ∧ (32 ≤ (32 : Byte).toNat ∧ (32 : Byte).toNat < 64) ∧
    (32 ≤ (63 : Byte).toNat ∧ (63 : Byte).toNat < 64) ∧ (64 ≤ (64 : Byte).toNat ∧ (64 : Byte).toNat < 128) ∧
    (64 ≤ (127 : Byte).toNat ∧ (127 : Byte).toNat < 128) ∧ 128 ≤ (128 : Byte).toNat ∧ 128 ≤ (255 : Byte).toNat := by decide

/-- Whether an instruction stands at r0, as a Bool. -/
def stands (s : State) (i : Instr) : Bool :=
  s.runState == .running && s.loadBytes (s.reg ipReg) (encode i).length == some (encode i)

theorem standsAt_of_stands {s : State} {i : Instr} (h : stands s i = true) : s.standsAt i := by
  simpa [stands, State.standsAt] using h

/-- O13: D = r24 and D = r0. -/
theorem test_witness_WriteRegisterWritesTheImmediate :
    (start [0x01, 0x00, 0x18, 0x88, 0x77, 0x66, 0x55, 0x44, 0x33, 0x22, 0x11] []).standsAt (.wr 24 0x1122334455667788) ∧
    (start [0x01, 0x00, 0x00, 0x0B, 0x20, 0, 0, 0, 0, 0, 0] []).standsAt (.wr 0 0x200B) :=
  ⟨standsAt_of_stands (by decide +kernel), standsAt_of_stands (by decide +kernel)⟩

/-- O14: Src in each of the ranges 0, 1, 2, 3, 4..9, 10.., and Dst = r0. -/
theorem test_witness_RegisterToRegisterCopies :
    (start [0x05, 0x00, 0x00, 0x14] []).standsAt (.r2r 0 20) ∧ (start [0x05, 0x00, 0x01, 0x14] []).standsAt (.r2r 1 20) ∧
    (start [0x05, 0x00, 0x02, 0x14] []).standsAt (.r2r 2 20) ∧ (start [0x05, 0x00, 0x03, 0x14] []).standsAt (.r2r 3 20) ∧
    (start [0x05, 0x00, 0x04, 0x14] []).standsAt (.r2r 4 20) ∧ (start [0x05, 0x00, 0x09, 0x14] []).standsAt (.r2r 9 20) ∧
    (start [0x05, 0x00, 0x0A, 0x14] []).standsAt (.r2r 10 20) ∧ (start [0x05, 0x00, 0x14, 0x00] []).standsAt (.r2r 20 0) :=
  ⟨standsAt_of_stands (by decide +kernel), standsAt_of_stands (by decide +kernel), standsAt_of_stands (by decide +kernel),
    standsAt_of_stands (by decide +kernel), standsAt_of_stands (by decide +kernel), standsAt_of_stands (by decide +kernel),
    standsAt_of_stands (by decide +kernel), standsAt_of_stands (by decide +kernel)⟩

/-- O15. -/
theorem test_witness_QuitHaltsWithItsOutput : (start [0x00, 0x00, 0x14, 0x15] []).standsAt (.quit 20 21) :=
  standsAt_of_stands (by decide +kernel)

/-- O16: slot 0 live, slot 1 free, 64 bytes granted at 0x8000; and the last 64 bytes of the address space. -/
theorem test_witness_AllocateSucceeds :
    (let s := { live [] [(20, 64)] with hostAnswers := [ans (some 0x8000) 0] }
     (s.slot 1).data = 0 ∧ (s.slot 0).data ≠ 0 ∧ s.answer.reserve = some 0x8000 ∧
       (0x8000 : Word).toNat + (s.reg 20).toNat ≤ 2 ^ 64 ∧
       ∀ r ∈ s.regions, r.meets (0x8000 : Word).toNat (s.reg 20).toNat = false) ∧
    (let s := { start [] [(20, 64)] with hostAnswers := [ans (some 0xFFFFFFFFFFFFFFC0) 0] }
     (s.slot 0).data = 0 ∧ s.answer.reserve = some 0xFFFFFFFFFFFFFFC0 ∧
       (0xFFFFFFFFFFFFFFC0 : Word).toNat + (s.reg 20).toNat = 2 ^ 64 ∧
       ∀ r ∈ s.regions, r.meets (0xFFFFFFFFFFFFFFC0 : Word).toNat (s.reg 20).toNat = false) ∧
    ∀ j < (1 : Fin 256), j = 0 := by
  refine ⟨by decide +kernel, by decide +kernel, ?_⟩
  intro j hj
  ext
  have : j.val < 1 := hj
  omega

/-- A state whose 256 slots are all live. -/
def fullTable (rs : List (Reg × Word)) : State :=
  { start [] rs with slots := Vector.replicate 256 { length := 1, data := 0x9000 } }

theorem fullTable_slot (rs : List (Reg × Word)) (j : Fin 256) : (fullTable rs).slot j = { length := 1, data := 0x9000 } := by
  simp [State.slot, fullTable]

/-- O17: a full table and a refused reservation, each with ERRSEL below 256 and, where the handle lands in r12, at 256. -/
theorem test_witness_AllocateFailsSoftly :
    ((∀ j, ((fullTable []).slot j).data ≠ 0) ∧ (50 : Reg).val = (errSelAfterAlloc 21 22 23 (fullTable [])).toNat ∧
      256 ≤ (errSelAfterAlloc 12 22 23 (fullTable [])).toNat) ∧
    (let s := start [] [(20, 64)] [ans none 0]
     (s.slot 0).data = 0 ∧ s.grant (s.reg 20) s.answer = none ∧ (50 : Reg).val = (errSelAfterAlloc 21 22 23 s).toNat ∧
       256 ≤ (errSelAfterAlloc 12 22 23 s).toNat) := by
  refine ⟨⟨fun j => ?_, by decide +kernel, by decide +kernel⟩, by decide +kernel⟩
  rw [fullTable_slot]
  decide

theorem live_slot (bytes : List Byte) (rs : List (Reg × Word)) (h : Fin 256) (hh : h ≠ 0)
    (hs : ((start bytes rs).slot h).data = 0) : ((live bytes rs).slot h).data = 0 := by
  have e : (live bytes rs).slot h = (start bytes rs).slot h := by
    simp only [State.slot, live, State.setSlot, State.setRegions]
    rw [Vector.getElem_set_ne]
    intro e
    exact hh (Fin.ext e.symm)
  rw [e, hs]

/-- A `dealloc r21` at r0, the handle 0 in r21 and slot 0 live. -/
def aboutToFree : State := live [0x03, 0x00, 0x15] [(21, 0)]

/-- It has the invariant: a live slot, its region, two regions of the host's and written bytes. -/
theorem aboutToFree_inv : aboutToFree.Inv where
  memWf := by decide +kernel
  memMapped := by decide +kernel
  slotMapped := by
    intro _ h hd
    by_cases e : h = 0
    · subst e
      exact ⟨⟨0x7000, 64, .allocation 0, 1⟩, List.mem_cons_self, rfl, by decide +kernel, by decide +kernel⟩
    · refine absurd (live_slot _ _ h e ?_) hd
      simp [State.slot, start, State.setReg, State.reset]
  regionLive := by
    intro r hr h ho
    rcases List.mem_cons.1 hr with rfl | hr
    · cases ho
      exact ⟨by decide +kernel, by decide +kernel, by decide +kernel⟩
    · rcases List.mem_cons.1 hr with rfl | hr
      · cases ho
      · rcases List.mem_cons.1 hr with rfl | hr
        · cases ho
        · cases hr
  disjoint := by
    have k : ∀ b l : Word, ∀ o n, b.toNat + l.toNat ≤ 0x7000 →
        ¬ Region.shares ⟨0x7000, 64, .allocation 0, 1⟩ ⟨b, l, o, n⟩ := by
      rintro b l o n hb ⟨a, h1, h2⟩
      simp only [Region.contains, Bool.and_eq_true, decide_eq_true_eq] at h1 h2
      have : (0x7000 : Word).toNat = 0x7000 := by decide
      omega
    refine List.Pairwise.cons (fun q hq _ => ?_) (List.Pairwise.cons (fun q hq e => ?_) (List.pairwise_singleton _ _))
    · rcases List.mem_cons.1 hq with rfl | hq
      · exact k _ _ _ _ (by decide)
      · rcases List.mem_cons.1 hq with rfl | hq
        · exact k _ _ _ _ (by decide)
        · cases hq
    · rcases List.mem_cons.1 hq with rfl | hq
      · exact absurd e (by simp)
      · cases hq
  fresh := by intro h; cases h
  outputNull := fun _ => rfl
  latch := ⟨fun _ => rfl, fun h => by cases h⟩

/-- O18. -/
theorem test_witness_DeallocateFreesItsSlot :
    aboutToFree.Inv ∧ aboutToFree.runState = .running ∧ (0 : Fin 256).val = (aboutToFree.reg 21).toNat ∧
    (aboutToFree.slot 0).data ≠ 0 :=
  ⟨aboutToFree_inv, rfl, by decide +kernel, by decide +kernel⟩

/-- O19: a free slot, the last one; and the first handle that is none. -/
theorem test_witness_DeallocateOfAFreeSlotIsSoft :
    (let s := start [] [(21, 255)]
     (255 : Fin 256).val = (s.reg 21).toNat ∧ (s.slot 255).data = 0 ∧ (s.reg errSelReg).toNat < 256) ∧
    256 ≤ ((start [] [(21, 256)]).reg 21).toNat := by decide +kernel

/-- O20, O21: counts 0 and 8, the address unmapped for count 0. -/
theorem test_witness_Transfers :
    (let s := start [] [(20, 0x5000), (21, 8)]
     (s.reg 21).toNat ≤ 8 ∧ ∀ k < (s.reg 21).toNat, s.isMapped (s.reg 20 + BitVec.ofNat 64 k).toNat = true) ∧
    (let s := start [] [(20, 0), (21, 0)]
     (s.reg 21).toNat ≤ 8 ∧ ∀ k < (s.reg 21).toNat, s.isMapped (s.reg 20 + BitVec.ofNat 64 k).toNat = true) := by
  decide +kernel

/-- O22: count 9. -/
theorem test_witness_OversizedTransferIsSoft :
    (let s := start [] [(21, 9)]
     8 < (s.reg 21).toNat ∧ (s.reg errSelReg).toNat < 256) := by decide +kernel

/-- O23: the ninth byte of the data is the last one, so two from there run out of the region. -/
theorem test_witness_UnmappedTransferStops :
    (let s := start [] [(20, 0x5008), (21, 2)]
     (s.reg 21).toNat ≤ 8 ∧ ∃ k < (s.reg 21).toNat, s.isMapped (s.reg 20 + BitVec.ofNat 64 k).toNat = false) := by
  decide +kernel

/-- Whether `exec` answers a next state. -/
def completes (i : Instr) (s : State) : Bool :=
  match exec i s with
  | .next _ => true
  | .fault _ => false
  | .refused _ => false

theorem exists_next_of_completes {i : Instr} {s : State} (h : completes i s = true) : ∃ t, exec i s = .next t := by
  unfold completes at h
  split at h
  · next t e => exact ⟨t, e⟩
  · cases h
  · cases h

/-- O24: an r2b of 8 bytes that completes; both transfers with count 9. -/
theorem test_witness_StoreThenLoadGivesTheValue :
    (((start [] [(20, 0x5000), (21, 8)]).reg 21).toNat ≤ 8 ∧
      ∃ u, exec (.r2b 22 21 20) (start [] [(20, 0x5000), (21, 8)]) = .next u) ∧
    8 < ((start [] [(21, 9)]).reg 21).toNat ∧ (∃ t, exec (.b2r 20 21 22) (start [] [(21, 9)]) = .next t) ∧
    (∃ t, exec (.r2b 22 21 20) (start [] [(21, 9)]) = .next t) ∧
    (22 : Reg).val ≠ ((start [] [(21, 9)]).reg errSelReg).toNat :=
  ⟨⟨by decide +kernel, exists_next_of_completes (by decide +kernel)⟩, by decide +kernel,
    exists_next_of_completes (by decide +kernel), exists_next_of_completes (by decide +kernel), by decide +kernel⟩

/-- O25 to O42: shift amounts 63 and 64; divisors 1 and 0 with ERRSEL 50; bits 0 and 31 of a flags register set, bit 1
clear. -/
theorem test_witness_Operate :
    (let s := start [] [(13, 63), (14, 64), (15, 1), (16, 0x80000001)]
     (s.reg 13).toNat < 64 ∧ 64 ≤ (s.reg 14).toNat ∧ s.reg 15 ≠ 0 ∧ s.reg 17 = 0 ∧ (s.reg errSelReg).toNat < 256 ∧
       (s.reg 16).getLsbD (0 : BitVec 5).toNat = true ∧ (s.reg 16).getLsbD (31 : BitVec 5).toNat = true ∧
       (s.reg 16).getLsbD (1 : BitVec 5).toNat = false) := by decide +kernel

/-- O40: a gated form with its bit clear, as syntax and standing at r0. -/
theorem test_witness_FailedGateIsANoOp :
    instrGate (.opIf 16 3 200 13 14 15) = some (16, 3) ∧ WellFormed (.opIf 16 3 200 13 14 15) ∧
    (start [0x07, 0x00, 0x10, 0x03, 0xC8, 0x0D, 0x0E, 0x0F] [(16, 0xF7)]).standsAt (.opIf 16 3 200 13 14 15) ∧
    (((start [0x07, 0x00, 0x10, 0x03, 0xC8, 0x0D, 0x0E, 0x0F] [(16, 0xF7)]).executing (.opIf 16 3 200 13 14 15)).reg
      16).getLsbD (3 : BitVec 5).toNat = false :=
  ⟨rfl, by decide, standsAt_of_stands (by decide +kernel), by decide +kernel⟩

/-- O41: the selector register holds 14, `ge`, which has a result; and 6, `add`, behind a passing gate. -/
theorem test_witness_IndirectSelectorPicksTheOperation :
    (let s := start [] [(17, 14), (16, 1)]
     s.reg 17 = (config.alu .ge).setWidth 64 ∧ aluResult .ge (s.reg 13) (s.reg 14) = .value 1 ∧
       (s.reg 16).getLsbD (0 : BitVec 5).toNat = true) ∧
    (start [] [(17, 6)]).reg 17 = (config.alu .add).setWidth 64 := by decide +kernel

/-- O42: selector byte 15, and a selector register of 2^32 + 6. -/
theorem test_witness_UnrecognisedSelectorFaults :
    (∀ o, config.alu o ≠ 15) ∧ ∀ o, (config.alu o).setWidth 64 ≠ (start [] [(17, 0x100000006)]).reg 17 := by
  have e : (start [] [(17, 0x100000006)]).reg 17 = 0x100000006 := by decide +kernel
  rw [e]
  constructor <;> intro o <;> cases o <;> decide

/-- O43: Number 6. -/
theorem test_witness_UnrecognisedSyscallFaults : ∀ o, config.sys o ≠ 6 := by
  intro o
  cases o <;> decide

/-- O44: a negative result; 4 bytes for a buffer of 4; 9 bytes for a buffer of 2 at the end of the region. -/
theorem test_witness_SyscallReadPlacesTheBytes :
    (start [] [] [ans none 0xFFFFFFFFFFFFFFFF]).answer.ret.msb = true ∧
    (let s := start [] [(21, 0x5000), (22, 4)] [ans none 4]
     s.answer.ret.msb = false ∧ ∀ j < min s.answer.ret.toNat (s.reg 22).toNat,
       s.isMapped (s.reg 21 + BitVec.ofNat 64 j).toNat = true) ∧
    (let s := start [] [(21, 0x5008), (22, 2)] [ans none 9]
     s.answer.ret.msb = false ∧ ∃ j < min s.answer.ret.toNat (s.reg 22).toNat,
       s.isMapped (s.reg 21 + BitVec.ofNat 64 j).toNat = false) := by decide +kernel

/-- O45: the five bytes of "Hello"; and a buffer that runs out of the region. -/
theorem test_witness_SyscallWriteSendsTheBuffer :
    (let s := start [] [(21, 0x5000), (22, 5)]
     (hello.take 5).length = (s.reg 22).toNat ∧
       ∀ k (h : k < (hello.take 5).length), s.byteAt (s.reg 21 + BitVec.ofNat 64 k).toNat = some (hello.take 5)[k]) ∧
    (let s := start [] [(21, 0x5008), (22, 2)]
     ∃ k < (s.reg 22).toNat, s.isMapped (s.reg 21 + BitVec.ofNat 64 k).toNat = false) := by decide +kernel

/-- O46: the path "Hell"; and one whose first byte is the last of the region. -/
theorem test_witness_SyscallOpenAndStatReadThePath :
    ([0x48, 0x65, 0x6C, 0x6C] : List Byte).length < 2 ^ 64 ∧ (∀ b ∈ ([0x48, 0x65, 0x6C, 0x6C] : List Byte), b ≠ 0) ∧
    (pathState [] []).loadBytes ((pathState [] []).reg 20) 5 = some [0x48, 0x65, 0x6C, 0x6C, 0x00] ∧
    (start [] [(20, 0x5008)]).pathMeetsUnmapped ((start [] [(20, 0x5008)]).reg 20) := by
  refine ⟨by decide, by decide, by decide +kernel, 1, by decide, fun j hj => ⟨0x72, ?_, by decide⟩, by decide +kernel⟩
  obtain rfl : j = 0 := by omega
  decide +kernel

/-- O48: ERRSEL 256, a free slot, count 9, divisor 0, the bit 31 set, selector registers with `div` and with `mod`. -/
theorem test_witness_SoftErrorNeedsAnErrorRegister :
    (let s := start [] [(12, 256), (20, 255), (21, 9), (16, 0x80000000), (17, 9), (18, 10)]
     256 ≤ (s.reg errSelReg).toNat ∧ (255 : Fin 256).val = (s.reg 20).toNat ∧ (s.slot 255).data = 0 ∧
       8 < (s.reg 21).toNat ∧ s.reg 22 = 0 ∧ (s.reg 16).getLsbD (31 : BitVec 5).toNat = true ∧
       s.reg 17 = (config.alu .div).setWidth 64 ∧ s.reg 18 = (config.alu .mod).setWidth 64) := by decide +kernel

/-- O49: an allocation that succeeds, and a table of 256 live slots. -/
theorem test_witness_AllocateThenDeallocateRestoresTheCount :
    (∃ t, (start [] [] [ans (some 0x7000) 0]).allocate 64 = (.ok 0 0x7000, t)) ∧ (fullTable []).liveCount = 256 := by
  constructor
  · have h : ((start [] [] [ans (some 0x7000) 0]).allocate 64).1 = .ok 0 0x7000 := by decide +kernel
    exact ⟨_, Prod.ext h rfl⟩
  · unfold State.liveCount
    rw [List.countP_eq_length.2]
    · simp
    · intro h _
      rw [fullTable_slot]
      decide

/-- O51: program P1's memory is in canonical form, and the two fields of its record 0 stand in it; a launch with a host region;
and mapped addresses of each kind. -/
theorem test_witness_HostStartGivesTheInvariant :
    Memory.wf launchP1.mem ∧ launchP1.blob.data ≠ 0 ∧ 0 < launchP1.blob.length.toNat / 16 ∧
    PresentedAt launchP1.mem (launchP1.blob.data + BitVec.ofNat 64 (16 * 0) + config.recLenOff) [0x2D, 0, 0, 0, 0, 0, 0, 0] ∧
    PresentedAt launchP1.mem (launchP1.blob.data + BitVec.ofNat 64 (16 * 0) + config.recDataOff) [0, 0x20, 0, 0, 0, 0, 0, 0] ∧
    (let l := { launchP1 with hostRegions := [{ length := 1, data := 0x9000 }] }
     Memory.wf l.mem ∧ ({ length := 1, data := 0x9000 } : Buffer) ∈ l.hostRegions ∧
       (State.reset.hostStart l).isMapped 0x100F = true ∧ (State.reset.hostStart l).isMapped 0x1010 = false ∧
       (State.reset.hostStart l).isMapped 0x202C = true ∧ (State.reset.hostStart l).isMapped 0x9000 = true ∧
       (State.reset.hostStart l).byteAt 0x1000 = some 0x2D) := by
  unfold PresentedAt
  decide +kernel

theorem exists_next_of_goes {s : State} {p : State → Bool} (h : goes s p = true) : ∃ t, step s = .next t := by
  unfold goes at h
  split at h
  · next t e => exact ⟨t, e⟩
  · cases h
  · cases h

/-- O52: a state with the invariant whose step answers a next state. -/
theorem test_witness_EveryStepKeepsTheInvariant : aboutToFree.Inv ∧ ∃ t, step aboutToFree = .next t :=
  ⟨aboutToFree_inv, exists_next_of_goes (p := fun _ => true) (by decide +kernel)⟩

/-- O53: r21 is no destination of `wr r20`; r30 none of an Allocate that writes r12 and then fails. -/
theorem test_witness_RegistersChangeOnlyAtDestinations :
    ((∃ t, exec (.wr 20 1) (start [] []) = .next t) ∧ (21 : Reg) ∉ instrDests (.wr 20 1) ∧
      (21 : Reg).val ≠ ((start [] []).reg errSelReg).toNat ∧ errSelReg ∉ instrDests (.wr 20 1)) ∧
    (∃ t, exec (.alloc 20 21 22 12) (start [] [] [ans none 0]) = .next t) ∧ (30 : Reg) ∉ instrDests (.alloc 20 21 22 12) ∧
    errSelReg ∈ instrDests (.alloc 20 21 22 12) ∧ (30 : Reg) ≠ 0 :=
  ⟨⟨⟨_, rfl⟩, by decide, by decide +kernel, by decide⟩, exists_next_of_completes (by decide +kernel), by decide, by decide,
    by decide⟩

/-- O54: `wr`, and an `r2b` that stores. -/
theorem test_witness_OnlyStoresChangeMemory :
    (∃ t, exec (.wr 20 1) (start [] []) = .next t) ∧
    ∃ t, exec (.r2b 22 21 20) (start [] [(20, 0x5000), (21, 8)]) = .next t :=
  ⟨⟨_, rfl⟩, exists_next_of_completes (by decide +kernel)⟩

/-- O55: a Running state in which `wr`, `quit` and a bad selector each answer a next state. -/
theorem test_witness_LatchesChangeOnlyAtTheEnd :
    (start [] []).runState = .running ∧ (∃ t, exec (.wr 20 1) (start [] []) = .next t) ∧
    (∃ t, exec (.quit 20 21) (start [] []) = .next t) ∧ ∃ t, exec (.op 0 0 15 13 14 15) (start [] []) = .next t :=
  ⟨rfl, ⟨_, rfl⟩, ⟨_, rfl⟩, exists_next_of_completes (by decide +kernel)⟩

/-- The reason `exec` stops for, if it does. -/
def stopOf (i : Instr) (s : State) : Option Fault :=
  match exec i s with
  | .next _ => none
  | .fault f => some f
  | .refused _ => none

theorem fault_of_stopOf {i : Instr} {s : State} {f : Fault} (h : stopOf i s = some f) : exec i s = .fault f := by
  unfold stopOf at h
  split at h
  · cases h
  · next g e => cases h; exact e
  · cases h

/-- O56: each of the three stops, two of them in both of their cases. -/
theorem test_witness_StopsAreTheOnesTheSpecLeavesOpen :
    exec (.alloc 20 21 22 23) (start [] [(12, 256)] [ans none 0]) = .fault .errSelRange ∧
    exec (.sysOpen 20 21 22 0 0 0 23) (start [] [(20, 0)]) = .fault (.unmappedAccess 0 1) ∧
    exec (.b2r 20 21 22) (start [] [(20, 0), (21, 1)]) = .fault (.unmappedAccess 0 1) ∧
    exec (.opDiv 0 0 13 14 15) (start [] [(12, 256)]) = .fault .errSelRange ∧
    exec (.dealloc 21) (start [] [(21, 256)]) = .fault .handleRange :=
  ⟨fault_of_stopOf (by decide +kernel), fault_of_stopOf (by decide +kernel), fault_of_stopOf (by decide +kernel),
    fault_of_stopOf (by decide +kernel), fault_of_stopOf (by decide +kernel)⟩

/-- O57: a relative jump, a conditional one with its bit 1 and with its bit 0, and a failed check with ERRSEL 0. -/
theorem test_witness_WritesToR0AreJumps :
    ((start [0x07, 0x00, 0x00, 0x40, 0x06, 0x00, 0x11, 0x00] []).standsAt (.opAdd 0 0 0 17 0) ∧ 10 ≤ (17 : Reg).val) ∧
    ((start [0x07, 0x00, 0x12, 0x00, 0x06, 0x00, 0x11, 0x00] [(18, 1)]).standsAt (.opAddIf 18 0 0 17 0) ∧
      10 ≤ (18 : Reg).val ∧
      ((start [0x07, 0x00, 0x12, 0x00, 0x06, 0x00, 0x11, 0x00] [(18, 1)]).reg 18).getLsbD (0 : BitVec 5).toNat = true ∧
      ((start [0x07, 0x00, 0x12, 0x00, 0x06, 0x00, 0x11, 0x00] [(18, 2)]).reg 18).getLsbD (0 : BitVec 5).toNat = false) ∧
    (start [0x04, 0x00, 0x14, 0x15, 0x16] [(21, 9), (12, 0)]).standsAt (.b2r 20 21 22) ∧ 10 ≤ (21 : Reg).val ∧
    8 < ((start [0x04, 0x00, 0x14, 0x15, 0x16] [(21, 9), (12, 0)]).reg 21).toNat ∧
    (start [0x04, 0x00, 0x14, 0x15, 0x16] [(21, 9), (12, 0)]).reg errSelReg = 0 :=
  ⟨⟨standsAt_of_stands (by decide +kernel), by decide⟩,
    ⟨standsAt_of_stands (by decide +kernel), by decide, by decide +kernel, by decide +kernel⟩,
    standsAt_of_stands (by decide +kernel), by decide, by decide +kernel, by decide +kernel⟩

end Sys2Proof.Tests
end

section
/-! PROOFS. Which stops an instruction can answer: `exec_cases` says in what ways an instruction goes on, `exec_stops` in what
ways it stops. -/

namespace Sys2Proof.Machine

/-- An effect is not refused, and where it stops, the reason is one of `P`. -/
inductive StopsOnlyIn (P : Fault → Prop) : Result → Prop
  | next (t : State) : StopsOnlyIn P (.next t)
  | fault {f : Fault} (h : P f) : StopsOnlyIn P (.fault f)

theorem StopsOnlyIn.not_refused {P : Fault → Prop} {r : Refusal} : ¬ StopsOnlyIn P (.refused r) := nofun

theorem StopsOnlyIn.reason {P : Fault → Prop} {f : Fault} : StopsOnlyIn P (.fault f) → P f
  | .fault h => h

/-! ## Accesses that give nothing -/

/-- One of the `n` addresses from `a` on is unmapped. -/
def State.meetsUnmapped (s : State) (a : Word) (n : Nat) : Prop :=
  ∃ k < n, s.isMapped (a + BitVec.ofNat 64 k).toNat = false

theorem State.rangeMapped_eq_false {s : State} {a : Word} {n : Nat} : s.rangeMapped a n = false ↔ s.meetsUnmapped a n := by
  simp [← Bool.not_eq_true, State.rangeMapped_iff, State.meetsUnmapped]

theorem State.loadBytes_eq_none {s : State} {a : Word} {n : Nat} : s.loadBytes a n = none ↔ s.meetsUnmapped a n := by
  rw [← State.rangeMapped_eq_false, ← State.loadBytes_isSome, Option.isSome_eq_false_iff, Option.isNone_iff_eq_none]

theorem State.memRead_eq_none {s : State} {a : Word} {n : Nat} : s.memRead a n = none ↔ s.meetsUnmapped a n := by
  rw [← State.loadBytes_eq_none]
  unfold State.memRead
  cases s.loadBytes a n <;> simp

theorem State.memWrite_eq_none {s : State} {a : Word} {n v : Nat} : s.memWrite a n v = none ↔ s.meetsUnmapped a n := by
  rw [← State.rangeMapped_eq_false, ← State.memWrite_isSome s a n v, Option.isSome_eq_false_iff, Option.isNone_iff_eq_none]

/-! ## The operations that instructions share

Each lemma asks of `P` only the reasons that its operation can stop for. -/

section
variable {P : Fault → Prop} {s : State}

/-- A soft error stops only while ERRSEL holds 256 or more (`60_exceptions.md` R236). -/
theorem softError_stops {code : ErrorCode} (h : 256 ≤ (s.reg errSelReg).toNat → P .errSelRange) :
    StopsOnlyIn P (softError code s) := by
  rcases softError_spec code s with ⟨e, -, he⟩ | ⟨hr, he⟩
  · rw [he]; exact .next _
  · rw [he]; exact .fault (h hr)

theorem applyAlu_stops {o : AluOp} {a b d : Reg} (h : 256 ≤ (s.reg errSelReg).toNat → P .errSelRange) :
    StopsOnlyIn P (applyAlu o a b d s) := by
  unfold applyAlu
  split
  · exact .next _
  · exact .next _
  · exact softError_stops h

theorem applySelector_stops {sel : Word} {a b d : Reg} (h : 256 ≤ (s.reg errSelReg).toNat → P .errSelRange) :
    StopsOnlyIn P (applySelector sel a b d s) := by
  unfold applySelector
  split
  · exact applyAlu_stops h
  · exact .next _

/-- A gate adds no stop: where it fails, the instruction does nothing (`44_operate.md` R174). -/
theorem gated_stops {f : Reg} {n : BitVec 5} {e : State → Result} (h : StopsOnlyIn P (e s)) : StopsOnlyIn P (gated f n e s) := by
  unfold gated
  split
  · exact h
  · exact .next _

/-- A failed Allocate takes its soft error with ERRSEL as its destinations leave it (`42_allocation.md` R144). -/
theorem State.reg_errSel_setAlloc (s : State) (h p l : Reg) :
    (s.setAlloc h p l noSlotHandle 0 0).reg errSelReg = errSelAfterAlloc h p l s := by
  simp only [State.setAlloc, State.reg_setReg, errSelAfterAlloc, noSlotHandle]
  by_cases hl : errSelReg = l <;> by_cases hp : errSelReg = p <;> simp [hl, hp]

theorem allocFails_stops {code : ErrorCode} {h p l : Reg} (hr : 256 ≤ (errSelAfterAlloc h p l s).toNat → P .errSelRange) :
    StopsOnlyIn P (allocFails code h p l s) :=
  softError_stops (by rwa [State.reg_errSel_setAlloc])

theorem execAlloc_stops {x h p l : Reg} (hr : 256 ≤ (errSelAfterAlloc h p l s).toNat → P .errSelRange) :
    StopsOnlyIn P (execAlloc x h p l s) := by
  unfold execAlloc
  rcases s.allocate_spec (s.reg x) with ⟨-, e⟩ | ⟨_, -, -, e⟩ | ⟨_, _, -, -, e⟩
  · rw [e]; exact allocFails_stops hr
  · rw [e]; exact allocFails_stops hr
  · rw [e]; exact .next _

theorem execDealloc_stops {x : Reg} (hr : 256 ≤ (s.reg errSelReg).toNat → P .errSelRange)
    (hh : 256 ≤ (s.reg x).toNat → P .handleRange) : StopsOnlyIn P (execDealloc x s) := by
  unfold execDealloc
  split
  · split
    · exact .next _
    · exact softError_stops hr
  · next hx => exact .fault (hh (by omega))

theorem execB2r_stops {x c d : Reg} (hr : 256 ≤ (s.reg errSelReg).toNat → P .errSelRange)
    (hu : ∀ a n, s.meetsUnmapped a n → P (.unmappedAccess a n)) : StopsOnlyIn P (execB2r x c d s) := by
  unfold execB2r
  dsimp only
  split
  · split
    · exact .next _
    · next e => exact .fault (hu _ _ (State.memRead_eq_none.1 e))
  · exact softError_stops hr

theorem execR2b_stops {x c d : Reg} (hr : 256 ≤ (s.reg errSelReg).toNat → P .errSelRange)
    (hu : ∀ a n, s.meetsUnmapped a n → P (.unmappedAccess a n)) : StopsOnlyIn P (execR2b x c d s) := by
  unfold execR2b
  dsimp only
  split
  · split
    · exact .next _
    · next e => exact .fault (hu _ _ (State.memWrite_eq_none.1 e))
  · exact softError_stops hr

theorem execSysRead_stops {a0 a1 a2 r : Reg} (hu : ∀ a n, s.meetsUnmapped a n → P (.unmappedAccess a n)) :
    StopsOnlyIn P (execSysRead a0 a1 a2 r s) := by
  unfold execSysRead
  dsimp only
  split
  · exact .next _
  · next e =>
    have hm : (s.transact (.read (s.reg a0) (s.reg a1) (s.reg a2))).meetsUnmapped _ _ := State.memWrite_eq_none.1 e
    exact .fault (hu _ _ hm)

theorem execSysWrite_stops {a0 a1 a2 r : Reg} (hu : ∀ a n, s.meetsUnmapped a n → P (.unmappedAccess a n)) :
    StopsOnlyIn P (execSysWrite a0 a1 a2 r s) := by
  unfold execSysWrite
  dsimp only
  split
  · exact .next _
  · next e => exact .fault (hu _ _ (State.loadBytes_eq_none.1 e))

theorem execSysOpen_stops {a0 a1 a2 r : Reg}
    (hp : s.pathMeetsUnmapped (s.reg a0) → P (.unmappedAccess (s.reg a0) 1)) : StopsOnlyIn P (execSysOpen a0 a1 a2 r s) := by
  unfold execSysOpen
  split
  · exact .next _
  · next e => exact .fault (hp (State.loadPath_none.1 e))

theorem execSysStat_stops {a0 a1 a2 r : Reg}
    (hp : s.pathMeetsUnmapped (s.reg a0) → P (.unmappedAccess (s.reg a0) 1)) : StopsOnlyIn P (execSysStat a0 a1 a2 r s) := by
  unfold execSysStat
  split
  · exact .next _
  · next e => exact .fault (hp (State.loadPath_none.1 e))

theorem execSys_stops {k : Byte} {a0 a1 a2 r : Reg} (hu : ∀ a n, s.meetsUnmapped a n → P (.unmappedAccess a n))
    (hp : s.pathMeetsUnmapped (s.reg a0) → P (.unmappedAccess (s.reg a0) 1)) : StopsOnlyIn P (execSys k a0 a1 a2 r s) := by
  unfold execSys
  split
  · exact execSysRead_stops hu
  · exact execSysWrite_stops hu
  · exact execSysOpen_stops hp
  · exact .next _
  · exact execSysStat_stops hp
  · exact .next _
  · exact .next _

end

/-! ## The instructions -/

/-- Every reason for which an instruction can stop. -/
inductive StopCase (i : Instr) (s : State) : Fault → Prop
  /-- A transfer or a Syscall touches an unmapped byte. -/
  | range (hi : instrOpcode i ∈ [.b2r, .r2b, .sys]) (a : Word) (n : Nat) (h : s.meetsUnmapped a n) :
      StopCase i s (.unmappedAccess a n)
  /-- The path of an open or a stat meets an unmapped address. -/
  | path (a0 a1 a2 a3 a4 a5 ret : Reg)
      (hi : i = .sysOpen a0 a1 a2 a3 a4 a5 ret ∨ i = .sysStat a0 a1 a2 a3 a4 a5 ret ∨
        ∃ k, i = .sys k a0 a1 a2 a3 a4 a5 ret)
      (h : s.pathMeetsUnmapped (s.reg a0)) : StopCase i s (.unmappedAccess (s.reg a0) 1)
  /-- A failed Allocate leaves 256 or more in ERRSEL. -/
  | allocErrSel (x h p l : Reg) (hi : i = .alloc x h p l) (hr : 256 ≤ (errSelAfterAlloc h p l s).toNat) :
      StopCase i s .errSelRange
  /-- Another soft error while ERRSEL holds 256 or more. -/
  | errSel (hi : instrOpcode i ∈ [.dealloc, .b2r, .r2b, .op]) (hr : 256 ≤ (s.reg errSelReg).toNat) :
      StopCase i s .errSelRange
  /-- Deallocate of a handle of 256 or more. -/
  | handle (x : Reg) (hi : i = .dealloc x) (hh : 256 ≤ (s.reg x).toNat) : StopCase i s .handleRange

/-- The inversion of `exec` where it answers no next state. -/
theorem exec_stops (i : Instr) (s : State) : StopsOnlyIn (StopCase i s) (exec i s) := by
  cases i with
  | quit | wr | r2r | sysClose | sysFstat => exact .next _
  | alloc => exact execAlloc_stops (.allocErrSel _ _ _ _ rfl)
  | dealloc => exact execDealloc_stops (.errSel (by simp [instrOpcode])) (.handle _ rfl)
  | b2r => exact execB2r_stops (.errSel (by simp [instrOpcode])) (.range (by simp [instrOpcode]))
  | r2b => exact execR2b_stops (.errSel (by simp [instrOpcode])) (.range (by simp [instrOpcode]))
  | op | opInd => exact applySelector_stops (.errSel (by simp [instrOpcode]))
  | opIf | opIfInd => exact gated_stops (applySelector_stops (.errSel (by simp [instrOpcode])))
  | opShr | opShl | opNot | opAnd | opOr | opXor | opAdd | opSub | opMul | opDiv | opMod | opLt | opLe | opGt | opGe =>
    -- Stop at `applyAlu`: unification would go on to compute the operation's own result.
    simp only [exec, execOpShr, execOpShl, execOpNot, execOpAnd, execOpOr, execOpXor, execOpAdd, execOpSub, execOpMul,
      execOpDiv, execOpMod, execOpLt, execOpLe, execOpGt, execOpGe]
    exact applyAlu_stops (.errSel (by simp [instrOpcode]))
  | opShrIf | opShlIf | opNotIf | opAndIf | opOrIf | opXorIf | opAddIf | opSubIf | opMulIf | opDivIf | opModIf | opLtIf
  | opLeIf | opGtIf | opGeIf => exact gated_stops (applyAlu_stops (.errSel (by simp [instrOpcode])))
  | sys => exact execSys_stops (.range (by simp [instrOpcode])) (.path _ _ _ _ _ _ _ (.inr (.inr ⟨_, rfl⟩)))
  | sysRead => exact execSysRead_stops (.range (by simp [instrOpcode]))
  | sysWrite => exact execSysWrite_stops (.range (by simp [instrOpcode]))
  | sysOpen => exact execSysOpen_stops (.path _ _ _ _ _ _ _ (.inl rfl))
  | sysStat => exact execSysStat_stops (.path _ _ _ _ _ _ _ (.inr (.inl rfl)))

/-- Settles O56, by reading each clause off the reasons of `exec_stops`. -/
theorem stopsAreTheOnesTheSpecLeavesOpen : Obligations.StopsAreTheOnesTheSpecLeavesOpen := by
  refine ⟨fun i s r e => StopsOnlyIn.not_refused (e ▸ exec_stops i s), fun i s f e => ?_⟩
  have hf : StopCase i s f := StopsOnlyIn.reason (e ▸ exec_stops i s)
  cases hf with
  | range hi a n h => exact .inl ⟨hi, h⟩
  | path a0 a1 a2 a3 a4 a5 ret hi h => exact .inr ⟨a0, a1, a2, a3, a4, a5, ret, hi, rfl, h⟩
  | allocErrSel x h p l hi hr => exact .inl ⟨x, h, p, l, hi, hr⟩
  | errSel hi hr => exact .inr ⟨hi, hr⟩
  | handle x hi hh => exact ⟨x, hi, hh⟩

end Sys2Proof.Machine
end

section
/-! PROOFS. The machine's state: the values at reset, what the phases of the cycle load, what an instruction leaves alone, and
the invariant that every step keeps (`10_state.md`). -/

namespace Sys2Proof.Machine

/-! ## The remaining views of shared operations -/

@[simp] theorem State.retire_runState (s : State) (n : Nat) : (s.retire n).runState = s.runState := by
  unfold State.retire; split <;> rfl

@[simp] theorem State.retire_fatalCode (s : State) (n : Nat) : (s.retire n).fatalCode = s.fatalCode := by
  unfold State.retire; split <;> rfl

theorem State.reg_setAlloc_other {s : State} {h p l r : Reg} (a b c : Word) (hr : r ∉ [h, p, l]) :
    (s.setAlloc h p l a b c).reg r = s.reg r := by
  obtain ⟨hh, hp, hl⟩ : r ≠ h ∧ r ≠ p ∧ r ≠ l := by simpa using hr
  simp only [State.setAlloc, State.reg_setReg, if_neg hh, if_neg hp, if_neg hl]

theorem State.reset_slot (h : Fin 256) : State.reset.slot h = nullBuffer := by
  simp [State.slot, State.reset]

theorem State.clearSlots_slot (s : State) (h : Fin 256) : s.clearSlots.slot h = nullBuffer := by
  simp [State.slot, State.clearSlots]

/-- Settles O1: every field is read off `State.reset`, where no region holds an address. -/
theorem resetLeavesTheStatedValues : Obligations.ResetLeavesTheStatedValues :=
  ⟨rfl, rfl, rfl, State.reset_slot, fun _ => rfl⟩

/-! ## The decoder's opcode -/

theorem instrOpcode_instrOfAlu (op : AluOp) (f : Reg) (m : BitVec 6) (a b d : Reg) :
    instrOpcode (instrOfAlu op f m a b d) = .op := by
  cases op <;> rfl

theorem instrOpcode_instrOfAluIf (op : AluOp) (f : Reg) (n : BitVec 5) (a b d : Reg) :
    instrOpcode (instrOfAluIf op f n a b d) = .op := by
  cases op <;> rfl

theorem instrOpcode_decodeOperate (f : Reg) (mode sel : Byte) (a b d : Reg) :
    instrOpcode (decodeOperate f mode sel a b d) = .op := by
  unfold decodeOperate
  split
  · split
    · rfl
    · split
      · exact instrOpcode_instrOfAlu ..
      · rfl
  · split
    · rfl
    · split
      · exact instrOpcode_instrOfAluIf ..
      · rfl

theorem instrOpcode_decodeSyscall (k : Byte) (a0 a1 a2 a3 a4 a5 r : Reg) :
    instrOpcode (decodeSyscall k a0 a1 a2 a3 a4 a5 r) = .sys := by
  unfold decodeSyscall
  split
  · next o _ => cases o <;> rfl
  · rfl

/-- The parameters do not decide the opcode (`30_encoding.md` R84). -/
theorem instrOpcode_decodeParams (o : Opcode) (ps : List Byte) : instrOpcode (decodeParams o ps) = o := by
  cases o with
  | quit | wr | alloc | dealloc | b2r | r2r | r2b => rfl
  | op => exact instrOpcode_decodeOperate ..
  | sys => exact instrOpcode_decodeSyscall ..

theorem fetch_opcode {s u : State} {i : Instr} {o : Opcode} (h : fetch s = .instr i o u) : instrOpcode i = o := by
  obtain ⟨-, ps, -, rfl, -⟩ := fetch_instr h
  exact instrOpcode_decodeParams o ps

/-! ## What an instruction leaves alone -/

theorem State.memWrite_frame {s t : State} {a : Word} {n v : Nat} (h : s.memWrite a n v = some t) :
    ∃ m, t = s.setMem m :=
  ⟨_, (State.memWrite_spec h).2⟩

/-- Settles O53: `exec_cases` says which registers each way of going on can write. -/
theorem registersChangeOnlyAtDestinations : Obligations.RegistersChangeOnlyAtDestinations := by
  intro i s t r he hd hsel hzero
  cases exec_cases he with
  | regs h =>
    obtain ⟨-, -, -, -, -, -, -, hregs⟩ := h
    exact hregs r hd hsel hzero
  | quit a b _ e => rw [e, State.conclude_reg]
  | fatal c _ e => rw [e]; rfl
  | store x y z _ _ e =>
    obtain ⟨m, rfl⟩ := State.memWrite_frame e
    rfl
  | read a0 a1 a2 d u hi e e' =>
    have hr : r ≠ d := by
      rintro rfl
      rcases hi with ⟨_, _, _, rfl⟩ | ⟨_, _, _, _, rfl⟩ <;> simp [instrDests] at hd
    obtain ⟨m, rfl⟩ := State.memWrite_frame e
    rw [e', State.reg_setReg_other _ _ hr]
    rfl
  | alloc x h p l k addr hi _ _ e =>
    subst hi
    rw [e, State.reg_setAlloc_other _ _ _ hd]
    rfl
  | dealloc x k _ _ _ e => rw [e]; rfl

/-- How an instruction can change the run state and the latches (`10_state.md` R30 to R32). -/
theorem exec_run {i : Instr} {s t : State} (h : exec i s = .next t) :
    SameRun s t ∨ (t.runState = .halted ∧ ∃ a b, i = .quit a b) ∨
      FaultedWith .unimplementedAluOp s t ∨ FaultedWith .unimplementedSyscall s t := by
  cases exec_cases h with
  | regs h => exact .inl h.sameRun
  | quit a b hi e => exact .inr (.inl ⟨by rw [e]; rfl, a, b, hi⟩)
  | fatal c hc e =>
    subst e
    rcases hc with rfl | rfl
    · exact .inr (.inr (.inl (faultedWith_fatal s _)))
    · exact .inr (.inr (.inr (faultedWith_fatal s _)))
  | store x y z _ _ e =>
    obtain ⟨m, rfl⟩ := State.memWrite_frame e
    exact .inl ⟨rfl, rfl, rfl⟩
  | read a0 a1 a2 d u _ e e' =>
    obtain ⟨m, rfl⟩ := State.memWrite_frame e
    subst e'
    exact .inl ⟨rfl, rfl, rfl⟩
  | alloc x h p l k addr _ _ _ e => subst e; exact .inl ⟨rfl, rfl, rfl⟩
  | dealloc x k _ _ _ e => subst e; exact .inl ⟨rfl, rfl, rfl⟩

theorem exec_blob {i : Instr} {s t : State} (h : exec i s = .next t) : t.blob = s.blob := by
  cases exec_cases h with
  | regs h =>
    obtain ⟨-, -, -, -, -, -, hb, -⟩ := h
    exact hb
  | quit a b _ e => rw [e]; rfl
  | fatal c _ e => rw [e]; rfl
  | store x y z _ _ e =>
    obtain ⟨m, rfl⟩ := State.memWrite_frame e
    rfl
  | read a0 a1 a2 d u _ e e' =>
    obtain ⟨m, rfl⟩ := State.memWrite_frame e
    rw [e']; rfl
  | alloc x h p l k addr _ _ _ e => rw [e]; rfl
  | dealloc x k _ _ _ e => rw [e]; rfl

/-- Settles O55: the run state and the latches by `exec_run`, the blob by `exec_blob`. -/
theorem latchesChangeOnlyAtTheEnd : Obligations.LatchesChangeOnlyAtTheEnd :=
  ⟨fun _ _ _ _ h => exec_run h, fun _ _ _ h => exec_blob h⟩

/-! ## The run state along a step -/

/-- Initialisation ends in Running or Faulted (`70_reset_and_hazards.md` R260, R261). -/
theorem initialise_runState {s t : State} (h : initialise s = .next t) : t.runState = .running ∨ t.runState = .faulted := by
  rcases initialise_cases h with ⟨v, rfl, -⟩ | ⟨rfl, -⟩
  · exact .inl rfl
  · exact .inr rfl

/-- Settles O4, by the inversion of `step`; the run state an instruction leaves is `exec_run`'s. -/
theorem runStateFollowsItsDiagram : Obligations.RunStateFollowsItsDiagram := by
  intro s t h
  cases step_cases h with
  | initialising hr h => simpa only [hr] using initialise_runState h
  | unrecognised hr rs h =>
    rw [hr, h]
    exact .inr (.inr ⟨rfl, nofun⟩)
  | instruction hr i o rs u hf he h =>
    simp only [hr, h, State.retire_runState, State.retire_fatalCode]
    rcases exec_run he with ⟨hu, -⟩ | ⟨hu, a, b, rfl⟩ | ⟨hu, hc, -⟩ | ⟨hu, hc, -⟩
    · exact .inl (hu.trans hr)
    · obtain rfl : Opcode.quit = o := fetch_opcode hf
      exact .inr (.inl ⟨hu, a, b, _, hf⟩)
    · exact .inr (.inr ⟨hu, by simp [hc]⟩)
    · exact .inr (.inr ⟨hu, by simp [hc]⟩)

/-! ## Phases 1 to 3 -/

/-- An instruction is as long as its opcode says (`30_encoding.md` R82). -/
theorem encode_length (i : Instr) : (encode i).length = opcodeStride (instrOpcode i) := by
  cases i <;> rfl

/-- Every opcode but WriteRegister has one parameter a byte (`30_encoding.md` R85). -/
theorem cutParams_of_ne_wr {o : Opcode} (h : o ≠ .wr) (ps : List Byte) :
    cutParams o ps = ps.map fun b => b.setWidth 64 := by
  cases o with
  | wr => exact absurd rfl h
  | quit | alloc | dealloc | b2r | r2r | r2b | op | sys => rfl

theorem cutParams_wr (d : Reg) (v : Word) : cutParams .wr ((encode (.wr d v)).drop 2) = [BitVec.ofNat 64 d.val, v] := by
  have hd : (byteOfReg d).setWidth 64 = BitVec.ofNat 64 d.val := by
    apply BitVec.eq_of_toNat_eq
    have := d.isLt
    simp only [byteOfReg, BitVec.toNat_setWidth, BitVec.toNat_ofNat]
    omega
  have hv : BitVec.ofNat 64 (leNat (leBytes 8 v.toNat)) = v := by
    rw [leNat_leBytes, show (256 : Nat) ^ 8 = 2 ^ 64 by decide, Nat.mod_eq_of_lt v.toNat_lt, BitVec.ofNat_toNat,
      BitVec.setWidth_eq]
  calc cutParams .wr ((encode (.wr d v)).drop 2)
      = [(byteOfReg d).setWidth 64, BitVec.ofNat 64 (leNat (leBytes 8 v.toNat))] := rfl
    _ = [BitVec.ofNat 64 d.val, v] := by rw [hd, hv]

/-- The parameters fit in the scratch registers (`30_encoding.md` R85). -/
theorem cutParams_encode_length (i : Instr) : (cutParams (instrOpcode i) ((encode i).drop 2)).length ≤ numScratch := by
  have hs : ∀ o, opcodeStride o - 2 ≤ numScratch ∨ o = .wr := by intro o; cases o <;> decide
  by_cases hw : instrOpcode i = .wr
  · rw [hw]; exact (show 2 ≤ numScratch by decide)
  · rw [cutParams_of_ne_wr hw, List.length_map, List.length_drop, encode_length]
    exact (hs _).resolve_right hw

/-- Registers after phase 1 (`40_fetch_dispatch_quit.md` R111). -/
theorem State.reg_fetched (s : State) (id : BitVec 16) (r : Reg) :
    (s.fetched id).reg r = if r = 1 then id.setWidth 64 else if 2 ≤ r.val ∧ r.val < 10 then 0 else s.reg r := by
  unfold State.fetched State.clearScratch
  rw [State.reg_setReg, State.reg_writeScratch _ _ _ (by decide)]
  rw [List.length_replicate, show 2 + 0 + numScratch = 10 from rfl]
  by_cases h : 2 ≤ r.val ∧ r.val < 10
  · rw [if_pos h, if_pos h, List.getD_replicate _ (by simp only [numScratch]; omega)]
  · rw [if_neg h, if_neg h]

/-- Registers after phase 3 (`40_fetch_dispatch_quit.md` R113). -/
theorem State.reg_decoded (s : State) (id : BitVec 16) {o : Opcode} {ps : List Byte}
    (h : (cutParams o ps).length ≤ numScratch) (r : Reg) :
    (s.decoded id o ps).reg r =
      if 2 ≤ r.val ∧ r.val < 2 + (cutParams o ps).length then (cutParams o ps).getD (r.val - 2) 0
      else (s.fetched id).reg r := by
  have hl : s.decoded id o ps = (s.fetched id).writeScratch 0 (cutParams o ps) := rfl
  rw [hl, State.reg_writeScratch _ _ _ (by simpa [numScratch] using h)]
  rfl

theorem scratchReg_val {k : Nat} (h : k < 8) : (scratchReg k).val = 2 + k := by
  simp [scratchReg, Fin.ofNat]; omega

/-- A scratch register holds its parameter, or 0 where the instruction has none. -/
theorem State.reg_scratchReg_executing (s : State) (i : Instr) {k : Nat} (hk : k < 8) :
    (s.executing i).reg (scratchReg k) = (cutParams (instrOpcode i) ((encode i).drop 2)).getD k 0 := by
  have hv := scratchReg_val hk
  rw [State.executing, State.reg_decoded _ _ (cutParams_encode_length i), hv]
  split
  · rw [Nat.add_sub_cancel_left]
  · next hn =>
    have h1 : scratchReg k ≠ 1 := fun e => by rw [e] at hv; simp at hv; omega
    rw [State.reg_fetched, if_neg h1, if_pos (by omega), List.getD_eq_default _ _ (by omega)]

/-- No phase before execution writes a register outside r2 to r9 but r1 (`10_state.md` R25, R26). -/
theorem State.reg_executing_other (s : State) (i : Instr) {r : Reg} (hr : r.val < 2 ∨ 10 ≤ r.val) :
    (s.executing i).reg r = if r = 1 then (config.opc (instrOpcode i)).setWidth 64 else s.reg r := by
  have hl : _ ≤ 8 := cutParams_encode_length i
  rw [State.executing, State.reg_decoded _ _ hl, if_neg (by omega), State.reg_fetched, if_neg (by omega : ¬(2 ≤ r.val ∧ _))]

/-- Settles O7, from what the two writes of scratch registers leave in each register. -/
theorem cycleLoadsIdAndParameters : Obligations.CycleLoadsIdAndParameters := by
  refine ⟨fun s i => ⟨?_, fun k hk => s.reg_scratchReg_executing i hk, fun r hr => ?_, ?_⟩, cutParams_wr,
    fun i h => cutParams_of_ne_wr h _⟩
  · exact s.reg_executing_other i (.inl (by decide))
  · have h1 : r ≠ 1 := by rintro rfl; simp at hr
    rw [s.reg_executing_other i (by omega), if_neg h1]
  · obtain ⟨rs, h⟩ := s.decoded_frame (config.opc (instrOpcode i)) (instrOpcode i) ((encode i).drop 2)
    rw [State.executing, h]
    exact ⟨fun _ => rfl, ⟨fun _ => rfl, rfl⟩, rfl, rfl, rfl⟩

/-! ## The invariant -/

/-- Settles O50: nothing is mapped at reset and every slot is free. -/
theorem invariantAtReset : Obligations.InvariantAtReset where
  memWf := Memory.wf_reset
  memMapped := nofun
  slotMapped := fun _ h hl => absurd (by rw [State.reset_slot]) hl
  regionLive := nofun
  disjoint := .nil
  fresh := nofun
  outputNull := fun _ => rfl
  latch := ⟨fun _ => rfl, nofun⟩

/-- A region shares an address only with a range that it meets. -/
theorem Region.meets_of_shares {r : Region} {base length : Word} {o : RegionOwner} {n : Nat}
    (h : Region.shares ⟨base, length, o, n⟩ r) : r.meets base.toNat length.toNat = true := by
  obtain ⟨a, hnew, hold⟩ := h
  simp only [Region.contains, Region.meets, Bool.and_eq_true, bne_iff_ne, decide_eq_true_eq] at hnew hold ⊢
  exact ⟨hold.1.1.1, by omega⟩

/-- Mapping one more region unmaps nothing. -/
theorem State.isMapped_of_cons {s t : State} {r : Region} {a : Nat} (h : t.regions = r :: s.regions)
    (ha : s.isMapped a = true) : t.isMapped a = true := by
  simp only [State.isMapped, h, List.any_cons, Bool.or_eq_true]
  exact .inr ha

section
variable {s t : State}

/-- The invariant speaks of memory, the regions, the table, the run state and the latches alone. -/
theorem State.Inv.congr (h : s.Inv) (hm : t.mem = s.mem) (hr : t.regions = s.regions) (hs : t.slots = s.slots)
    (hrun : SameRun s t) : t.Inv := by
  obtain ⟨hst, hout, hcode⟩ := hrun
  cases s; cases t
  simp only at hm hr hs hst hout hcode
  subst hm hr hs hst hout hcode
  exact ⟨h.memWf, h.memMapped, h.slotMapped, h.regionLive, h.disjoint, h.fresh, h.outputNull, h.latch⟩

theorem State.Inv.setReg (h : s.Inv) (r : Reg) (v : Word) : (s.setReg r v).Inv :=
  h.congr rfl rfl rfl ⟨rfl, rfl, rfl⟩

theorem State.Inv.setAlloc (h : s.Inv) (x y z : Reg) (a b c : Word) : (s.setAlloc x y z a b c).Inv :=
  ((h.setReg x a).setReg y b).setReg z c

theorem State.Inv.retire (h : s.Inv) (n : Nat) : (s.retire n).Inv := by
  unfold State.retire
  split
  · exact h.setReg _ _
  · exact h

/-- A fatal fault leaves memory, the regions and the table, and its code in the latch (`60_exceptions.md` R240). -/
theorem State.Inv.fatal (h : s.Inv) {c : ErrorCode}
    (hc : c ∈ [.malformedInput, .unimplementedOpcode, .unimplementedAluOp, .unimplementedSyscall]) : (s.fatal c).Inv where
  memWf := h.memWf
  memMapped := h.memMapped
  slotMapped := nofun
  regionLive := h.regionLive
  disjoint := h.disjoint
  fresh := nofun
  outputNull := fun _ => rfl
  latch := ⟨fun hn => absurd rfl hn, fun _ => hc⟩

/-- Quit ends a run with the table as it is (`40_fetch_dispatch_quit.md` R119). -/
theorem State.Inv.halt (h : s.Inv) (hr : s.runState = .running) (out : Buffer) :
    (s.conclude .halted out .noError).Inv where
  memWf := h.memWf
  memMapped := h.memMapped
  slotMapped := fun _ => h.slotMapped (.inl hr)
  regionLive := h.regionLive
  disjoint := h.disjoint
  fresh := nofun
  outputNull := fun hn => absurd rfl hn
  latch := ⟨fun _ => rfl, nofun⟩

/-- Clearing the table orphans no region, since every region is the host's until then (`70_reset_and_hazards.md` R263). -/
theorem State.Inv.clearSlots (h : s.Inv) (hr : s.runState = .initializing) :
    (s.clearSlots.conclude .running nullBuffer .noError).Inv where
  memWf := h.memWf
  memMapped := h.memMapped
  slotMapped := fun _ k hl => absurd (by rw [State.conclude_slot, State.clearSlots_slot]) hl
  regionLive := fun r hm k ho => by
    have hhost := h.fresh hr r hm
    rw [hhost] at ho
    cases ho
  disjoint := h.disjoint
  fresh := nofun
  outputNull := fun _ => rfl
  latch := ⟨fun _ => rfl, nofun⟩

theorem State.Inv.initialise (h : s.Inv) (hr : s.runState = .initializing) (he : initialise s = .next t) : t.Inv := by
  rcases initialise_cases he with ⟨v, rfl, -⟩ | ⟨rfl, -⟩
  · have hregs : (s.initRegs v).Inv := ((h.setReg _ _).setReg _ _).setReg _ _
    exact hregs.clearSlots hr
  · exact h.fatal (by simp)

/-- A store writes only where its range is mapped (`20_memory.md` R53). -/
theorem State.Inv.memWrite (h : s.Inv) {a : Word} {n v : Nat} (he : s.memWrite a n v = some t) : t.Inv := by
  obtain ⟨hrange, rfl⟩ := State.memWrite_spec he
  refine ⟨Memory.wf_writeBytes _ _ h.memWf, fun c hc => ?_, h.slotMapped, h.regionLive, h.disjoint, h.fresh, h.outputNull,
    h.latch⟩
  rw [State.setMem_isMapped]
  rcases Memory.mem_writeBytes hc with ⟨k, hk, hck⟩ | hc
  · rw [leBytes_length] at hk
    rw [hck]
    exact (State.rangeMapped_iff s a n).1 hrange k hk
  · exact h.memMapped c hc

/-- A reservation that is granted fills a free slot and maps a region that meets no other (`42_allocation.md` R141, R142). -/
theorem State.Inv.allocate (h : s.Inv) (hr : s.runState = .running) {k : Fin 256} {size addr : Word} {ans : HostAnswer}
    {n : Nat} (hfree : s.freeSlot = some k) (hgrant : s.grant size ans = some addr) :
    ((s.setSlot k { length := size, data := addr }).setRegions
      ({ base := addr, length := size, owner := .allocation k, serial := n } :: s.regions)).Inv := by
  obtain ⟨hk, -⟩ := State.freeSlot_some hfree
  obtain ⟨-, haddr, -, hmeets⟩ := State.grant_some hgrant
  refine ⟨h.memWf, fun c hc => State.isMapped_of_cons rfl (h.memMapped c hc), fun _ j hj => ?_, fun r hm j ho => ?_,
    List.pairwise_cons.2 ⟨fun r hm _ hs => ?_, h.disjoint⟩, fun hi => ?_, h.outputNull, h.latch⟩
  · rw [State.setRegions_slot, State.slot_setSlot] at hj ⊢
    by_cases hjk : j = k
    · rw [if_pos hjk]
      exact ⟨_, List.mem_cons_self, by rw [hjk], rfl, rfl⟩
    · rw [if_neg hjk] at hj ⊢
      obtain ⟨r, hm, hreg⟩ := h.slotMapped (.inl hr) j hj
      exact ⟨r, List.mem_cons_of_mem _ hm, hreg⟩
  · rw [State.setRegions_slot, State.slot_setSlot]
    rcases List.mem_cons.1 hm with rfl | hm
    · cases ho
      rw [if_pos rfl]
      exact ⟨haddr, rfl, rfl⟩
    · have hlive := h.regionLive r hm j ho
      rw [if_neg (by rintro rfl; exact hlive.1 hk)]
      exact hlive
  · exact absurd (Region.meets_of_shares hs) (by rw [hmeets r hm]; decide)
  · have : s.runState = .initializing := hi
    rw [hr] at this
    cases this

/-- A deallocation unmaps the regions of its handle and frees its slot, and no other (`42_allocation.md` R143). -/
theorem State.Inv.deallocate (h : s.Inv) (k : Fin 256) : ((s.unmap k).setSlot k nullBuffer).Inv := by
  refine ⟨Memory.wf_unmap k h.memWf, fun c hc => ?_, fun hr j hj => ?_, fun r hm j ho => ?_, h.disjoint.filter _,
    fun hi r hm => h.fresh hi r (List.mem_filter.1 hm).1, h.outputNull, h.latch⟩
  · exact (List.mem_filter.1 hc).2
  · rw [State.slot_setSlot] at hj ⊢
    have hjk : j ≠ k := by rintro rfl; simp at hj
    rw [if_neg hjk] at hj ⊢
    obtain ⟨r, hm, ho, hreg⟩ := h.slotMapped hr j hj
    exact ⟨r, List.mem_filter.2 ⟨hm, by simpa [ho] using hjk⟩, ho, hreg⟩
  · obtain ⟨hm, hok⟩ := List.mem_filter.1 hm
    have hjk : j ≠ k := by rintro rfl; simp [ho] at hok
    rw [State.slot_setSlot, if_neg hjk]
    exact h.regionLive r hm j ho

/-- An instruction keeps the invariant of a Running machine. -/
theorem State.Inv.exec {i : Instr} (h : s.Inv) (hr : s.runState = .running) (he : exec i s = .next t) : t.Inv := by
  cases exec_cases he with
  | regs hregs =>
    have hrun := hregs.sameRun
    obtain ⟨hm, hrg, hs, -⟩ := hregs
    exact h.congr hm hrg hs hrun
  | quit a b _ e => exact e ▸ h.halt hr _
  | fatal c hc e => exact e ▸ h.fatal (by rcases hc with rfl | rfl <;> simp)
  | store x y z _ _ e => exact h.memWrite e
  | read a0 a1 a2 r u _ e e' =>
    have hsent : (s.transact (.read (s.reg a0) (s.reg a1) (s.reg a2))).Inv := h.congr rfl rfl rfl ⟨rfl, rfl, rfl⟩
    exact e' ▸ (hsent.memWrite e).setReg r _
  | alloc x hd p l k addr _ hf hg e =>
    have halloc := h.allocate hr (n := s.draws) hf hg
    subst e
    refine State.Inv.setAlloc ?_ hd p l _ _ _
    exact halloc.congr rfl rfl rfl ⟨rfl, rfl, rfl⟩
  | dealloc x k _ _ _ e => exact e ▸ h.deallocate k

end

/-- Settles O52, by the inversion of `step`: a cycle changes registers, executes, and advances r0. -/
theorem everyStepKeepsTheInvariant : Obligations.EveryStepKeepsTheInvariant := by
  intro s t h he
  cases step_cases he with
  | initialising hr hi => exact h.initialise hr hi
  | unrecognised hr rs e =>
    have hregs : State.Inv { s with regs := rs } := h.congr rfl rfl rfl ⟨rfl, rfl, rfl⟩
    exact e ▸ hregs.fatal (by simp)
  | instruction hr i o rs u _ hex e =>
    have hregs : State.Inv { s with regs := rs } := h.congr rfl rfl rfl ⟨rfl, rfl, rfl⟩
    exact e ▸ (hregs.exec hr hex).retire _

end Sys2Proof.Machine
end

section
/-! PROOFS. Memory (`20_memory.md`): where a fetch and a transfer stop, and which instructions change a byte or what is
mapped. -/

namespace Sys2Proof.Machine

/-! ## What an instruction does to memory -/

/-- Only alloc and dealloc change the allocation table or the mapped regions. -/
theorem exec_sameTable {i : Instr} {s t : State} (h : exec i s = .next t) (ha : ∀ x hd p l, i ≠ .alloc x hd p l)
    (hd : ∀ x, i ≠ .dealloc x) : SameTable s t := by
  cases exec_cases h with
  | regs hregs => exact hregs.sameTable
  | quit a b _ e => subst e; exact ⟨fun _ => rfl, rfl⟩
  | fatal c _ e => subst e; exact ⟨fun _ => rfl, rfl⟩
  | store x y z _ _ e =>
    obtain ⟨m, rfl⟩ := State.memWrite_frame e
    exact ⟨fun _ => rfl, rfl⟩
  | read a0 a1 a2 r u _ e e' =>
    obtain ⟨m, rfl⟩ := State.memWrite_frame e
    subst e'
    exact ⟨fun _ => rfl, rfl⟩
  | alloc x hd p l _ _ hi => exact absurd hi (ha x hd p l)
  | dealloc x _ hi => exact absurd hi (hd x)

/-- Syscall reads, which place the host's bytes, and alloc and dealloc, which change what is mapped, are set apart: of the other
instructions only an r2b of at most 8 bytes changes a byte, and only those it stores (`20_memory.md` R51). -/
theorem exec_bytes {i : Instr} {s t : State} (h : exec i s = .next t)
    (hread : ∀ a b c d e f r, i ≠ .sysRead a b c d e f r) (hsys : ∀ k a b c d e f r, i ≠ .sys k a b c d e f r)
    (ha : ∀ x hd p l, i ≠ .alloc x hd p l) (hd : ∀ x, i ≠ .dealloc x) :
    SameBytes s t ∨ ∃ x y z, i = .r2b x y z ∧ s.transferCount y ≤ 8 ∧
      SameBytesOutside (s.effectiveAddr z) (s.transferCount y) s t := by
  cases exec_cases h with
  | regs hregs => exact .inl hregs.sameBytes
  | quit a b _ e => subst e; exact .inl fun _ => rfl
  | fatal c _ e => subst e; exact .inl fun _ => rfl
  | store x y z hi hn e => exact .inr ⟨x, y, z, hi, hn, State.memWrite_outside e⟩
  | read a0 a1 a2 r u hi =>
    rcases hi with ⟨a3, a4, a5, hi⟩ | ⟨k, a3, a4, a5, hi⟩
    · exact absurd hi (hread a0 a1 a2 a3 a4 a5 r)
    · exact absurd hi (hsys k a0 a1 a2 a3 a4 a5 r)
  | alloc x hd p l _ _ hi => exact absurd hi (ha x hd p l)
  | dealloc x _ hi => exact absurd hi (hd x)

/-- Settles O54: the bytes by `exec_bytes`, the table and the regions by `exec_sameTable`. -/
theorem onlyStoresChangeMemory : Obligations.OnlyStoresChangeMemory := by
  refine ⟨fun i s t h hr2b hread hsys ha hd => ?_, fun s t src count addrDst h => ?_, fun i s t => exec_sameTable⟩
  · rcases exec_bytes h hread hsys ha hd with hsame | ⟨x, y, z, hi, -⟩
    · exact hsame
    · exact absurd hi (hr2b x y z)
  · rcases exec_bytes h nofun nofun nofun nofun with hsame | ⟨_, _, _, hi, hn, hout⟩
    · exact fun a _ => hsame a.toNat
    · cases hi
      rwa [if_pos hn]

/-! ## Transfers that stop -/

/-- A load of 1 to 8 bytes stops where one of them is unmapped (`43_buffer_transfer.md` R160). -/
theorem execB2r_unmapped {s : State} {x c d : Reg} (hn : s.transferCount c ≤ maxTransfer)
    (hu : s.meetsUnmapped (s.effectiveAddr x) (s.transferCount c)) :
    execB2r x c d s = .fault (.unmappedAccess (s.effectiveAddr x) (s.transferCount c)) := by
  unfold execB2r
  simp only [if_pos hn, State.memRead_eq_none.2 hu]

/-- A store of 1 to 8 bytes stops where one of them is unmapped (`43_buffer_transfer.md` R161). -/
theorem execR2b_unmapped {s : State} {x c d : Reg} (hn : s.transferCount c ≤ maxTransfer)
    (hu : s.meetsUnmapped (s.effectiveAddr d) (s.transferCount c)) :
    execR2b x c d s = .fault (.unmappedAccess (s.effectiveAddr d) (s.transferCount c)) := by
  unfold execR2b
  simp only [if_pos hn, State.memWrite_eq_none.2 hu]

/-- Settles O23: each transfer makes its access at once, and an access that meets an unmapped byte gives nothing. -/
theorem unmappedTransferStops : Obligations.UnmappedTransferStops :=
  fun _ _ _ _ hn => ⟨execB2r_unmapped hn, execR2b_unmapped hn⟩

/-! ## Fetches that stop -/

/-- The nine IDs differ, so each names its opcode (`30_encoding.md` R84). -/
theorem opcodeOfId_opc (o : Opcode) : opcodeOfId (config.opc o) = some o := by
  cases o <;> rfl

/-- The read of the ID is the first access of a fetch. -/
theorem fetch_unmappedId {s : State} (hu : s.meetsUnmapped (s.reg ipReg) 2) :
    fetch s = .stop (.unmappedAccess (s.reg ipReg) 2) := by
  unfold fetch
  simp only [State.memRead_eq_none.2 hu]

/-- The read of the parameter bytes is the second one, made once the ID has named an opcode. -/
theorem fetch_unmappedParams {s : State} {o : Opcode} (hid : s.memRead (s.reg ipReg) 2 = some (config.opc o).toNat)
    (hu : s.meetsUnmapped (s.reg ipReg + 2) (opcodeStride o - 2)) :
    fetch s = .stop (.unmappedAccess (s.reg ipReg + 2) (opcodeStride o - 2)) := by
  unfold fetch
  simp only [hid, BitVec.ofNat_toNat, BitVec.setWidth_eq, opcodeOfId_opc, State.loadBytes_eq_none.2 hu]

/-- A fetch that stops is the step's answer. -/
theorem step_of_fetch_stop {s : State} {f : Fault} (hr : s.runState = .running) (hf : fetch s = .stop f) :
    step s = .fault f := by
  unfold step
  simp only [hr, hf]

/-- Settles O8: the fetch stops at its first or its second access, and the step with it. -/
theorem unmappedFetchStops : Obligations.UnmappedFetchStops :=
  fun _ hr => ⟨fun hu => step_of_fetch_stop hr (fetch_unmappedId hu),
    fun _ hid hu => step_of_fetch_stop hr (fetch_unmappedParams hid hu)⟩

end Sys2Proof.Machine
end

section
/-! PROOFS. The decoder and the encoder are inverse to each other, and the selector of an indirect Operate picks the operation
(`30_encoding.md`). -/

namespace Sys2Proof.Machine

/-! ## Selecting by number -/

/-- The fifteen selector values differ, so each names its operation (`44_operate.md` R176). -/
theorem aluOfSelector_alu (o : AluOp) : aluOfSelector ((config.alu o).setWidth 64) = some o := by
  cases o <;> rfl

theorem alu_of_aluOfSelector {sel : Word} {o : AluOp} (h : aluOfSelector sel = some o) :
    (config.alu o).setWidth 64 = sel := by
  have hp := List.find?_some h
  exact eq_of_beq hp

/-- A selector byte is compared as a word, which loses nothing (`44_operate.md` R175). -/
theorem alu_of_aluOfSelector_byte {sel : Byte} {o : AluOp} (h : aluOfSelector (sel.setWidth 64) = some o) :
    config.alu o = sel := by
  simpa using congrArg (BitVec.setWidth 8) (alu_of_aluOfSelector h)

/-- The six Numbers differ, so each names its host operation (`45_syscall.md` R211). -/
theorem sysOfNumber_sys (o : SysOp) : sysOfNumber (config.sys o) = some o := by
  cases o <;> rfl

theorem sys_of_sysOfNumber {k : Byte} {o : SysOp} (h : sysOfNumber k = some o) : config.sys o = k := by
  have hp := List.find?_some h
  exact eq_of_beq hp

theorem opc_of_opcodeOfId {id : BitVec 16} {o : Opcode} (h : opcodeOfId id = some o) : config.opc o = id := by
  have hp := List.find?_some h
  exact eq_of_beq hp

/-! ## Fields -/

@[simp] theorem regOfByte_byteOfReg (r : Reg) : regOfByte (byteOfReg r) = r := by
  have := r.isLt
  apply Fin.ext
  simp only [regOfByte, byteOfReg, BitVec.toNat_ofNat]
  omega

@[simp] theorem byteOfReg_regOfByte (b : Byte) : byteOfReg (regOfByte b) = b := by
  simp [byteOfReg, regOfByte]

/-- A word is its eight bytes (`20_memory.md` R52, R53). -/
theorem ofNat_leNat_leBytes (v : Word) : BitVec.ofNat 64 (leNat (leBytes 8 v.toNat)) = v := by
  rw [leNat_leBytes, show 256 ^ 8 = 2 ^ 64 by decide, Nat.mod_eq_of_lt v.toNat_lt, BitVec.ofNat_toNat, BitVec.setWidth_eq]

theorem leBytes_toNat_ofNat_leNat {bs : List Byte} (h : bs.length = 8) :
    leBytes 8 (BitVec.ofNat 64 (leNat bs)).toNat = bs := by
  have hlt : leNat bs < 2 ^ 64 := by simpa [h] using leNat_lt bs
  rw [BitVec.toNat_ofNat, Nat.mod_eq_of_lt hlt, ← h, leBytes_leNat]

/-- A list is that of its entries. -/
theorem map_getD_range {bs : List Byte} {n : Nat} (h : bs.length = n) : (List.range n).map (fun k => bs.getD k 0) = bs := by
  subst h
  apply List.ext_getElem <;> simp +contextual

/-! ## Operate by its Mode byte (`30_encoding.md` R96)

The two flags of a Mode byte tell its form: they fix the bits that the form fixes, and the others are Mode's own. -/

theorem modeAlwaysDirect_iff {mode : Byte} :
    modeAlwaysDirect (mode.setWidth 6) = mode ↔ modeAlways mode = true ∧ modeIndirect mode = false := by
  simp only [modeAlways, modeIndirect, modeAlwaysDirect]
  grind

theorem modeAlwaysIndirect_iff {mode : Byte} :
    modeAlwaysIndirect (mode.setWidth 7) = mode ↔ modeAlways mode = true ∧ modeIndirect mode = true := by
  simp only [modeAlways, modeIndirect, modeAlwaysIndirect]
  grind

theorem modeIfDirect_iff {mode : Byte} :
    modeIfDirect (mode.setWidth 5) = mode ↔ modeAlways mode = false ∧ modeIndirect mode = false := by
  simp only [modeAlways, modeIndirect, modeIfDirect]
  grind

theorem modeIfIndirect_iff {mode : Byte} :
    modeIfIndirect (mode.setWidth 5) = mode ↔ modeAlways mode = false ∧ modeIndirect mode = true := by
  simp only [modeAlways, modeIndirect, modeIfIndirect]
  grind

/-- The four forms are all there are. -/
theorem mode_cases (mode : Byte) :
    (∃ m, modeAlwaysDirect m = mode) ∨ (∃ m, modeAlwaysIndirect m = mode) ∨
      (∃ n, modeIfDirect n = mode) ∨ ∃ n, modeIfIndirect n = mode := by
  cases ha : modeAlways mode <;> cases hi : modeIndirect mode
  · exact .inr (.inr (.inl ⟨_, modeIfDirect_iff.2 ⟨ha, hi⟩⟩))
  · exact .inr (.inr (.inr ⟨_, modeIfIndirect_iff.2 ⟨ha, hi⟩⟩))
  · exact .inl ⟨_, modeAlwaysDirect_iff.2 ⟨ha, hi⟩⟩
  · exact .inr (.inl ⟨_, modeAlwaysIndirect_iff.2 ⟨ha, hi⟩⟩)

section
variable {f a b d : Reg} {sel : Byte}

theorem decodeOperate_modeAlwaysDirect (m : BitVec 6) :
    decodeOperate f (modeAlwaysDirect m) sel a b d =
      (aluOfSelector (sel.setWidth 64)).elim (.op f m sel a b d) (instrOfAlu · f m a b d) := by
  have hm : (modeAlwaysDirect m).setWidth 6 = m := BitVec.setWidth_append_eq_right
  obtain ⟨ha, hi⟩ := modeAlwaysDirect_iff.1 (congrArg modeAlwaysDirect hm)
  simp only [decodeOperate, ha, hi, hm]
  cases aluOfSelector (sel.setWidth 64) <;> rfl

theorem decodeOperate_modeAlwaysIndirect (m : BitVec 7) :
    decodeOperate f (modeAlwaysIndirect m) sel a b d = .opInd f m (regOfByte sel) a b d := by
  have hm : (modeAlwaysIndirect m).setWidth 7 = m := BitVec.setWidth_append_eq_right
  obtain ⟨ha, hi⟩ := modeAlwaysIndirect_iff.1 (congrArg modeAlwaysIndirect hm)
  simp [decodeOperate, ha, hi, hm]

theorem decodeOperate_modeIfDirect (n : BitVec 5) :
    decodeOperate f (modeIfDirect n) sel a b d =
      (aluOfSelector (sel.setWidth 64)).elim (.opIf f n sel a b d) (instrOfAluIf · f n a b d) := by
  have hn : (modeIfDirect n).setWidth 5 = n := BitVec.setWidth_append_eq_right
  obtain ⟨ha, hi⟩ := modeIfDirect_iff.1 (congrArg modeIfDirect hn)
  simp only [decodeOperate, ha, hi, hn]
  cases aluOfSelector (sel.setWidth 64) <;> rfl

theorem decodeOperate_modeIfIndirect (n : BitVec 5) :
    decodeOperate f (modeIfIndirect n) sel a b d = .opIfInd f n (regOfByte sel) a b d := by
  have hn : (modeIfIndirect n).setWidth 5 = n := BitVec.setWidth_append_eq_right
  obtain ⟨ha, hi⟩ := modeIfIndirect_iff.1 (congrArg modeIfIndirect hn)
  simp [decodeOperate, ha, hi, hn]

end

/-! ## Decoding what is encoded -/

theorem encodeId_append_drop (i : Instr) : encodeId (instrOpcode i) ++ (encode i).drop 2 = encode i := by
  cases i <;> rfl

/-- The parameter bytes stand after the two of the ID (`30_encoding.md` R80). -/
@[simp] theorem drop_encodeId_append (o : Opcode) (ps : List Byte) : (encodeId o ++ ps).drop 2 = ps := rfl

section
variable {f a b d a0 a1 a2 a3 a4 a5 r : Reg} {m : BitVec 6} {n : BitVec 5} {mode sel k : Byte}

theorem decodeParams_encodeOperate :
    decodeParams .op ((encodeOperate f mode sel a b d).drop 2) = decodeOperate f mode sel a b d := by
  simp [decodeParams, encodeOperate]

theorem decodeParams_encodeSyscall :
    decodeParams .sys ((encodeSyscall k a0 a1 a2 a3 a4 a5 r).drop 2) = decodeSyscall k a0 a1 a2 a3 a4 a5 r := by
  simp [decodeParams, encodeSyscall]

theorem decodeParams_alu (o : AluOp) :
    decodeParams .op ((encodeOperate f (modeAlwaysDirect m) (config.alu o) a b d).drop 2) = instrOfAlu o f m a b d := by
  rw [decodeParams_encodeOperate, decodeOperate_modeAlwaysDirect, aluOfSelector_alu]
  rfl

theorem decodeParams_aluIf (o : AluOp) :
    decodeParams .op ((encodeOperate f (modeIfDirect n) (config.alu o) a b d).drop 2) = instrOfAluIf o f n a b d := by
  rw [decodeParams_encodeOperate, decodeOperate_modeIfDirect, aluOfSelector_alu]
  rfl

theorem decodeParams_sys (o : SysOp) :
    decodeParams .sys ((encodeSyscall (config.sys o) a0 a1 a2 a3 a4 a5 r).drop 2) = instrOfSys o a0 a1 a2 a3 a4 a5 r := by
  rw [decodeParams_encodeSyscall, decodeSyscall, sysOfNumber_sys]

end

/-- The parameter bytes of an instruction decode to it (`30_encoding.md` R86 to R94). -/
theorem decodeParams_encode {i : Instr} (h : WellFormed i) : decodeParams (instrOpcode i) ((encode i).drop 2) = i := by
  cases i with
  | quit | alloc | dealloc | b2r | r2r | r2b => simp [decodeParams, instrOpcode, encode]
  | wr => simp [decodeParams, instrOpcode, encode, ofNat_leNat_leBytes]
  | op f m sel a b d =>
    have hsel : aluOfSelector (sel.setWidth 64) = none := Option.isNone_iff_eq_none.1 h
    exact decodeParams_encodeOperate.trans (by rw [decodeOperate_modeAlwaysDirect, hsel]; rfl)
  | opIf f n sel a b d =>
    have hsel : aluOfSelector (sel.setWidth 64) = none := Option.isNone_iff_eq_none.1 h
    exact decodeParams_encodeOperate.trans (by rw [decodeOperate_modeIfDirect, hsel]; rfl)
  | opInd => exact decodeParams_encodeOperate.trans (by rw [decodeOperate_modeAlwaysIndirect, regOfByte_byteOfReg])
  | opIfInd => exact decodeParams_encodeOperate.trans (by rw [decodeOperate_modeIfIndirect, regOfByte_byteOfReg])
  | opShr | opShl | opNot | opAnd | opOr | opXor | opAdd | opSub | opMul | opDiv | opMod | opLt | opLe | opGt | opGe =>
    exact decodeParams_alu _
  | opShrIf | opShlIf | opNotIf | opAndIf | opOrIf | opXorIf | opAddIf | opSubIf | opMulIf | opDivIf | opModIf | opLtIf
  | opLeIf | opGtIf | opGeIf => exact decodeParams_aluIf _
  | sys k =>
    have hk : sysOfNumber k = none := Option.isNone_iff_eq_none.1 h
    exact decodeParams_encodeSyscall.trans (by rw [decodeSyscall, hk])
  | sysRead | sysWrite | sysOpen | sysClose | sysStat | sysFstat => exact decodeParams_sys _

/-! ## Encoding what is decoded -/

section
variable (f a b d a0 a1 a2 a3 a4 a5 r : Reg)

theorem wf_encode_instrOfAlu (o : AluOp) (m : BitVec 6) :
    WellFormed (instrOfAlu o f m a b d) ∧
      encode (instrOfAlu o f m a b d) = encodeOperate f (modeAlwaysDirect m) (config.alu o) a b d := by
  cases o <;> exact ⟨rfl, rfl⟩

theorem wf_encode_instrOfAluIf (o : AluOp) (n : BitVec 5) :
    WellFormed (instrOfAluIf o f n a b d) ∧
      encode (instrOfAluIf o f n a b d) = encodeOperate f (modeIfDirect n) (config.alu o) a b d := by
  cases o <;> exact ⟨rfl, rfl⟩

theorem wf_encode_instrOfSys (o : SysOp) :
    WellFormed (instrOfSys o a0 a1 a2 a3 a4 a5 r) ∧
      encode (instrOfSys o a0 a1 a2 a3 a4 a5 r) = encodeSyscall (config.sys o) a0 a1 a2 a3 a4 a5 r := by
  cases o <;> exact ⟨rfl, rfl⟩

/-- Operate keeps its bytes, the ignored bits of Mode among them (`30_encoding.md` R100). -/
theorem wf_encode_decodeOperate (mode sel : Byte) :
    WellFormed (decodeOperate f mode sel a b d) ∧
      encode (decodeOperate f mode sel a b d) = encodeOperate f mode sel a b d := by
  rcases mode_cases mode with ⟨m, rfl⟩ | ⟨m, rfl⟩ | ⟨n, rfl⟩ | ⟨n, rfl⟩
  · rw [decodeOperate_modeAlwaysDirect]
    cases h : aluOfSelector (sel.setWidth 64) with
    | none => exact ⟨Option.isNone_iff_eq_none.2 h, rfl⟩
    | some o => exact alu_of_aluOfSelector_byte h ▸ wf_encode_instrOfAlu f a b d o m
  · rw [decodeOperate_modeAlwaysIndirect, encode, byteOfReg_regOfByte]
    exact ⟨rfl, rfl⟩
  · rw [decodeOperate_modeIfDirect]
    cases h : aluOfSelector (sel.setWidth 64) with
    | none => exact ⟨Option.isNone_iff_eq_none.2 h, rfl⟩
    | some o => exact alu_of_aluOfSelector_byte h ▸ wf_encode_instrOfAluIf f a b d o n
  · rw [decodeOperate_modeIfIndirect, encode, byteOfReg_regOfByte]
    exact ⟨rfl, rfl⟩

theorem wf_encode_decodeSyscall (k : Byte) :
    WellFormed (decodeSyscall k a0 a1 a2 a3 a4 a5 r) ∧
      encode (decodeSyscall k a0 a1 a2 a3 a4 a5 r) = encodeSyscall k a0 a1 a2 a3 a4 a5 r := by
  unfold decodeSyscall
  split
  · next o h => exact sys_of_sysOfNumber h ▸ wf_encode_instrOfSys a0 a1 a2 a3 a4 a5 r o
  · next h => exact ⟨Option.isNone_iff_eq_none.2 h, rfl⟩

end

/-- Decoding drops no parameter byte (`30_encoding.md` R86 to R94). -/
theorem wf_encode_decodeParams {o : Opcode} {ps : List Byte} (h : ps.length = opcodeStride o - 2) :
    WellFormed (decodeParams o ps) ∧ encode (decodeParams o ps) = encodeId o ++ ps := by
  have hps : encodeId o ++ (List.range (opcodeStride o - 2)).map (fun k => ps.getD k 0) = encodeId o ++ ps := by
    rw [map_getD_range h]
  cases o with
  | quit | alloc | dealloc | b2r | r2r | r2b =>
    refine ⟨rfl, .trans ?_ hps⟩
    simp only [decodeParams, encode, byteOfReg_regOfByte]
    rfl
  | wr =>
    obtain ⟨d, vs, rfl⟩ := List.exists_cons_of_length_eq_add_one h
    have hvs : vs.length = 8 := Nat.succ.inj h
    exact ⟨rfl, by simp [decodeParams, encode, -BitVec.toNat_ofNat, leBytes_toNat_ofNat_leNat hvs]⟩
  | op =>
    obtain ⟨hw, he⟩ := wf_encode_decodeOperate (regOfByte (ps.getD 0 0)) (regOfByte (ps.getD 3 0))
      (regOfByte (ps.getD 4 0)) (regOfByte (ps.getD 5 0)) (ps.getD 1 0) (ps.getD 2 0)
    refine ⟨hw, he.trans (.trans ?_ hps)⟩
    simp only [encodeOperate, byteOfReg_regOfByte]
    rfl
  | sys =>
    obtain ⟨hw, he⟩ := wf_encode_decodeSyscall (regOfByte (ps.getD 1 0)) (regOfByte (ps.getD 2 0)) (regOfByte (ps.getD 3 0))
      (regOfByte (ps.getD 4 0)) (regOfByte (ps.getD 5 0)) (regOfByte (ps.getD 6 0)) (regOfByte (ps.getD 7 0)) (ps.getD 0 0)
    refine ⟨hw, he.trans (.trans ?_ hps)⟩
    simp only [encodeSyscall, byteOfReg_regOfByte]
    rfl

/-! ## The byte list -/

/-- The two bytes of an ID (`30_encoding.md` R80). -/
theorem toNat_idOfBytes (b0 b1 : Byte) : (idOfBytes b0 b1).toNat = leNat [b0, b1] := by
  have happ : (idOfBytes b0 b1).toNat = b1.toNat <<< 8 ||| b0.toNat := BitVec.toNat_append b1 b0
  rw [happ, ← Nat.shiftLeft_add_eq_or_of_lt b0.isLt, Nat.shiftLeft_eq]
  simp only [leNat]
  omega

theorem encodeId_eq_iff {o : Opcode} {b0 b1 : Byte} : encodeId o = [b0, b1] ↔ opcodeOfId (idOfBytes b0 b1) = some o := by
  constructor
  · intro h
    cases o <;> (cases h; rfl)
  · intro h
    rw [encodeId, opc_of_opcodeOfId h, toNat_idOfBytes, bytesOfNat_eq]
    exact leBytes_leNat [b0, b1]

/-- What the decoder reads: an ID, as many parameter bytes as its stride asks for, and the rest (`30_encoding.md` R80, R82). -/
theorem decode_eq_ok_iff {bs rest : List Byte} {i : Instr} :
    decode bs = .ok i rest ↔
      ∃ o ps, ps.length = opcodeStride o - 2 ∧ decodeParams o ps = i ∧ encodeId o ++ ps ++ rest = bs := by
  constructor
  · intro h
    unfold decode at h
    split at h
    · next b0 b1 tl =>
      split at h
      · cases h
      · next o ho =>
        split at h
        · cases h
        · next hl =>
          cases h
          refine ⟨o, tl.take (opcodeStride o - 2), List.length_take_of_le (by omega), rfl, ?_⟩
          rw [encodeId_eq_iff.2 ho, List.append_assoc, List.take_append_drop]
          rfl
    · cases h
  · rintro ⟨o, ps, hl, rfl, rfl⟩
    obtain ⟨b0, b1, hid⟩ : ∃ b0 b1, encodeId o = [b0, b1] := List.length_eq_two.1 (leBytes_length 2 _)
    have ho := encodeId_eq_iff.1 hid
    simp only [hid, decode, List.cons_append, List.nil_append, ho]
    simp [← hl]

/-- Settles O10: the encoding is an ID and parameter bytes that decode to the instruction. -/
theorem decodeOfEncodeIsTheInstruction : Obligations.DecodeOfEncodeIsTheInstruction := by
  intro i rest h
  refine decode_eq_ok_iff.2 ⟨instrOpcode i, (encode i).drop 2, ?_, decodeParams_encode h, ?_⟩
  · rw [List.length_drop, encode_length]
  · rw [encodeId_append_drop]

/-- Settles O11: the bytes read are an ID and parameter bytes, and encoding gives back both. -/
theorem encodeOfDecodeIsTheBytes : Obligations.EncodeOfDecodeIsTheBytes := by
  intro bs rest i h
  obtain ⟨o, ps, hl, rfl, rfl⟩ := decode_eq_ok_iff.1 h
  obtain ⟨hw, he⟩ := wf_encode_decodeParams hl
  exact ⟨hw, by rw [he]⟩

/-! ## The selector in a register (`30_encoding.md` R97) -/

section
variable {o : AluOp} {f sel a b d : Reg} {n : BitVec 5} {s : State}

theorem exec_instrOfAlu (m : BitVec 6) : exec (instrOfAlu o f m a b d) s = applyAlu o a b d s := by
  cases o <;> rfl

/-- A gate that passes leaves the effect as it is (`44_operate.md` R173). -/
theorem gated_of_passes {e : State → Result} (hg : (s.reg f).getLsbD n.toNat = true) : gated f n e s = e s :=
  if_pos hg

theorem exec_instrOfAluIf (hg : (s.reg f).getLsbD n.toNat = true) :
    exec (instrOfAluIf o f n a b d) s = applyAlu o a b d s := by
  refine .trans ?_ (gated_of_passes hg)
  cases o <;> rfl

theorem exec_opInd (m : BitVec 7) (hsel : s.reg sel = (config.alu o).setWidth 64) :
    exec (.opInd f m sel a b d) s = applyAlu o a b d s := by
  rw [exec, execOpInd, State.indirectSelector, hsel, applySelector, aluOfSelector_alu]

theorem exec_opIfInd (hsel : s.reg sel = (config.alu o).setWidth 64) (hg : (s.reg f).getLsbD n.toNat = true) :
    exec (.opIfInd f n sel a b d) s = applyAlu o a b d s := by
  rw [exec, execOpIfInd, gated_of_passes hg, State.indirectSelector, hsel, applySelector, aluOfSelector_alu]

/-- An operation that has a result writes it to Dst and does nothing else (`44_operate.md` R171). -/
theorem applyAlu_value {v : Word} (h : aluResult o (s.reg a) (s.reg b) = .value v) :
    ∃ t, applyAlu o a b d s = .next t ∧ WritesOnly d v s t :=
  ⟨_, by rw [applyAlu, h], onlyRegs_setReg s d v⟩

end

/-- Settles O41: both indirect forms come to `applyAlu` of the operation, as the direct forms do. -/
theorem indirectSelectorPicksTheOperation : Obligations.IndirectSelectorPicksTheOperation := by
  intro s o f sel a b d m n hsel
  refine ⟨fun f' m' => ?_, fun v hv => ?_, fun hg => ⟨?_, fun v hv => ?_⟩⟩
  · rw [exec_opInd m hsel, exec_instrOfAlu]
  · rw [CompletesWriting, exec_opInd m hsel]
    exact applyAlu_value hv
  · rw [exec_opIfInd hsel hg, exec_instrOfAluIf hg]
  · rw [CompletesWriting, exec_opIfInd hsel hg]
    exact applyAlu_value hv

end Sys2Proof.Machine
end

section
/-! PROOFS. The cycle (`40_fetch_dispatch_quit.md`): what a fetch reads, the step at an instruction and at an unrecognised ID,
Quit, and the jumps that a write to r0 makes. -/

namespace Sys2Proof.Machine

/-! ## What a fetch reads -/

/-- The run of bytes that a load gives can be cut anywhere. -/
theorem State.loadBytes_append {s : State} {a : Word} {n : Nat} {xs ys : List Byte} (h : s.loadBytes a n = some (xs ++ ys)) :
    s.loadBytes a xs.length = some xs ∧ s.loadBytes (a + BitVec.ofNat 64 xs.length) ys.length = some ys := by
  obtain ⟨hl, -⟩ := State.loadBytes_spec.1 h
  obtain rfl : xs.length + ys.length = n := by simpa using hl
  rw [State.loadBytes_add] at h
  obtain ⟨xs', hx, h⟩ := Option.bind_eq_some_iff.1 h
  obtain ⟨ys', hy, h⟩ := Option.map_eq_some_iff.1 h
  obtain ⟨rfl, rfl⟩ := List.append_inj h (State.loadBytes_spec.1 hx).1
  exact ⟨hx, hy⟩

theorem State.memRead_of_loadBytes {s : State} {a : Word} {n : Nat} {bs : List Byte} (h : s.loadBytes a n = some bs) :
    s.memRead a n = some (leNat bs) := by
  rw [State.memRead, h]; rfl

theorem State.memRead_lt {s : State} {a : Word} {n v : Nat} (h : s.memRead a n = some v) : v < 256 ^ n := by
  unfold State.memRead at h
  split at h
  · cases h
  · next bs hb =>
    cases h
    exact (State.loadBytes_spec.1 hb).1 ▸ leNat_lt bs

theorem ofNat_leNat_encodeId (o : Opcode) : BitVec.ofNat 16 (leNat (encodeId o)) = config.opc o := by
  cases o <;> rfl

/-- An ID is unrecognised if it is none of the nine (`40_fetch_dispatch_quit.md` R112). -/
theorem opcodeOfId_eq_none {id : BitVec 16} (h : ∀ o, config.opc o ≠ id) : opcodeOfId id = none :=
  Option.eq_none_iff_forall_ne_some.2 fun o ho => h o (opc_of_opcodeOfId ho)

/-- Where an ID and its parameter bytes stand at r0, the fetch gives the instruction they spell
(`40_fetch_dispatch_quit.md` R111 to R113). -/
theorem fetch_of_loadBytes {s : State} {n : Nat} {o : Opcode} {ps : List Byte}
    (hs : s.loadBytes (s.reg ipReg) n = some (encodeId o ++ ps)) (hl : ps.length = opcodeStride o - 2) :
    fetch s = .instr (decodeParams o ps) o (s.decoded (config.opc o) o ps) := by
  obtain ⟨hid, hps⟩ := State.loadBytes_append hs
  have hid : s.memRead (s.reg ipReg) 2 = some (leNat (encodeId o)) := State.memRead_of_loadBytes hid
  have hps : s.loadBytes (s.reg ipReg + 2) (opcodeStride o - 2) = some ps := hl ▸ hps
  unfold fetch
  simp only [hid, ofNat_leNat_encodeId, opcodeOfId_opc, hps]

theorem fetch_of_unrecognised {s : State} {v : Nat} (hid : s.memRead (s.reg ipReg) 2 = some v)
    (ho : opcodeOfId (BitVec.ofNat 16 v) = none) : fetch s = .unrecognised (s.fetched (BitVec.ofNat 16 v)) := by
  unfold fetch
  simp only [hid, ho]

/-! ## Phase 5 -/

theorem State.retire_of_running {t : State} (h : t.runState = .running) (n : Nat) : t.retire n = t.advance n :=
  if_pos h

/-- Phase 5 is left out once the machine has ended (`40_fetch_dispatch_quit.md` R115, D12). -/
theorem State.retire_of_ended {t : State} (h : t.runState ≠ .running) (n : Nat) : t.retire n = t :=
  if_neg h

/-- The stride is added to r0 as the effect left it (`40_fetch_dispatch_quit.md` R115). -/
theorem writesOnly_advance (t : State) (n : Nat) : WritesOnly ipReg (t.reg ipReg + BitVec.ofNat 64 n) t (t.advance n) :=
  onlyRegs_setReg ..

theorem State.reg_zero_retire {t : State} (h : t.runState = .running) (n : Nat) :
    (t.retire n).reg 0 = t.reg 0 + BitVec.ofNat 64 n := by
  rw [State.retire_of_running h]
  exact (writesOnly_advance t n).1

/-! ## The step -/

theorem step_of_fetch_instr {s u : State} {i : Instr} {o : Opcode} (hr : s.runState = .running)
    (hf : fetch s = .instr i o u) : step s = retire (opcodeStride o) (exec i u) := by
  unfold step
  simp only [hr, hf]

theorem step_of_fetch_unrecognised {s u : State} (hr : s.runState = .running) (hf : fetch s = .unrecognised u) :
    step s = .next (u.fatal .unimplementedOpcode) := by
  unfold step
  simp only [hr, hf]

/-- Settles O5: the bytes that decode are an ID and its parameters, which the fetch reads one after the other. -/
theorem stepRunsTheDecodedInstruction : Obligations.StepRunsTheDecodedInstruction := by
  refine ⟨fun s n bs i hr hs hd => ?_, fun t n => ⟨rfl, fun hr => ?_, fun hr => State.retire_of_ended hr n⟩, fun _ _ => rfl⟩
  · obtain ⟨o, ps, hl, rfl, rfl⟩ := decode_eq_ok_iff.1 hd
    rw [List.append_nil] at hs ⊢
    have hid : (encodeId o ++ ps).take 2 = encodeId o := List.take_left' (leBytes_length 2 _)
    rw [step_of_fetch_instr hr (fetch_of_loadBytes hs hl), instrOpcode_decodeParams, hid, ofNat_leNat_encodeId,
      drop_encodeId_append]
  · rw [State.retire_of_running hr]
    exact writesOnly_advance t n

/-- Settles O6: the fetch ends with phase 1, of which r1 and the scratch registers are all that is left, and the fault changes
no register. -/
theorem unrecognisedOpcodeFaults : Obligations.UnrecognisedOpcodeFaults := by
  intro s v hr hv ho
  have hstep := step_of_fetch_unrecognised hr (fetch_of_unrecognised hv (opcodeOfId_eq_none ho))
  have hreg := s.reg_fetched (BitVec.ofNat 16 v)
  have hid : (BitVec.ofNat 16 v).setWidth 64 = BitVec.ofNat 64 v := by
    have := State.memRead_lt hv
    apply BitVec.eq_of_toNat_eq
    simp only [BitVec.toNat_setWidth, BitVec.toNat_ofNat]
    omega
  obtain ⟨rs, hframe⟩ := s.fetched_frame (BitVec.ofNat 16 v)
  refine ⟨_, hstep, rfl, rfl, rfl, hreg 0, (hreg 1).trans hid, fun r h2 h9 => ?_, fun r h10 => ?_, ?_⟩
  · have h1 : r ≠ 1 := by rintro rfl; simp at h2
    exact (hreg r).trans (by rw [if_neg h1, if_pos (by omega)])
  · have h1 : r ≠ 1 := by rintro rfl; simp at h10
    exact (hreg r).trans (by rw [if_neg h1, if_neg (by omega)])
  · rw [hframe]
    exact ⟨fun _ => rfl, fun _ => rfl, rfl⟩

/-! ## The step where an instruction stands -/

section
variable {s t : State} {i : Instr}

/-- A well-formed instruction at r0 is the one the step executes (`40_fetch_dispatch_quit.md` R116). -/
theorem step_of_standsAt (hw : WellFormed i) (h : s.standsAt i) :
    step s = retire (opcodeStride (instrOpcode i)) (exec i (s.executing i)) := by
  obtain ⟨hr, hs⟩ := h
  rw [← encodeId_append_drop i] at hs
  have hl : ((encode i).drop 2).length = opcodeStride (instrOpcode i) - 2 := by rw [List.length_drop, encode_length]
  have hf := fetch_of_loadBytes hs hl
  rw [decodeParams_encode hw] at hf
  exact step_of_fetch_instr hr hf

theorem step_next_of_standsAt (hw : WellFormed i) (h : s.standsAt i) (he : exec i (s.executing i) = .next t) :
    step s = .next (t.retire (opcodeStride (instrOpcode i))) := by
  rw [step_of_standsAt hw h, he]; rfl

/-- Phases 1 to 3 leave r0 and r10 to r255 alone (`40_fetch_dispatch_quit.md` R113). -/
theorem State.reg_executing_unloaded {r : Reg} (hr : r.val = 0 ∨ 10 ≤ r.val) : (s.executing i).reg r = s.reg r := by
  obtain ⟨-, -, hregs, -⟩ := cycleLoadsIdAndParameters.1 s i
  exact hregs r hr

theorem State.executing_runState : (s.executing i).runState = s.runState := by
  obtain ⟨-, -, -, -, -, hrun, -⟩ := cycleLoadsIdAndParameters.1 s i
  exact hrun

/-- An instruction that leaves the machine Running goes on from r0 as its effect left it (`40_fetch_dispatch_quit.md` R115,
R118). -/
theorem step_reg_zero (hw : WellFormed i) (h : s.standsAt i) (he : exec i (s.executing i) = .next t)
    (ht : t.runState = (s.executing i).runState) :
    ∃ u, step s = .next u ∧ u.reg 0 = t.reg 0 + BitVec.ofNat 64 (opcodeStride (instrOpcode i)) :=
  ⟨_, step_next_of_standsAt hw h he, State.reg_zero_retire (ht.trans (State.executing_runState.trans h.1)) _⟩

end

/-! ## Quit -/

theorem exec_quit (a b : Reg) (s : State) :
    exec (.quit a b) s = .next (s.conclude .halted { data := s.reg a, length := s.reg b } .noError) :=
  rfl

/-- Settles O15: Quit only concludes the run, so phase 5 is left out and r0 stays. -/
theorem quitHaltsWithItsOutput : Obligations.QuitHaltsWithItsOutput := by
  refine ⟨fun s a b => ⟨_, exec_quit a b s, rfl, rfl, rfl, fun _ _ => rfl, fun _ => rfl, fun _ => rfl, rfl⟩,
    fun s a b h => ?_⟩
  have hstep := step_next_of_standsAt rfl h (exec_quit a b _)
  rw [State.retire_of_ended (by simp)] at hstep
  refine ⟨_, hstep, rfl, ?_, rfl⟩
  rw [State.conclude_reg, State.reg_executing_unloaded (.inl rfl)]

/-! ## Jumps -/

theorem exec_opAdd (f a b d : Reg) (m : BitVec 6) (s : State) :
    exec (.opAdd f m a b d) s = .next (s.setReg d (s.reg a + s.reg b)) :=
  rfl

theorem exec_opAddIf (f a b d : Reg) (n : BitVec 5) (s : State) :
    exec (.opAddIf f n a b d) s =
      .next (if (s.reg f).getLsbD n.toNat then s.setReg d (s.reg a + s.reg b) else s) :=
  (apply_ite Host.Outcome.next _ _ _).symm

/-- A soft error while ERRSEL is 0 writes its code to r0 (`60_exceptions.md` R236). -/
theorem softError_errSel_zero {code : ErrorCode} {s : State} (h : s.reg errSelReg = 0) :
    softError code s = .next (s.setReg 0 (config.err code)) := by
  have h0 : (s.reg errSelReg).toNat = 0 := by rw [h]; rfl
  simp only [softError, h0]
  rfl

/-- The size check comes before the load (`43_buffer_transfer.md` R160). -/
theorem exec_b2r_oversized {s : State} (x d : Reg) {c : Reg} (hn : 8 < (s.reg c).toNat) :
    exec (.b2r x c d) s = softError .invalidTransferSize s :=
  if_neg (Nat.not_le.2 hn)

/-- Settles O57: each effect leaves r0 as its own equation says, and the advance follows by `step_reg_zero`. -/
theorem writesToR0AreJumps : Obligations.WritesToR0AreJumps := by
  refine ⟨fun s f off m hoff h => ?_, fun s f off n hf hoff h => ?_, fun s x count y hc hn he h => ?_⟩
  · obtain ⟨u, hu, h0⟩ := step_reg_zero rfl h (exec_opAdd ..) (State.setReg_runState ..)
    rw [State.reg_setReg_same, State.reg_executing_unloaded (.inl rfl), State.reg_executing_unloaded (.inr hoff)] at h0
    exact ⟨u, hu, h0⟩
  · have hx := exec_opAddIf f 0 off 0 n (s.executing (.opAddIf f n 0 off 0))
    rw [State.reg_executing_unloaded (.inr hf)] at hx
    split at hx
    · next hg =>
      obtain ⟨u, hu, h0⟩ := step_reg_zero rfl h hx (State.setReg_runState ..)
      rw [State.reg_setReg_same, State.reg_executing_unloaded (.inl rfl), State.reg_executing_unloaded (.inr hoff)] at h0
      exact ⟨u, hu, h0.trans (if_pos hg).symm⟩
    · next hg =>
      obtain ⟨u, hu, h0⟩ := step_reg_zero rfl h hx rfl
      rw [State.reg_executing_unloaded (.inl rfl)] at h0
      exact ⟨u, hu, h0.trans (if_neg hg).symm⟩
  · rw [← State.reg_executing_unloaded (i := .b2r x count y) (.inr hc)] at hn
    rw [← State.reg_executing_unloaded (i := .b2r x count y) (.inr (by decide))] at he
    have hx := (exec_b2r_oversized x y hn).trans (softError_errSel_zero he)
    obtain ⟨u, hu, h0⟩ := step_reg_zero rfl h hx (State.setReg_runState ..)
    rw [State.reg_setReg_same] at h0
    exact ⟨u, hu, h0⟩

end Sys2Proof.Machine
end

section
/-! PROOFS. The register writes (`41_register_writes.md`): what a step leaves in r0 and in the destination where the
instruction writes one register, WriteRegister, and RegisterToRegister with the source it reads. -/

namespace Sys2Proof.Machine

/-- The step of an instruction that writes one register: the advance is added to r0 as that write left it, and disturbs no
other destination (`40_fetch_dispatch_quit.md` R115). -/
theorem step_of_completesWriting {i : Instr} {d : Reg} {v : Word} {s : State} (hw : WellFormed i) (h : s.standsAt i)
    (hx : CompletesWriting i d v (s.executing i)) :
    ∃ t, step s = .next t ∧
      t.reg 0 = (if d = 0 then v else s.reg 0) + BitVec.ofNat 64 (opcodeStride (instrOpcode i)) ∧
      (d ≠ 0 → t.reg d = v) := by
  obtain ⟨t, he, hd, hother, -, -, hrun, -⟩ := hx
  have ht : t.runState = .running := hrun.trans (State.executing_runState.trans h.1)
  have h0 : t.reg 0 = if d = 0 then v else s.reg 0 := by
    split
    · next hd0 => rw [← hd, hd0]
    · next hd0 => rw [hother 0 (by simpa using Ne.symm hd0), State.reg_executing_unloaded (.inl rfl)]
  refine ⟨_, step_next_of_standsAt hw h he, ?_, fun hd0 => ?_⟩
  · rw [State.reg_zero_retire ht, h0]
  · obtain ⟨-, hkeep, -⟩ := writesOnly_advance t (opcodeStride (instrOpcode i))
    rw [State.retire_of_running ht, hkeep d (by simpa [ipReg] using hd0), hd]

/-! ## WriteRegister -/

theorem wr_completesWriting (d : Reg) (v : Word) (s : State) : CompletesWriting (.wr d v) d v s :=
  ⟨s.setReg d v, rfl, onlyRegs_setReg s d v⟩

/-- Settles O13: WriteRegister is one register write of its immediate, so its step is that of such a write. -/
theorem writeRegisterWritesTheImmediate : Obligations.WriteRegisterWritesTheImmediate :=
  ⟨fun s d v => wr_completesWriting d v s, fun _ d v h => step_of_completesWriting rfl h (wr_completesWriting d v _)⟩

/-! ## RegisterToRegister -/

theorem r2r_completesWriting (src dst : Reg) (s : State) : CompletesWriting (.r2r src dst) dst (s.reg src) s :=
  ⟨s.setReg dst (s.reg src), rfl, onlyRegs_setReg s dst (s.reg src)⟩

/-- A reg field as the word that decode loads (`30_encoding.md` R85). -/
theorem setWidth_byteOfReg (r : Reg) : (byteOfReg r).setWidth 64 = BitVec.ofNat 64 r.val := by
  apply BitVec.eq_of_toNat_eq
  have := r.isLt
  simp only [byteOfReg, BitVec.toNat_setWidth, BitVec.toNat_ofNat]
  omega

theorem cutParams_r2r (src dst : Reg) :
    cutParams .r2r ((encode (.r2r src dst)).drop 2) = [BitVec.ofNat 64 src.val, BitVec.ofNat 64 dst.val] := by
  rw [← setWidth_byteOfReg, ← setWidth_byteOfReg]
  rfl

/-- A register from r2 to r9 is a scratch register. -/
theorem scratchReg_sub_two {r : Reg} (h2 : 2 ≤ r.val) (h9 : r.val ≤ 9) : scratchReg (r.val - 2) = r :=
  Fin.ext (by rw [scratchReg_val (by omega)]; omega)

/-- What a register holds while RegisterToRegister executes: its ID in r1, its two fields in r2 and r3, zeros up to r9
(`40_fetch_dispatch_quit.md` R113). -/
theorem State.reg_executing_r2r (s : State) (src dst r : Reg) :
    (s.executing (.r2r src dst)).reg r =
      if r.val = 1 then 5 else if r.val = 2 then BitVec.ofNat 64 src.val
        else if r.val = 3 then BitVec.ofNat 64 dst.val
        else if 4 ≤ r.val ∧ r.val ≤ 9 then 0 else s.reg r := by
  by_cases hr : 2 ≤ r.val ∧ r.val ≤ 9
  · obtain ⟨h2, h9⟩ := hr
    have hscratch := s.reg_scratchReg_executing (.r2r src dst) (k := r.val - 2) (by omega)
    rw [scratchReg_sub_two h2 h9, instrOpcode, cutParams_r2r] at hscratch
    rw [hscratch, if_neg (by omega)]
    split
    · next h => rw [h]; rfl
    split
    · next h => rw [h]; rfl
    · rw [if_pos (by omega), List.getD_eq_default _ _ (by simp only [List.length_cons, List.length_nil]; omega)]
  · rw [s.reg_executing_other _ (by omega), if_neg (by omega : r.val ≠ 2), if_neg (by omega : r.val ≠ 3),
      if_neg (by omega : ¬(4 ≤ r.val ∧ r.val ≤ 9))]
    exact if_congr Fin.ext_iff rfl rfl

/-- Settles O14: RegisterToRegister is one register write; the value is what Src holds once phases 1 to 3 have loaded the ID
and the fields. -/
theorem registerToRegisterCopies : Obligations.RegisterToRegisterCopies := by
  refine ⟨fun s src dst => r2r_completesWriting src dst s, fun s src dst h => ?_⟩
  obtain ⟨t, hstep, h0, hdst⟩ := step_of_completesWriting rfl h (r2r_completesWriting src dst _)
  rw [s.reg_executing_r2r] at h0 hdst
  exact ⟨t, _, hstep, rfl, h0, hdst⟩

end Sys2Proof.Machine
end

section
/-! PROOFS. Allocation (`42_allocation.md`): what the three destinations hold after an Allocate, how the table answers it and
what becomes mapped, and what Deallocate frees and unmaps. -/

namespace Sys2Proof.Machine

/-! ## Soft errors by what ERRSEL holds -/

section
variable {s : State} {code : ErrorCode} {e : Reg}

theorem softError_of_errSel (he : e.val = (s.reg errSelReg).toNat) :
    softError code s = .next (s.setReg e (config.err code)) := by
  have hlt : (s.reg errSelReg).toNat < 256 := he ▸ e.isLt
  obtain rfl : e = ⟨_, hlt⟩ := Fin.ext he
  exact dif_pos hlt

theorem softError_of_errSel_ge (h : 256 ≤ (s.reg errSelReg).toNat) : softError code s = .fault .errSelRange :=
  dif_neg (Nat.not_lt.2 h)

theorem softErrorOnly_setReg (he : e.val = (s.reg errSelReg).toNat) :
    SoftErrorOnly code s (s.setReg e (config.err code)) :=
  ⟨e, he, onlyRegs_setReg ..⟩

end

/-! ## The three destinations of Allocate (`42_allocation.md` R144) -/

section
variable {s : State} {h p l : Reg} (a b c : Word)

/-- LenDst is written last. -/
@[simp] theorem State.reg_setAlloc_len : (s.setAlloc h p l a b c).reg l = c :=
  State.reg_setReg_same ..

theorem State.reg_setAlloc_ptr (hp : p ≠ l) : (s.setAlloc h p l a b c).reg p = b := by
  rw [State.setAlloc, State.reg_setReg_other _ _ hp, State.reg_setReg_same]

theorem State.reg_setAlloc_handle (hh : h ∉ [p, l]) : (s.setAlloc h p l a b c).reg h = a := by
  obtain ⟨hp, hl⟩ : h ≠ p ∧ h ≠ l := by simpa using hh
  rw [State.setAlloc, State.reg_setReg_other _ _ hl, State.reg_setReg_other _ _ hp, State.reg_setReg_same]

end

/-! ## How the table answers (`42_allocation.md` R141, R142) -/

/-- The state after `HOST.reserve`, whatever the host answers. -/
def State.reserved (s : State) (size : Word) : State := (s.send (.reserve size)).dropAnswer

/-- The state after an allocation: slot `k` holds the Buffer and its region is mapped. -/
def State.granted (s : State) (k : Fin 256) (size addr : Word) : State :=
  ((s.reserved size).setSlot k { length := size, data := addr }).setRegions
    ({ base := addr, length := size, owner := .allocation k, serial := s.draws } :: s.regions)

section
variable {s t : State} {size addr : Word} {k : Fin 256}

theorem State.freeSlot_eq_some (hk : (s.slot k).data = 0) (hlive : ∀ j < k, (s.slot j).data ≠ 0) : s.freeSlot = some k := by
  cases hf : s.freeSlot with
  | none => exact absurd hk (State.freeSlot_none.1 hf k)
  | some j =>
    obtain ⟨hj, hbefore⟩ := State.freeSlot_some hf
    have hjk : ¬ j < k := fun hlt => hlive j hlt hj
    have hkj : ¬ k < j := fun hlt => hbefore k hlt hk
    rw [Fin.le_antisymm (Fin.not_lt.1 hkj) (Fin.not_lt.1 hjk)]

theorem State.grant_eq_some {ans : HostAnswer} (ha : ans.reserve = some addr) (h0 : addr ≠ 0)
    (hwrap : addr.toNat + size.toNat ≤ 2 ^ 64) (hmeets : ∀ r ∈ s.regions, r.meets addr.toNat size.toNat = false) :
    s.grant size ans = some addr := by
  have hany : (s.regions.any fun r => r.meets addr.toNat size.toNat) = false :=
    List.any_eq_false.2 fun r hr => by simp [hmeets r hr]
  simp only [State.grant, ha, hany]
  exact if_pos (by simpa [wordConfig] using ⟨h0, hwrap⟩)

theorem State.allocate_of_full (hf : s.freeSlot = none) : s.allocate size = (.full, s) := by
  simp only [State.allocate, hf]

theorem State.allocate_of_refused (hf : s.freeSlot = some k) (hg : s.grant size s.answer = none) :
    s.allocate size = (.rejected, s.reserved size) := by
  simp only [State.allocate, hf, hg, State.reserved]

theorem State.allocate_of_granted (hf : s.freeSlot = some k) (hg : s.grant size s.answer = some addr) :
    s.allocate size = (.ok k addr, s.granted k size addr) := by
  simp only [State.allocate, hf, hg, State.granted, State.reserved]

/-- An allocation returns a handle only for a free slot and a reservation that is granted. -/
theorem State.allocate_eq_ok (h : s.allocate size = (.ok k addr, t)) :
    s.freeSlot = some k ∧ s.grant size s.answer = some addr ∧ t = s.granted k size addr := by
  rcases s.allocate_spec size with ⟨-, e⟩ | ⟨_, -, -, e⟩ | ⟨j, b, hf, hg, e⟩
  · cases e.symm.trans h
  · cases e.symm.trans h
  · cases e.symm.trans h
    exact ⟨hf, hg, rfl⟩

theorem State.slot_granted (j : Fin 256) :
    (s.granted k size addr).slot j = if j = k then { length := size, data := addr } else s.slot j := by
  rw [State.granted, State.setRegions_slot, State.slot_setSlot]
  rfl

/-! ## What an allocation maps -/

/-- The addresses of a region (`20_memory.md` R57). -/
theorem Region.contains_iff {r : Region} {a : Nat} : r.contains a = true ↔
    r.base ≠ 0 ∧ (r.base.toNat ≤ a ∧ a < r.base.toNat + r.length.toNat) ∧ a < 2 ^ 64 := by
  simp [Region.contains, wordConfig, and_assoc]

/-- Mapping one more region changes no byte outside it. -/
theorem State.byteAt_of_cons {r : Region} {a : Nat} (hr : t.regions = r :: s.regions) (hm : t.mem = s.mem)
    (ha : r.contains a = false) : t.byteAt a = s.byteAt a := by
  simp [State.byteAt, State.regionAt, hr, hm, ha]

theorem State.granted_isMapped (h0 : addr ≠ 0) (hwrap : addr.toNat + size.toNat ≤ 2 ^ 64) {j : Nat} (hj : j < size.toNat) :
    (s.granted k size addr).isMapped (addr.toNat + j) = true :=
  List.any_eq_true.2 ⟨_, List.mem_cons_self,
    Region.contains_iff.2 ⟨h0, ⟨Nat.le_add_right .., Nat.add_lt_add_left hj _⟩, by omega⟩⟩

theorem State.granted_byteAt {a : Nat} (ha : ¬ (addr.toNat ≤ a ∧ a < addr.toNat + size.toNat)) :
    (s.granted k size addr).byteAt a = s.byteAt a :=
  State.byteAt_of_cons rfl rfl (Bool.eq_false_iff.2 fun hc => ha (Region.contains_iff.1 hc).2.1)

end

/-! ## Allocate -/

section
variable {s : State} {x h p l e : Reg} {code : ErrorCode} {k : Fin 256} {addr : Word}

theorem exec_alloc_of_granted (hf : s.freeSlot = some k) (hg : s.grant (s.reg x) s.answer = some addr) :
    exec (.alloc x h p l) s =
      .next ((s.granted k (s.reg x) addr).setAlloc h p l (BitVec.ofNat 64 k.val) addr (s.reg x)) := by
  change execAlloc x h p l s = _
  rw [execAlloc, State.allocate_of_granted hf hg]

theorem exec_alloc_of_full (hf : s.freeSlot = none) :
    exec (.alloc x h p l) s = allocFails .allocTableFull h p l s := by
  change execAlloc x h p l s = _
  rw [execAlloc, State.allocate_of_full hf]

theorem exec_alloc_of_refused (hf : s.freeSlot = some k) (hg : s.grant (s.reg x) s.answer = none) :
    exec (.alloc x h p l) s = allocFails .allocBackingRejected h p l (s.reserved (s.reg x)) := by
  change execAlloc x h p l s = _
  rw [execAlloc, State.allocate_of_refused hf hg]

/-- The failure values, then the code, are all that a failed Allocate writes (`42_allocation.md` R144). -/
theorem allocFailed_setReg (s : State) (h p l e : Reg) (code : ErrorCode) :
    AllocFailed code h p l e s ((s.setAlloc h p l noSlotHandle 0 0).setReg e (config.err code)) := by
  refine ⟨State.reg_setReg_same .., fun hl => ?_, fun hp => ?_, fun hh => ?_, fun r hr => ?_, fun _ => rfl,
    ⟨fun _ => rfl, rfl⟩, rfl, rfl, rfl⟩
  · rw [State.reg_setReg_other _ _ hl, State.reg_setAlloc_len]
  · rw [State.reg_setReg_other _ _ hp]
    by_cases hpl : p = l
    · rw [hpl, State.reg_setAlloc_len]
    · exact State.reg_setAlloc_ptr _ _ _ hpl
  · obtain ⟨hp, hl, he⟩ : h ≠ p ∧ h ≠ l ∧ h ≠ e := by simpa using hh
    rw [State.reg_setReg_other _ _ he]
    exact State.reg_setAlloc_handle _ _ _ (by simp [hp, hl])
  · obtain ⟨hh, hp, hl, he⟩ : r ≠ h ∧ r ≠ p ∧ r ≠ l ∧ r ≠ e := by simpa using hr
    rw [State.reg_setReg_other _ _ he, State.reg_setAlloc_other _ _ _ (by simp [hh, hp, hl])]

theorem allocFails_of_errSel (he : e.val = (errSelAfterAlloc h p l s).toNat) :
    ∃ t, allocFails code h p l s = .next t ∧ AllocFailed code h p l e s t ∧ t.requests = s.requests :=
  ⟨_, softError_of_errSel (by rwa [State.reg_errSel_setAlloc]), allocFailed_setReg .., rfl⟩

theorem allocFails_of_errSel_ge (hr : 256 ≤ (errSelAfterAlloc h p l s).toNat) :
    allocFails code h p l s = .fault .errSelRange :=
  softError_of_errSel_ge (by rwa [State.reg_errSel_setAlloc])

end

/-- Settles O16: the premises name the first free slot and the address granted, and the new region holds exactly the addresses
of the reservation. -/
theorem allocateSucceeds : Obligations.AllocateSucceeds := by
  intro s x h p l k addr hk hlive ha h0 hwrap hmeets
  have hf := State.freeSlot_eq_some hk hlive
  have hg := State.grant_eq_some ha h0 hwrap hmeets
  refine ⟨_, exec_alloc_of_granted hf hg, State.reg_setAlloc_len .., State.reg_setAlloc_ptr _ _ _,
    State.reg_setAlloc_handle _ _ _, fun r hr => State.reg_setAlloc_other _ _ _ hr, ?_, fun j hj => ?_,
    fun j hj => State.granted_isMapped h0 hwrap hj, fun a hout => State.granted_byteAt hout, ⟨rfl, rfl, rfl⟩, rfl⟩
  · exact (State.slot_granted k).trans (if_pos rfl)
  · exact (State.slot_granted j).trans (if_neg hj)

/-- Settles O17: either way Allocate ends in `allocFails`, in the state as it was or with the reservation sent. -/
theorem allocateFailsSoftly : Obligations.AllocateFailsSoftly := by
  refine fun s x h p l => ⟨fun hfull => ?_, fun ⟨j, hj⟩ hg => ?_⟩
  · rw [exec_alloc_of_full (State.freeSlot_none.2 hfull)]
    exact ⟨fun e => allocFails_of_errSel, allocFails_of_errSel_ge⟩
  · obtain ⟨k, hk⟩ : ∃ k, s.freeSlot = some k :=
      Option.ne_none_iff_exists'.1 fun hn => State.freeSlot_none.1 hn j hj
    rw [exec_alloc_of_refused hk hg]
    exact ⟨fun e => allocFails_of_errSel (s := s.reserved (s.reg x)), allocFails_of_errSel_ge (s := s.reserved (s.reg x))⟩

/-! ## What a deallocation unmaps (`42_allocation.md` R143) -/

section
variable {s : State} {k : Fin 256} {a : Nat}

theorem State.unmap_isMapped : (s.unmap k).isMapped a = true ↔
    ∃ r ∈ s.regions, r.owner ≠ .allocation k ∧ r.contains a = true := by
  simp [State.isMapped, State.unmap]

/-- An address that no region of the handle holds stays in the region it was in. -/
theorem State.unmap_regionAt (h : ∀ r ∈ s.regions, r.owner = .allocation k → r.contains a = false) :
    (s.unmap k).regionAt a = s.regionAt a := by
  simp only [State.regionAt, State.unmap, State.setMem_regions, State.setRegions_regions, List.find?_filter]
  refine List.find?_congr fun r hr => ?_
  by_cases ho : r.owner = .allocation k
  · simp [h r hr ho]
  · simp [ho]

/-- Only bytes that no region holds any more are dropped (`20_memory.md` R62). -/
theorem State.read_unmap :
    Memory.read (s.unmap k).mem a = if (s.unmap k).isMapped a then Memory.read s.mem a else none :=
  Memory.read_filter s.mem (s.unmap k).isMapped a

/-- An address that no region of the handle holds keeps its byte. -/
theorem State.unmap_byteAt (h : ∀ r ∈ s.regions, r.owner = .allocation k → r.contains a = false) :
    (s.unmap k).byteAt a = s.byteAt a := by
  simp only [State.byteAt, State.read_unmap, State.isMapped_eq, State.unmap_regionAt h]
  cases s.regionAt a <;> rfl

/-- An allocation shares no address with another region (`42_allocation.md` R142). -/
theorem State.Inv.not_shares (h : s.Inv) {r q : Region} (hr : r ∈ s.regions) (hq : q ∈ s.regions) (hne : r ≠ q)
    (ho : r.owner ≠ .host) : ¬ r.shares q := by
  have hsymm : Std.Symm fun r q : Region => r.owner ≠ .host ∨ q.owner ≠ .host → ¬ r.shares q :=
    ⟨fun _ _ hn ho ⟨a, hq, hr⟩ => hn ho.symm ⟨a, hr, hq⟩⟩
  exact h.disjoint.forall hr hq hne (.inl ho)

/-- Once the region of a live slot is unmapped, its addresses are in no region. -/
theorem State.Inv.byteAt_unmap_inside (h : s.Inv) (hrun : s.runState = .running) (hl : (s.slot k).data ≠ 0)
    (ha : (s.slot k).data.toNat ≤ a ∧ a < (s.slot k).data.toNat + (s.slot k).length.toNat) (hlt : a < 2 ^ 64) :
    (s.unmap k).byteAt a = none := by
  obtain ⟨r, hr, ho, hb, hlen⟩ := h.slotMapped (.inl hrun) k hl
  rw [← hb] at hl
  rw [← hb, ← hlen] at ha
  have hra : r.contains a = true := Region.contains_iff.2 ⟨hl, ha, hlt⟩
  have hu : ¬ (s.unmap k).isMapped a = true := by
    rw [State.unmap_isMapped]
    rintro ⟨q, hq, hqo, hqa⟩
    exact h.not_shares hr hq (by rintro rfl; exact hqo ho) (by simp [ho]) ⟨a, hra, hqa⟩
  rwa [← State.byteAt_isSome, Bool.not_eq_true, Option.isSome_eq_false_iff, Option.isNone_iff_eq_none] at hu

theorem State.Inv.byteAt_unmap_outside (h : s.Inv)
    (ha : ¬ ((s.slot k).data.toNat ≤ a ∧ a < (s.slot k).data.toNat + (s.slot k).length.toNat)) :
    (s.unmap k).byteAt a = s.byteAt a := by
  refine State.unmap_byteAt fun r hr ho => ?_
  obtain ⟨-, hb, hl⟩ := h.regionLive r hr k ho
  rw [← hb, ← hl] at ha
  exact Bool.eq_false_iff.2 fun hc => ha (Region.contains_iff.1 hc).2.1

end

/-! ## Deallocate -/

section
variable {s : State} {x : Reg} {k : Fin 256}

theorem State.deallocate_of_live (hl : (s.slot k).data ≠ 0) :
    s.deallocate k = some ((s.unmap k).setSlot k nullBuffer) :=
  if_neg hl

theorem State.deallocate_of_free (hk : (s.slot k).data = 0) : s.deallocate k = none :=
  if_pos hk

/-- A handle below 256 names its slot (`42_allocation.md` R146). -/
theorem exec_dealloc (hk : k.val = (s.reg x).toNat) :
    exec (.dealloc x) s = (s.deallocate k).elim (softError .deallocNotAllocated s) .next := by
  have hlt : (s.reg x).toNat < 256 := hk ▸ k.isLt
  obtain rfl : k = ⟨_, hlt⟩ := Fin.ext hk
  change execDealloc x s = _
  rw [execDealloc, dif_pos hlt]
  cases s.deallocate ⟨_, hlt⟩ <;> rfl

theorem exec_dealloc_of_ge (hh : 256 ≤ (s.reg x).toNat) : exec (.dealloc x) s = .fault .handleRange :=
  dif_neg (Nat.not_lt.2 hh)

/-- The slot of a handle after its deallocation, and the others. -/
theorem State.slot_deallocated (j : Fin 256) :
    ((s.unmap k).setSlot k nullBuffer).slot j = if j = k then nullBuffer else s.slot j :=
  State.slot_setSlot ..

end

/-- Settles O18: by the invariant the handle's region is the slot's Buffer and meets no other, so unmapping it unmaps those
addresses and no more. -/
theorem deallocateFreesItsSlot : Obligations.DeallocateFreesItsSlot := by
  intro s x k hinv hr hk hl
  have he : exec (.dealloc x) s = .next ((s.unmap k).setSlot k nullBuffer) := by
    rw [exec_dealloc hk, State.deallocate_of_live hl]; rfl
  refine ⟨_, he, ?_, fun j hj => ?_, fun _ _ => rfl, ⟨rfl, rfl, rfl⟩, fun a h1 h2 hlt => ?_, fun a ha => ?_⟩
  · rw [State.slot_deallocated, if_pos rfl]
  · rw [State.slot_deallocated, if_neg hj]
  · exact hinv.byteAt_unmap_inside hr hl ⟨h1, h2⟩ hlt
  · exact hinv.byteAt_unmap_outside ha

/-- Settles O19: a deallocation of a free slot fails, and its soft error is one register write. -/
theorem deallocateOfAFreeSlotIsSoft : Obligations.DeallocateOfAFreeSlotIsSoft := by
  refine ⟨fun s x k hk hfree hsel => ?_, fun s x hh => exec_dealloc_of_ge hh⟩
  have he : (⟨_, hsel⟩ : Reg).val = (s.reg errSelReg).toNat := rfl
  rw [exec_dealloc hk, State.deallocate_of_free hfree]
  exact ⟨_, softError_of_errSel he, softErrorOnly_setReg he⟩

/-! ## The count of live slots (`42_allocation.md` R147, R148) -/

theorem State.liveCount_congr {s t : State} (h : ∀ j, (t.slot j).data = (s.slot j).data) : t.liveCount = s.liveCount := by
  simp only [State.liveCount, h]

theorem State.freeSlot_of_liveCount {s : State} (h : s.liveCount = 256) : s.freeSlot = none := by
  have hall : ∀ j ∈ List.finRange 256, (s.slot j).data != 0 :=
    List.countP_eq_length.1 (h.trans List.length_finRange.symm)
  exact State.freeSlot_none.2 fun j => by simpa using hall j (List.mem_finRange j)

/-- Settles O49: the slot that the pair of operations fills and empties was free before, and is free afterwards. -/
theorem allocateThenDeallocateRestoresTheCount : Obligations.AllocateThenDeallocateRestoresTheCount := by
  refine ⟨fun s t size addr k h => ?_, fun s size h => ?_⟩
  · obtain ⟨hf, hg, rfl⟩ := State.allocate_eq_ok h
    obtain ⟨hk, -⟩ := State.freeSlot_some hf
    obtain ⟨-, h0, -⟩ := State.grant_some hg
    have hl : ((s.granted k size addr).slot k).data ≠ 0 := by rwa [State.slot_granted, if_pos rfl]
    refine ⟨_, State.deallocate_of_live hl, State.liveCount_congr fun j => ?_, State.deallocate_of_free ?_⟩
    · rw [State.slot_deallocated]
      split
      · next hj => rw [hj, hk]
      · next hj => rw [State.slot_granted, if_neg hj]
    · rw [State.slot_deallocated, if_pos rfl]
  · rw [State.allocate_of_full (State.freeSlot_of_liveCount h)]

end Sys2Proof.Machine
end

section
/-! PROOFS. The buffer transfers (`43_buffer_transfer.md`): the number that loaded bytes spell, what a load and a store of
mapped bytes answer, b2r and r2b by their count, and the load that follows a store. -/

namespace Sys2Proof

/-- Byte `k` of the number that bytes spell: the `k`-th of them, and 0 above the last (`43_buffer_transfer.md` R160). -/
theorem leNat_byte (bs : List Byte) (k : Nat) : BitVec.ofNat 8 (leNat bs / 256 ^ k) = bs.getD k 0 := by
  by_cases hk : k < bs.length
  · have hbyte := leBytes_getElem bs.length (leNat bs) k (by simpa using hk)
    simp only [leBytes_leNat] at hbyte
    rw [← hbyte, List.getD_eq_getElem _ _ hk]
  · have hlt : leNat bs < 256 ^ k :=
      Nat.lt_of_lt_of_le (leNat_lt bs) (Nat.pow_le_pow_right (by decide) (Nat.le_of_not_lt hk))
    rw [Nat.div_eq_of_lt hlt, List.getD_eq_default _ _ (Nat.le_of_not_lt hk)]
    rfl

/-- A number of at most eight bytes fits in a word. -/
theorem Word.toNat_ofNat_of_lt {v n : Nat} (h : v < 256 ^ n) (hn : n ≤ 8) : (BitVec.ofNat 64 v).toNat = v := by
  have h8 : v < 256 ^ 8 := Nat.lt_of_lt_of_le h (Nat.pow_le_pow_right (by decide) hn)
  exact (BitVec.toNat_ofNat ..).trans (Nat.mod_eq_of_lt h8)

end Sys2Proof

namespace Sys2Proof.Machine

/-! ## Accesses that answer -/

section
variable {s t : State} {a : Word} {n v : Nat}

theorem State.loadBytes_of_mapped (hm : ∀ k < n, s.isMapped (a + BitVec.ofNat 64 k).toNat = true) :
    ∃ bs, s.loadBytes a n = some bs :=
  Option.isSome_iff_exists.1 (by rwa [State.loadBytes_isSome, State.rangeMapped_iff])

theorem State.memWrite_of_mapped (hm : ∀ k < n, s.isMapped (a + BitVec.ofNat 64 k).toNat = true) :
    ∃ t, s.memWrite a n v = some t :=
  Option.isSome_iff_exists.1 (by rwa [State.memWrite_isSome, State.rangeMapped_iff])

/-- A load of the bytes just stored gives the value back, truncated (`43_buffer_transfer.md` R163). -/
theorem State.memRead_of_memWrite (h : s.memWrite a n v = some t) (hn : n ≤ 2 ^ 64) :
    t.memRead a n = some (v % 256 ^ n) := by
  have hload : t.loadBytes a n = some (leBytes n v) :=
    State.loadBytes_spec.2 ⟨leBytes_length n v, fun k hk => by
      rw [State.memWrite_inside h hn (by simpa using hk), leBytes_getElem]⟩
  rw [State.memRead_of_loadBytes hload, leNat_leBytes]

end

section
variable {s t : State} {x c d : Reg}

/-! ## Transfers of at most 8 bytes (`43_buffer_transfer.md` R160, R161) -/

theorem exec_b2r_of_memRead {v : Nat} (hn : (s.reg c).toNat ≤ 8)
    (h : s.memRead (s.reg x) (s.reg c).toNat = some v) :
    exec (.b2r x c d) s = .next (s.setReg d (BitVec.ofNat 64 v)) := by
  have hx : exec (.b2r x c d) s = _ := if_pos hn
  rw [hx, State.effectiveAddr, State.transferCount, h]

/-- A store of at most 8 bytes goes on exactly where its one access does. -/
theorem exec_r2b_eq_next (hn : (s.reg c).toNat ≤ 8) :
    exec (.r2b x c d) s = .next t ↔ s.memWrite (s.reg d) (s.reg c).toNat (s.reg x).toNat = some t := by
  have hx : exec (.r2b x c d) s = _ := if_pos hn
  rw [hx, State.effectiveAddr, State.transferCount]
  cases s.memWrite (s.reg d) (s.reg c).toNat (s.reg x).toNat <;> simp

/-! ## Transfers of more than 8 bytes -/

theorem exec_r2b_oversized (x d : Reg) (hn : 8 < (s.reg c).toNat) :
    exec (.r2b x c d) s = softError .invalidTransferSize s :=
  if_neg (Nat.not_le.2 hn)

theorem softErrorOnly_of_errSel_lt {code : ErrorCode} (h : (s.reg errSelReg).toNat < 256) :
    ∃ t, softError code s = .next t ∧ SoftErrorOnly code s t :=
  have he : (⟨_, h⟩ : Reg).val = (s.reg errSelReg).toNat := rfl
  ⟨_, softError_of_errSel he, softErrorOnly_setReg he⟩

theorem softErrorOnly_of_softError {code : ErrorCode} (h : softError code s = .next t) : SoftErrorOnly code s t := by
  obtain ⟨e, he, rfl⟩ := softError_cases h
  exact softErrorOnly_setReg he

end

/-! ## What a transfer does, by its count -/

/-- Settles O20: the load's bytes are those at the addresses, and Dst receives the number that they spell, which is below
2^64. -/
theorem bufferToRegisterLoads : Obligations.BufferToRegisterLoads := by
  intro s x c d hn hm
  obtain ⟨bs, hbs⟩ := State.loadBytes_of_mapped hm
  obtain ⟨hlen, hbyte⟩ := State.loadBytes_spec.1 hbs
  have hv : (BitVec.ofNat 64 (leNat bs)).toNat = leNat bs := Word.toNat_ofNat_of_lt (leNat_lt bs) (hlen ▸ hn)
  refine ⟨BitVec.ofNat 64 (leNat bs),
    ⟨_, exec_b2r_of_memRead hn (State.memRead_of_loadBytes hbs), onlyRegs_setReg ..⟩, fun k hk => ?_, fun k hk _ => ?_⟩
  · rw [hbyte k (hlen ▸ hk), hv, leNat_byte, List.getD_eq_getElem]
  · rw [hv, leNat_byte, List.getD_eq_default _ _ (hlen ▸ hk)]

/-- Settles O21: the store's own lemmas give the bytes within and outside its range; memory is all that it changes. -/
theorem registerToBufferStores : Obligations.RegisterToBufferStores := by
  intro s x c d hn hm
  obtain ⟨t, ht⟩ := State.memWrite_of_mapped (v := (s.reg x).toNat) hm
  refine ⟨t, (exec_r2b_eq_next hn).2 ht, fun k hk => State.memWrite_inside ht (by omega) hk,
    State.memWrite_outside ht, ?_⟩
  obtain ⟨m, rfl⟩ := State.memWrite_frame ht
  exact ⟨fun _ _ => rfl, ⟨fun _ => rfl, rfl⟩, rfl, rfl, rfl⟩

/-- Settles O22: both transfers check the count before they access memory, and their soft error is one register write. -/
theorem oversizedTransferIsSoft : Obligations.OversizedTransferIsSoft := by
  intro s x y c hn hsel
  rw [exec_b2r_oversized x y hn, exec_r2b_oversized x y hn]
  exact ⟨softErrorOnly_of_errSel_lt hsel, softErrorOnly_of_errSel_lt hsel⟩

/-! ## A store and the load after it (`43_buffer_transfer.md` R163) -/

/-- The store leaves the address and count registers alone, so the load reads the bytes just stored. -/
theorem exec_b2r_after_r2b {s u : State} {x c a : Reg} (d : Reg) (hn : (s.reg c).toNat ≤ 8)
    (h : exec (.r2b x c a) s = .next u) :
    exec (.b2r a c d) u = .next (u.setReg d (BitVec.ofNat 64 ((s.reg x).toNat % 256 ^ (s.reg c).toNat))) := by
  have hw := (exec_r2b_eq_next hn).1 h
  have hread := State.memRead_of_memWrite hw (by omega)
  obtain ⟨m, rfl⟩ := State.memWrite_frame hw
  exact exec_b2r_of_memRead hn hread

/-- Settles O24: the round trip by `exec_b2r_after_r2b`, and above 8 both transfers are the soft error alone. -/
theorem storeThenLoadGivesTheValue : Obligations.StoreThenLoadGivesTheValue := by
  refine ⟨fun s u x c a d hn h => ⟨_, exec_b2r_after_r2b d hn h, ?_⟩, fun s t x y c hn => ?_⟩
  · rw [State.reg_setReg_same]
    exact Word.toNat_ofNat_of_lt (Nat.mod_lt _ (Nat.pow_pos (by decide))) hn
  · rw [exec_b2r_oversized x y hn, exec_r2b_oversized x y hn]
    refine ⟨fun h hy => ?_, fun h => ?_, fun h => softErrorOnly_of_softError (h.elim id id)⟩
    · obtain ⟨e, he, -, hregs, -⟩ := softErrorOnly_of_softError h
      have hye : y ≠ e := fun hye => hy (hye ▸ he)
      exact hregs y (by simpa using hye)
    · obtain ⟨_, _, -, -, hbytes, -⟩ := softErrorOnly_of_softError h
      exact hbytes

end Sys2Proof.Machine
end

section
/-! PROOFS. Operate (`44_operate.md`): the form that each range of Mode selects, the gate that fails, what the fifteen operations
compute on unsigned numbers, and the selector that names none of them. -/

namespace Sys2Proof

/-- A word is the numeral of its own number. -/
theorem Word.eq_ofNat {v : Word} {n : Nat} (h : v.toNat = n) : v = BitVec.ofNat 64 n := by
  rw [← h, BitVec.ofNat_toNat, BitVec.setWidth_eq]

end Sys2Proof

namespace Sys2Proof.Machine

/-! ## The ranges of Mode (`44_operate.md` R172)

The bits that a form fixes place its Mode bytes in one range, from whose start the form's own bits count. -/

theorem toNat_append_eq_add {k n : Nat} (x : BitVec k) (y : BitVec n) : (x ++ y).toNat = x.toNat * 2 ^ n + y.toNat := by
  rw [BitVec.toNat_append, ← Nat.shiftLeft_add_eq_or_of_lt y.isLt, Nat.shiftLeft_eq]

theorem append_ofNat_sub {k n : Nat} {x : BitVec k} {mode : BitVec (k + n)} (hlo : x.toNat * 2 ^ n ≤ mode.toNat)
    (hhi : mode.toNat < x.toNat * 2 ^ n + 2 ^ n) : x ++ BitVec.ofNat n (mode.toNat - x.toNat * 2 ^ n) = mode := by
  apply BitVec.eq_of_toNat_eq
  rw [toNat_append_eq_add, BitVec.toNat_ofNat, Nat.mod_eq_of_lt (by omega)]
  omega

section
variable {mode : Byte}

theorem modeIfDirect_of_range (hhi : mode.toNat < 32) : modeIfDirect (BitVec.ofNat 5 mode.toNat) = mode :=
  append_ofNat_sub (x := 0#3) (Nat.zero_le _) hhi

theorem modeIfIndirect_of_range (hlo : 32 ≤ mode.toNat) (hhi : mode.toNat < 64) :
    modeIfIndirect (BitVec.ofNat 5 (mode.toNat - 32)) = mode :=
  append_ofNat_sub (x := 1#3) hlo hhi

theorem modeAlwaysDirect_of_range (hlo : 64 ≤ mode.toNat) (hhi : mode.toNat < 128) :
    modeAlwaysDirect (BitVec.ofNat 6 (mode.toNat - 64)) = mode :=
  append_ofNat_sub (x := 1#2) hlo hhi

theorem modeAlwaysIndirect_of_range (hlo : 128 ≤ mode.toNat) :
    modeAlwaysIndirect (BitVec.ofNat 7 (mode.toNat - 128)) = mode :=
  append_ofNat_sub (x := 1#1) hlo mode.isLt

end

/-- Settles O12: in each range Mode is the byte of its form, and the decoder's equation for that form applies. -/
theorem modeRangesSelectTheForms : Obligations.ModeRangesSelectTheForms := by
  intro f mode sel a b d
  refine ⟨fun hhi => ?_, fun hlo hhi => ?_, fun hlo hhi => ?_, fun hlo => ?_⟩
  · conv_lhs => rw [← modeIfDirect_of_range hhi, decodeOperate_modeIfDirect]
    cases aluOfSelector (sel.setWidth 64) <;> rfl
  · conv_lhs => rw [← modeIfIndirect_of_range hlo hhi, decodeOperate_modeIfIndirect]
  · conv_lhs => rw [← modeAlwaysDirect_of_range hlo hhi, decodeOperate_modeAlwaysDirect]
    cases aluOfSelector (sel.setWidth 64) <;> rfl
  · conv_lhs => rw [← modeAlwaysIndirect_of_range hlo, decodeOperate_modeAlwaysIndirect]

/-! ## The gate that fails (`44_operate.md` R174) -/

section
variable {i : Instr} {s : State} {f : Reg} {n : BitVec 5}

/-- A conditional form is an Operate whose whole effect stands behind its gate. -/
theorem gated_of_instrGate (hi : instrGate i = some (f, n)) :
    instrOpcode i = .op ∧ ∃ e, ∀ s, exec i s = gated f n e s := by
  cases i with
  | opIf | opIfInd | opShrIf | opShlIf | opNotIf | opAndIf | opOrIf | opXorIf | opAddIf | opSubIf | opMulIf | opDivIf
  | opModIf | opLtIf | opLeIf | opGtIf | opGeIf =>
    cases hi
    exact ⟨rfl, _, fun _ => rfl⟩
  | _ => cases hi

theorem gated_of_fails {e : State → Result} (hg : (s.reg f).getLsbD n.toNat = false) : gated f n e s = .next s :=
  if_neg (Bool.eq_false_iff.1 hg)

theorem exec_of_gate_fails (hi : instrGate i = some (f, n)) (hg : (s.reg f).getLsbD n.toNat = false) :
    exec i s = .next s := by
  obtain ⟨-, e, he⟩ := gated_of_instrGate hi
  rw [he, gated_of_fails hg]

end

/-- Settles O40: behind a gate that fails exec answers the state it was given, so the step is the advance alone. -/
theorem failedGateIsANoOp : Obligations.FailedGateIsANoOp := by
  refine ⟨fun i s f n => exec_of_gate_fails, fun i s f n hi hw h hg => ?_⟩
  obtain ⟨hop, -⟩ := gated_of_instrGate hi
  obtain ⟨t, hstep, h0⟩ := step_reg_zero hw h (exec_of_gate_fails hi hg) rfl
  rw [State.reg_executing_unloaded (.inl rfl), hop] at h0
  exact ⟨t, hstep, h0⟩

/-! ## Both forms of an operation -/

section
variable {o : AluOp} {f a b d : Reg} {n : BitVec 5} {s : State}

/-- A conditional Operate whose gate passes answers what its effect does (`44_operate.md` R173). -/
theorem gated_next_of_passes {e : State → Result} {P : State → Prop} (h : ∃ t, e s = .next t ∧ P t)
    (hg : (s.reg f).getLsbD n.toNat = true) : ∃ t, gated f n e s = .next t ∧ P t := by
  rwa [gated_of_passes hg]

/-- The always direct form does what `applyAlu` does, and so does the conditional one where its gate passes. -/
theorem exec_forms_of_applyAlu {P : State → Prop} (m : BitVec 6) (h : ∃ t, applyAlu o a b d s = .next t ∧ P t) :
    (∃ t, exec (instrOfAlu o f m a b d) s = .next t ∧ P t) ∧
      ((s.reg f).getLsbD n.toNat = true → ∃ t, exec (instrOfAluIf o f n a b d) s = .next t ∧ P t) :=
  ⟨by rwa [exec_instrOfAlu], fun hg => by rwa [exec_instrOfAluIf hg]⟩

theorem completesWriting_of_value (f : Reg) (m : BitVec 6) (n : BitVec 5) (d : Reg) {v : Word}
    (h : aluResult o (s.reg a) (s.reg b) = .value v) :
    CompletesWriting (instrOfAlu o f m a b d) d v s ∧
      ((s.reg f).getLsbD n.toNat = true → CompletesWriting (instrOfAluIf o f n a b d) d v s) :=
  exec_forms_of_applyAlu m (applyAlu_value h)

/-- A result that the spec leaves open is still written to Dst, and nothing else changes (log entry 3). -/
theorem completesWriting_of_anyValue (f : Reg) (m : BitVec 6) (n : BitVec 5) (d : Reg)
    (h : aluResult o (s.reg a) (s.reg b) = .anyValue) :
    (∃ w, CompletesWriting (instrOfAlu o f m a b d) d w s) ∧
      ((s.reg f).getLsbD n.toNat = true → ∃ w, CompletesWriting (instrOfAluIf o f n a b d) d w s) := by
  have happly : ∃ t, applyAlu o a b d s = .next t ∧ WritesOnly d (Config.overwideShift wordConfig s.draws) s t :=
    ⟨_, by rw [applyAlu, h], onlyRegs_setReg s.tick d _⟩
  obtain ⟨halways, hif⟩ := exec_forms_of_applyAlu (f := f) (n := n) m happly
  exact ⟨⟨_, halways⟩, fun hg => ⟨_, hif hg⟩⟩

/-- An operation without a result leaves Dst alone and raises its soft error (`44_operate.md` R171). -/
theorem softErrorOnly_of_softErr (f : Reg) (m : BitVec 6) (n : BitVec 5) (d : Reg) {code : ErrorCode}
    (h : aluResult o (s.reg a) (s.reg b) = .softErr code) (hsel : (s.reg errSelReg).toNat < 256) :
    (∃ t, exec (instrOfAlu o f m a b d) s = .next t ∧ SoftErrorOnly code s t) ∧
      ((s.reg f).getLsbD n.toNat = true →
        ∃ t, exec (instrOfAluIf o f n a b d) s = .next t ∧ SoftErrorOnly code s t) :=
  exec_forms_of_applyAlu m (by rw [applyAlu, h]; exact softErrorOnly_of_errSel_lt hsel)

end

/-! ## Shifts (`44_operate.md` R177, R178) -/

section
variable {x y : Word}

theorem aluResult_shr (h : y.toNat < 64) : aluResult .shr x y = .value (BitVec.ofNat 64 (x.toNat / 2 ^ y.toNat)) := by
  have hv : (x >>> y.toNat).toNat = x.toNat / 2 ^ y.toNat := by rw [BitVec.toNat_ushiftRight, Nat.shiftRight_eq_div_pow]
  exact (if_pos h).trans (congrArg _ (Word.eq_ofNat hv))

theorem aluResult_shl (h : y.toNat < 64) :
    aluResult .shl x y = .value (BitVec.ofNat 64 (x.toNat * 2 ^ y.toNat % 2 ^ 64)) := by
  have hv : (x <<< y.toNat).toNat = x.toNat * 2 ^ y.toNat % 2 ^ 64 := by rw [BitVec.toNat_shiftLeft, Nat.shiftLeft_eq]
  exact (if_pos h).trans (congrArg _ (Word.eq_ofNat hv))

theorem aluResult_shr_overwide (h : 64 ≤ y.toNat) : aluResult .shr x y = .anyValue :=
  if_neg (Nat.not_lt.2 h)

theorem aluResult_shl_overwide (h : 64 ≤ y.toNat) : aluResult .shl x y = .anyValue :=
  if_neg (Nat.not_lt.2 h)

end

/-- Settles O25: a narrow shift divides by the power of two, an over-wide one has the free result. -/
theorem rightShiftIsLogical : Obligations.RightShiftIsLogical := fun _ f _ _ d m n =>
  ⟨fun h => completesWriting_of_value f m n d (aluResult_shr h),
    fun h => completesWriting_of_anyValue f m n d (aluResult_shr_overwide h)⟩

/-- Settles O26: a narrow shift multiplies by the power of two, an over-wide one has the free result. -/
theorem leftShiftDropsHighBits : Obligations.LeftShiftDropsHighBits := fun _ f _ _ d m n =>
  ⟨fun h => completesWriting_of_value f m n d (aluResult_shl h),
    fun h => completesWriting_of_anyValue f m n d (aluResult_shl_overwide h)⟩

/-! ## Bitwise operations (`44_operate.md` R179 to R182) -/

/-- Settles O27: the complement of a word is its distance from the largest one. -/
theorem notInvertsEveryBit : Obligations.NotInvertsEveryBit := fun _ f _ _ d m n =>
  completesWriting_of_value (o := .not) f m n d (congrArg _ (Word.eq_ofNat BitVec.toNat_not))

/-- Settles O28, with the word whose bits are the conjunctions. -/
theorem andIsBitwise : Obligations.AndIsBitwise := fun s f a b d m n =>
  ⟨s.reg a &&& s.reg b, fun _ _ => BitVec.getLsbD_and, completesWriting_of_value (o := .and) f m n d rfl⟩

/-- Settles O29, with the word whose bits are the disjunctions. -/
theorem orIsBitwise : Obligations.OrIsBitwise := fun s f a b d m n =>
  ⟨s.reg a ||| s.reg b, fun _ _ => BitVec.getLsbD_or, completesWriting_of_value (o := .or) f m n d rfl⟩

/-- Settles O30, with the word whose bits are the exclusive disjunctions; those of equal words are all 0. -/
theorem xorIsBitwise : Obligations.XorIsBitwise := fun s f a b d m n =>
  ⟨s.reg a ^^^ s.reg b, fun _ _ => BitVec.getLsbD_xor, fun h => h ▸ BitVec.xor_self,
    completesWriting_of_value (o := .xor) f m n d rfl⟩

/-! ## Arithmetic (`44_operate.md` R183 to R187) -/

section
variable {x y : Word}

/-- Subtraction borrows 2^64 where the subtrahend is the larger (`44_operate.md` R184). -/
theorem toNat_sub_eq_ite :
    (x - y).toNat = if y.toNat ≤ x.toNat then x.toNat - y.toNat else 2 ^ 64 + x.toNat - y.toNat := by
  have hx : x.toNat < 2 ^ 64 := x.isLt
  have hy : y.toNat < 2 ^ 64 := y.isLt
  have hsub : (x - y).toNat = (2 ^ 64 - y.toNat + x.toNat) % 2 ^ 64 := BitVec.toNat_sub x y
  split <;> omega

theorem aluResult_div (h : y ≠ 0) : aluResult .div x y = .value (BitVec.ofNat 64 (x.toNat / y.toNat)) :=
  if_neg h

/-- A remainder is what the divisor times the quotient leaves (`44_operate.md` R187). -/
theorem aluResult_mod (h : y ≠ 0) :
    aluResult .mod x y = .value (BitVec.ofNat 64 (x.toNat - y.toNat * (x.toNat / y.toNat))) := by
  rw [← Nat.mod_eq_sub_mul_div]
  exact if_neg h

theorem aluResult_div_zero (h : y = 0) : aluResult .div x y = .softErr .divideByZero :=
  if_pos h

theorem aluResult_mod_zero (h : y = 0) : aluResult .mod x y = .softErr .moduloByZero :=
  if_pos h

end

/-- Settles O31: addition of words is addition modulo 2^64. -/
theorem addWraps : Obligations.AddWraps := fun _ f _ _ d m n =>
  completesWriting_of_value (o := .add) f m n d (congrArg _ (Word.eq_ofNat (BitVec.toNat_add ..)))

/-- Settles O32: the difference of words by whether it borrows. -/
theorem subtractWraps : Obligations.SubtractWraps := fun _ f _ _ d m n =>
  completesWriting_of_value (o := .sub) f m n d (congrArg _ (Word.eq_ofNat toNat_sub_eq_ite))

/-- Settles O33: multiplication of words is multiplication modulo 2^64. -/
theorem multiplyKeepsLowHalf : Obligations.MultiplyKeepsLowHalf := fun _ f _ _ d m n =>
  completesWriting_of_value (o := .mul) f m n d (congrArg _ (Word.eq_ofNat (BitVec.toNat_mul ..)))

/-- Settles O34: the divisor decides between the quotient and the soft error. -/
theorem divideIsUnsigned : Obligations.DivideIsUnsigned := fun _ f _ _ d m n =>
  ⟨fun h => completesWriting_of_value f m n d (aluResult_div h),
    fun h hsel => softErrorOnly_of_softErr f m n d (aluResult_div_zero h) hsel⟩

/-- Settles O35: the divisor decides between the remainder and the soft error. -/
theorem moduloIsUnsigned : Obligations.ModuloIsUnsigned := fun _ f _ _ d m n =>
  ⟨fun h => completesWriting_of_value f m n d (aluResult_mod h),
    fun h hsel => softErrorOnly_of_softErr f m n d (aluResult_mod_zero h) hsel⟩

/-! ## Comparisons (`44_operate.md` R188 to R191)

The numbers compared are unsigned: the model compares `toNat`. -/

theorem boolWord_decide (p : Prop) [Decidable p] : boolWord (decide p) = if p then 1 else 0 := by
  simp only [boolWord, decide_eq_true_eq]

/-- Settles O36: the result is the boolean word of `a < b`. -/
theorem lessThanIsUnsigned : Obligations.LessThanIsUnsigned := fun _ f _ _ d m n =>
  completesWriting_of_value (o := .lt) f m n d (congrArg _ (boolWord_decide _))

/-- Settles O37: the result is the boolean word of `a ≤ b`. -/
theorem lessOrEqualIsUnsigned : Obligations.LessOrEqualIsUnsigned := fun _ f _ _ d m n =>
  completesWriting_of_value (o := .le) f m n d (congrArg _ (boolWord_decide _))

/-- Settles O38: the result is the boolean word of `b < a`, which is what `a > b` means. -/
theorem greaterThanIsUnsigned : Obligations.GreaterThanIsUnsigned := fun _ f _ _ d m n =>
  completesWriting_of_value (o := .gt) f m n d (congrArg _ (boolWord_decide _))

/-- Settles O39: the result is the boolean word of `b ≤ a`, which is what `a ≥ b` means. -/
theorem greaterOrEqualIsUnsigned : Obligations.GreaterOrEqualIsUnsigned := fun _ f _ _ d m n =>
  completesWriting_of_value (o := .ge) f m n d (congrArg _ (boolWord_decide _))

/-! ## The selector that names no operation (`44_operate.md` R175) -/

theorem aluOfSelector_eq_none {sel : Word} (h : ∀ o, (config.alu o).setWidth 64 ≠ sel) : aluOfSelector sel = none :=
  Option.eq_none_iff_forall_ne_some.2 fun o ho => h o (alu_of_aluOfSelector ho)

theorem aluOfSelector_byte_eq_none {sel : Byte} (h : ∀ o, config.alu o ≠ sel) : aluOfSelector (sel.setWidth 64) = none :=
  Option.eq_none_iff_forall_ne_some.2 fun o ho => h o (alu_of_aluOfSelector_byte ho)

/-- No operand is read before the selector names an operation (`44_operate.md` R193). -/
theorem applySelector_unrecognised {sel : Word} (h : aluOfSelector sel = none) (a b d : Reg) (s : State) :
    ∃ t, applySelector sel a b d s = .next t ∧ FaultedWith .unimplementedAluOp s t :=
  ⟨_, by rw [applySelector, h], faultedWith_fatal s _⟩

/-- Settles O42: all four forms come to `applySelector` of a selector that names no operation. -/
theorem unrecognisedSelectorFaults : Obligations.UnrecognisedSelectorFaults := by
  intro s f selReg a b d m m' n sel
  refine ⟨fun h => ?_, fun h => ?_⟩
  · have hf := applySelector_unrecognised (aluOfSelector_byte_eq_none h) a b d s
    exact ⟨hf, gated_next_of_passes hf⟩
  · have hf := applySelector_unrecognised (aluOfSelector_eq_none h) a b d s
    exact ⟨hf, gated_next_of_passes hf⟩

end Sys2Proof.Machine
end

section
/-! PROOFS. Syscall (`45_syscall.md`): the transaction and the write-back that the host operations share, the zero-terminated
path, what each operation answers, and the Number that names none of them. -/

namespace Sys2Proof.Machine

/-! ## The transaction and the write-back (`45_syscall.md` R210, R218) -/

section
variable {s : State} {q : HostRequest} {a1 a2 ret : Reg} {ans : HostAnswer}

/-- A transaction leaves what the machine shows as it was, so the write of RetDst is the only change. -/
theorem writesOnly_transact (s : State) (q : HostRequest) (ret : Reg) (v : Word) :
    WritesOnly ret v s ((s.transact q).setReg ret v) :=
  onlyRegs_setReg (s.transact q) ret v

/-- RetDst is written last. -/
@[simp] theorem State.reg_setStat_ret : (s.setStat a1 a2 ret ans).reg ret = ans.ret :=
  State.reg_setReg_same ..

theorem State.reg_setStat_mode (h2 : a2 ≠ ret) : (s.setStat a1 a2 ret ans).reg a2 = ans.mode := by
  rw [State.setStat, State.reg_setReg_other _ _ h2, State.reg_setReg_same]

theorem State.reg_setStat_size (h1 : a1 ∉ [a2, ret]) : (s.setStat a1 a2 ret ans).reg a1 = ans.size := by
  obtain ⟨h2, hr⟩ : a1 ≠ a2 ∧ a1 ≠ ret := by simpa using h1
  rw [State.setStat, State.reg_setReg_other _ _ hr, State.reg_setReg_other _ _ h2, State.reg_setReg_same]

theorem onlyRegsChange_setStat : OnlyRegsChange [a1, a2, ret] s (s.setStat a1 a2 ret ans) := by
  refine ⟨fun r hr => ?_, fun _ => rfl, ⟨fun _ => rfl, rfl⟩, rfl, rfl, rfl⟩
  obtain ⟨h1, h2, h3⟩ : r ≠ a1 ∧ r ≠ a2 ∧ r ≠ ret := by simpa using hr
  rw [State.setStat, State.reg_setReg_other _ _ h3, State.reg_setReg_other _ _ h2, State.reg_setReg_other _ _ h1]

/-- What stat and fstat leave: size, mode and result in their destinations, a later write winning (`45_syscall.md` R216). -/
theorem setStat_transact {t : State} (ht : t = (s.transact q).setStat a1 a2 ret ans) :
    t.reg ret = ans.ret ∧ (a2 ≠ ret → t.reg a2 = ans.mode) ∧ (a1 ∉ [a2, ret] → t.reg a1 = ans.size) ∧
      OnlyRegsChange [a1, a2, ret] s t ∧ t.requests = q :: s.requests :=
  ht ▸ ⟨State.reg_setStat_ret, State.reg_setStat_mode, State.reg_setStat_size,
    onlyRegsChange_setStat (s := s.transact q), rfl⟩

end

/-! ## A Number that names no host operation (`45_syscall.md` R210) -/

theorem sysOfNumber_eq_none {k : Byte} (h : ∀ o, config.sys o ≠ k) : sysOfNumber k = none :=
  Option.eq_none_iff_forall_ne_some.2 fun o ho => h o (sys_of_sysOfNumber ho)

theorem exec_sys_unrecognised {k : Byte} (h : sysOfNumber k = none) (a0 a1 a2 a3 a4 a5 ret : Reg) (s : State) :
    exec (.sys k a0 a1 a2 a3 a4 a5 ret) s = .next (s.fatal .unimplementedSyscall) := by
  rw [exec, execSys, h]

/-- Settles O43: the Number is looked up before anything else, and a fatal fault sends nothing to the host. -/
theorem unrecognisedSyscallFaults : Obligations.UnrecognisedSyscallFaults :=
  fun s _ a0 a1 a2 a3 a4 a5 ret h =>
    ⟨_, exec_sys_unrecognised (sysOfNumber_eq_none h) a0 a1 a2 a3 a4 a5 ret s, faultedWith_fatal s _, rfl⟩

/-! ## close and fstat (`45_syscall.md` R215, R217) -/

/-- Settles O47: neither operation reads memory, so both go on from every state with their write-back. -/
theorem syscallCloseAndFstatAnswer : Obligations.SyscallCloseAndFstatAnswer :=
  fun s _ _ _ _ _ _ ret => ⟨⟨_, rfl, writesOnly_transact s _ ret _, rfl⟩, _, rfl, setStat_transact rfl⟩

/-! ## The zero-terminated path (`45_syscall.md` R214) -/

section
variable {s : State} {a : Word} {b : Byte} {n : Nat}

theorem State.loadBytes_cons {bs : List Byte} (h : s.loadBytes a (n + 1) = some (b :: bs)) :
    s.byteAt a.toNat = some b ∧ s.loadBytes (a + 1) n = some bs := by
  rw [State.loadBytes] at h
  split at h
  · cases h
  · next hb =>
    split at h
    · cases h
    · next hbs =>
      cases h
      exact ⟨hb, hbs⟩

theorem State.loadString_of_zero (hb : s.byteAt a.toNat = some 0) : s.loadString a (n + 1) = some [0] := by
  rw [State.loadString, hb]
  exact if_pos rfl

theorem State.loadString_of_ne_zero {bs : List Byte} (hb : s.byteAt a.toNat = some b) (h0 : b ≠ 0)
    (hs : s.loadString (a + 1) n = some bs) : s.loadString a (n + 1) = some (b :: bs) := by
  rw [State.loadString, hb, hs]
  exact if_neg h0

/-- A string read ends at the first zero byte, if its fuel reaches that far. -/
theorem State.loadString_of_loadBytes {name : List Byte} (h0 : ∀ b ∈ name, b ≠ 0) (hn : name.length < n)
    (h : s.loadBytes a (name.length + 1) = some (name ++ [0])) : s.loadString a n = some (name ++ [0]) := by
  obtain ⟨n, rfl⟩ := Nat.exists_eq_add_one_of_ne_zero (Nat.ne_zero_of_lt hn)
  induction name generalizing a n with
  | nil => exact State.loadString_of_zero (State.loadBytes_cons h).1
  | cons b name ih =>
    obtain ⟨hb, htail⟩ := State.loadBytes_cons h
    obtain ⟨hb0, hname0⟩ := List.forall_mem_cons.1 h0
    simp only [List.length_cons] at hn
    obtain ⟨n, rfl⟩ := Nat.exists_eq_add_one_of_ne_zero (n := n) (by omega)
    exact State.loadString_of_ne_zero hb hb0 (ih hname0 htail n (by omega))

end

/-! ## The operations that access memory -/

section
variable {s t : State} {a0 a1 a2 ret : Reg} (a3 a4 a5 : Reg)

/-- A path that can be read is sent to the host before any register is written (`45_syscall.md` R214). -/
theorem exec_sysOpen_of_loadPath {name : List Byte} (h : s.loadPath (s.reg a0) = some name) :
    exec (.sysOpen a0 a1 a2 a3 a4 a5 ret) s =
      .next ((s.transact (.openPath (s.reg a0) (s.reg a1) (s.reg a2) name)).setReg ret s.answer.ret) := by
  rw [exec, execSysOpen, h]

theorem exec_sysOpen_of_unmapped (h : s.pathMeetsUnmapped (s.reg a0)) :
    exec (.sysOpen a0 a1 a2 a3 a4 a5 ret) s = .fault (.unmappedAccess (s.reg a0) 1) := by
  rw [exec, execSysOpen, State.loadPath_none.2 h]

theorem exec_sysStat_of_loadPath {name : List Byte} (h : s.loadPath (s.reg a0) = some name) :
    exec (.sysStat a0 a1 a2 a3 a4 a5 ret) s =
      .next ((s.transact (.stat (s.reg a0) name)).setStat a1 a2 ret s.answer) := by
  rw [exec, execSysStat, h]

theorem exec_sysStat_of_unmapped (h : s.pathMeetsUnmapped (s.reg a0)) :
    exec (.sysStat a0 a1 a2 a3 a4 a5 ret) s = .fault (.unmappedAccess (s.reg a0) 1) := by
  rw [exec, execSysStat, State.loadPath_none.2 h]

theorem exec_sysWrite_of_loadBytes {data : List Byte}
    (h : s.loadBytes (s.reg a1) (s.reg a2).toNat = some data) :
    exec (.sysWrite a0 a1 a2 a3 a4 a5 ret) s =
      .next ((s.transact (.write (s.reg a0) (s.reg a1) (s.reg a2) data)).setReg ret s.answer.ret) := by
  rw [exec, execSysWrite, h]

theorem exec_sysWrite_of_unmapped (h : s.meetsUnmapped (s.reg a1) (s.reg a2).toNat) :
    exec (.sysWrite a0 a1 a2 a3 a4 a5 ret) s = .fault (.unmappedAccess (s.reg a1) (s.reg a2).toNat) := by
  rw [exec, execSysWrite, State.loadBytes_eq_none.2 h]

theorem exec_sysRead_of_memWrite
    (h : (s.transact (.read (s.reg a0) (s.reg a1) (s.reg a2))).memWrite (s.reg a1) (placedBytes (s.reg a2) s.answer)
      s.answer.bytes = some t) :
    exec (.sysRead a0 a1 a2 a3 a4 a5 ret) s = .next (t.setReg ret (readResult (s.reg a2) s.answer)) := by
  rw [exec, execSysRead, h]

theorem exec_sysRead_of_unmapped (h : s.meetsUnmapped (s.reg a1) (placedBytes (s.reg a2) s.answer)) :
    exec (.sysRead a0 a1 a2 a3 a4 a5 ret) s =
      .fault (.unmappedAccess (s.reg a1) (placedBytes (s.reg a2) s.answer)) := by
  have hsent : (s.transact (.read (s.reg a0) (s.reg a1) (s.reg a2))).meetsUnmapped _ _ := h
  rw [exec, execSysRead, State.memWrite_eq_none.2 hsent]

end

/-- Settles O46: the path is the string that the read of its bytes gives, and `State.loadPath_none` says where there is none. -/
theorem syscallOpenAndStatReadThePath : Obligations.SyscallOpenAndStatReadThePath := by
  refine fun s a0 a1 a2 a3 a4 a5 ret => ⟨fun name hlen h0 hload => ?_, fun h => ?_⟩
  · have hpath : s.loadPath (s.reg a0) = some (name ++ [0]) := State.loadString_of_loadBytes h0 hlen hload
    exact ⟨⟨_, exec_sysOpen_of_loadPath a3 a4 a5 hpath, writesOnly_transact s _ ret _, rfl⟩,
      _, exec_sysStat_of_loadPath a3 a4 a5 hpath, setStat_transact rfl⟩
  · exact ⟨exec_sysOpen_of_unmapped a3 a4 a5 h, exec_sysStat_of_unmapped a3 a4 a5 h⟩

/-- Settles O45: the bytes sent are those that the load of the buffer gives, and it gives none where one is unmapped. -/
theorem syscallWriteSendsTheBuffer : Obligations.SyscallWriteSendsTheBuffer := by
  refine fun s a0 a1 a2 a3 a4 a5 ret => ⟨fun data hlen hbytes => ?_, exec_sysWrite_of_unmapped a3 a4 a5⟩
  have hload : s.loadBytes (s.reg a1) (s.reg a2).toNat = some data := State.loadBytes_spec.2 ⟨hlen, hbytes⟩
  exact ⟨_, exec_sysWrite_of_loadBytes a3 a4 a5 hload, writesOnly_transact s _ ret _, rfl⟩

/-! ## read by the sign of the answer (`45_syscall.md` R212, R219) -/

section
variable {ans : HostAnswer} (len : Word)

theorem placedBytes_of_negative (h : ans.ret.msb = true) : placedBytes len ans = 0 :=
  if_pos h

theorem readResult_of_negative (h : ans.ret.msb = true) : readResult len ans = ans.ret :=
  if_pos h

theorem placedBytes_of_nonnegative (h : ans.ret.msb = false) : placedBytes len ans = min ans.ret.toNat len.toNat :=
  if_neg (Bool.eq_false_iff.1 h)

theorem readResult_of_nonnegative (h : ans.ret.msb = false) :
    readResult len ans = BitVec.ofNat 64 (min ans.ret.toNat len.toNat) := by
  rw [← placedBytes_of_nonnegative len h]
  exact if_neg (Bool.eq_false_iff.1 h)

end

theorem State.memWrite_zero (s : State) (a : Word) (v : Nat) : s.memWrite a 0 v = some s := rfl

/-- A negative answer places no byte, so a read only writes RetDst. -/
theorem exec_sysRead_of_negative {s : State} {a0 a1 a2 ret : Reg} (a3 a4 a5 : Reg) (h : s.answer.ret.msb = true) :
    exec (.sysRead a0 a1 a2 a3 a4 a5 ret) s =
      .next ((s.transact (.read (s.reg a0) (s.reg a1) (s.reg a2))).setReg ret s.answer.ret) := by
  rw [exec_sysRead_of_memWrite a3 a4 a5 (by rw [placedBytes_of_negative _ h, State.memWrite_zero]),
    readResult_of_negative _ h]

/-- Settles O44: a negative answer places nothing; otherwise the store of the placed bytes gives the bytes within and outside
its range, or stops. -/
theorem syscallReadPlacesTheBytes : Obligations.SyscallReadPlacesTheBytes := by
  refine fun s a0 a1 a2 a3 a4 a5 ret => ⟨fun hneg => ?_, fun hpos => ?_⟩
  · exact ⟨_, exec_sysRead_of_negative a3 a4 a5 hneg, writesOnly_transact s _ ret _, rfl⟩
  · have hlen : min s.answer.ret.toNat (s.reg a2).toNat ≤ 2 ^ 64 :=
      (Nat.min_le_right ..).trans (Word.toNat_lt _).le
    rw [← readResult_of_nonnegative _ hpos]
    rw [← placedBytes_of_nonnegative _ hpos] at hlen ⊢
    refine ⟨fun hm => ?_, exec_sysRead_of_unmapped a3 a4 a5⟩
    obtain ⟨t, ht⟩ := State.memWrite_of_mapped (s := s.transact (.read (s.reg a0) (s.reg a1) (s.reg a2)))
      (v := s.answer.bytes) hm
    refine ⟨_, exec_sysRead_of_memWrite a3 a4 a5 ht, State.reg_setReg_same .., fun j => State.memWrite_inside ht hlen,
      fun x => State.memWrite_outside ht x, ?_⟩
    obtain ⟨m, rfl⟩ := State.memWrite_frame ht
    exact ⟨fun r hr => State.reg_setReg_other _ _ (by simpa using hr), ⟨fun _ => rfl, rfl⟩, ⟨rfl, rfl, rfl⟩, rfl⟩

end Sys2Proof.Machine
end

section
/-! PROOFS. Soft errors without an error register (`60_exceptions.md` R236): where ERRSEL names no register, the operation
that raises one stops. -/

namespace Sys2Proof.Machine

section
variable {s : State}

theorem exec_dealloc_of_free {x : Reg} {k : Fin 256} (hk : k.val = (s.reg x).toNat) (hfree : (s.slot k).data = 0) :
    exec (.dealloc x) s = softError .deallocNotAllocated s := by
  rw [exec_dealloc hk, State.deallocate_of_free hfree]
  rfl

/-- An operation without a result does no more than raise its soft error (`44_operate.md` R171). -/
theorem applyAlu_of_softErr {o : AluOp} {a b : Reg} {code : ErrorCode} (d : Reg)
    (h : aluResult o (s.reg a) (s.reg b) = .softErr code) : applyAlu o a b d s = softError code s := by
  rw [applyAlu, h]

end

/-- Settles O48: each instruction answers what its soft error does, the four forms of an operation through `applyAlu`, and
that is a stop where ERRSEL names no register. -/
theorem softErrorNeedsAnErrorRegister : Obligations.SoftErrorNeedsAnErrorRegister := by
  intro s x y z f sel m m' n hsel
  have hstop : ∀ code, softError code s = .fault .errSelRange := fun _ => softError_of_errSel_ge hsel
  refine ⟨fun k hk hfree => ?_, fun hn => ⟨?_, ?_⟩, fun hy => ?_⟩
  · rw [exec_dealloc_of_free hk hfree, hstop]
  · rw [exec_b2r_oversized x z hn, hstop]
  · rw [exec_r2b_oversized x z hn, hstop]
  · have hdiv : applyAlu .div x y z s = .fault .errSelRange :=
      (applyAlu_of_softErr z (aluResult_div_zero hy)).trans (hstop _)
    have hmod : applyAlu .mod x y z s = .fault .errSelRange :=
      (applyAlu_of_softErr z (aluResult_mod_zero hy)).trans (hstop _)
    refine ⟨(exec_instrOfAlu (o := .div) m).trans hdiv, (exec_instrOfAlu (o := .mod) m).trans hmod,
      fun hg => ⟨(exec_instrOfAluIf (o := .div) hg).trans hdiv, (exec_instrOfAluIf (o := .mod) hg).trans hmod⟩, ?_⟩
    rintro (hs | hs)
    · exact ⟨(exec_opInd m' hs).trans hdiv, fun hg => (exec_opIfInd hs hg).trans hdiv⟩
    · exact ⟨(exec_opInd m' hs).trans hmod, fun hg => (exec_opIfInd hs hg).trans hmod⟩

end Sys2Proof.Machine
end

section
/-! PROOFS. Reset and its hazards (`70_reset_and_hazards.md`): what HOST.start maps, and the step of initialisation by the length
of the blob. -/

namespace Sys2Proof.Machine

/-- The buffers that HOST.start maps: the record array, its sub-buffers and the further host regions (`20_memory.md` R57). -/
def Launch.presented (l : Launch) : List Buffer := l.blob :: subBuffers l.mem l.blob ++ l.hostRegions

/-! ## The sub-buffers of the records (`20_memory.md` R60) -/

/-- A field of a record is the number that its eight presented bytes spell. -/
theorem recordWord_of_presentedAt {m : List Host.Cell} {a : Word} {bs : List Byte} (hl : bs.length = 8)
    (h : PresentedAt m a bs) : recordWord m a = some (BitVec.ofNat 64 (natOfBytes bs)) := by
  match bs, hl with
  | [b0, b1, b2, b3, b4, b5, b6, b7], _ =>
    have hfirst : Memory.read m a.toNat = some b0 := by simpa using h 0 (by simp)
    simp only [PresentedAt, BitVec.toNat_add, BitVec.toNat_ofNat, Nat.add_mod_mod] at h
    simp [recordWord, hfirst, h]

theorem mem_subBuffers {m : List Host.Cell} {blob b : Buffer} {k : Nat} (hk : k < 16) (hn : k < blob.length.toNat / 16)
    (hb : blobRecord m blob k = some b) : b ∈ subBuffers m blob :=
  List.mem_filterMap.2 ⟨k, List.mem_range.2 (Nat.lt_min.2 ⟨hn, hk⟩), hb⟩

/-- The record whose two fields are presented gives a sub-buffer. -/
theorem mem_subBuffers_of_presentedAt {m : List Host.Cell} {blob : Buffer} {k : Nat} {len data : List Byte} (hk : k < 16)
    (hn : k < blob.length.toNat / 16) (hlen : len.length = 8) (hdata : data.length = 8)
    (hpl : PresentedAt m (blob.data + BitVec.ofNat 64 (16 * k) + config.recLenOff) len)
    (hpd : PresentedAt m (blob.data + BitVec.ofNat 64 (16 * k) + config.recDataOff) data) :
    { length := BitVec.ofNat 64 (natOfBytes len), data := BitVec.ofNat 64 (natOfBytes data) } ∈ subBuffers m blob := by
  refine mem_subBuffers hk hn ?_
  simp only [blobRecord, recSize, recordWord_of_presentedAt hlen hpl, recordWord_of_presentedAt hdata hpd]

/-! ## What HOST.start maps -/

section
variable {s : State} {l : Launch} {a : Nat}

theorem State.isMapped_hostStart : (s.hostStart l).isMapped a = true ↔
    ∃ b ∈ l.presented, b.data ≠ 0 ∧ (b.data.toNat ≤ a ∧ a < b.data.toNat + b.length.toNat) ∧ a < 2 ^ 64 := by
  have hc : ∀ b, (hostRegion s.draws b).contains a = true ↔
      b.data ≠ 0 ∧ (b.data.toNat ≤ a ∧ a < b.data.toNat + b.length.toNat) ∧ a < 2 ^ 64 := fun _ => Region.contains_iff
  have hm : (s.hostStart l).isMapped a = (l.presented.map (hostRegion s.draws)).any fun r => r.contains a := rfl
  simp only [hm, List.any_map, List.any_eq_true, Function.comp_apply, hc]

/-- HOST.start drops exactly the presented bytes that it does not map. -/
theorem State.hostStart_mem : (s.hostStart l).mem = l.mem.filter fun c => (s.hostStart l).isMapped c.1 := by
  have hm : ∀ c : Host.Cell, (s.hostStart l).isMapped c.1 =
      l.presented.any fun b => (hostRegion s.draws b).contains c.1 := fun _ => List.any_map
  simp only [hm]
  rfl

/-- A mapped address reads as the host presents it (`20_memory.md` R57). -/
theorem State.byteAt_hostStart {v : Byte} (ha : (s.hostStart l).isMapped a = true) (hv : Memory.read l.mem a = some v) :
    (s.hostStart l).byteAt a = some v := by
  have hread : Memory.read (s.hostStart l).mem a = some v := by
    rw [State.hostStart_mem, Memory.read_filter, if_pos ha, hv]
  obtain ⟨r, hr⟩ := Option.isSome_iff_exists.1 (State.isMapped_eq .. ▸ ha)
  simp [State.byteAt, hr, hread]

theorem mappedAsPresented_of_mem {b : Buffer} (hb : b ∈ l.presented) : MappedAsPresented l.mem b (s.hostStart l) :=
  fun h0 _ hlo hhi hlt =>
    have hm := State.isMapped_hostStart.2 ⟨b, hb, h0, ⟨hlo, hhi⟩, hlt⟩
    ⟨hm, fun _ => State.byteAt_hostStart hm⟩

theorem State.owner_of_mem_hostStart {r : Region} (hr : r ∈ (s.hostStart l).regions) : r.owner = .host := by
  obtain ⟨b, -, rfl⟩ := List.mem_map.1 hr
  rfl

/-- HOST.start from any state: every region is the host's, and the latches are those of a run that has not begun. -/
theorem State.hostStart_inv (hw : Memory.wf l.mem) : (s.hostStart l).Inv where
  memWf := Memory.wf_hostStart s l hw
  memMapped := fun c hc => by
    rw [State.hostStart_mem] at hc
    exact (List.mem_filter.1 hc).2
  slotMapped := nofun
  regionLive := fun r hr k ho => by
    rw [State.owner_of_mem_hostStart hr] at ho
    cases ho
  disjoint := List.pairwise_of_forall_mem_list fun r hr q hq ho =>
    (ho.elim (· (State.owner_of_mem_hostStart hr)) (· (State.owner_of_mem_hostStart hq))).elim
  fresh := fun _ _ => State.owner_of_mem_hostStart
  outputNull := fun _ => rfl
  latch := ⟨fun _ => rfl, nofun⟩

end

/-- Settles O51: each kind of buffer is among those that HOST.start maps, and nothing else is. -/
theorem hostStartGivesTheInvariant : Obligations.HostStartGivesTheInvariant := by
  intro s l hw
  refine ⟨State.hostStart_inv hw, rfl, fun _ _ => rfl, rfl, mappedAsPresented_of_mem (by simp [Launch.presented]),
    fun k hk hn len data hlen hdata hpl hpd => ?_, fun b hb => mappedAsPresented_of_mem (by simp [Launch.presented, hb]),
    fun a ha => ?_⟩
  · have hsub := mem_subBuffers_of_presentedAt hk hn hlen hdata hpl hpd
    exact mappedAsPresented_of_mem (List.mem_append_left _ (List.mem_cons_of_mem _ hsub))
  · obtain ⟨b, hb, h0, ⟨hlo, hhi⟩, -⟩ := State.isMapped_hostStart.1 ha
    exact ⟨b, hb, h0, hlo, hhi⟩

/-! ## The step of initialisation (`70_reset_and_hazards.md` R261, R262) -/

theorem blobValid_iff {blob : Buffer} : blobValid blob = true ↔
    blob.length ≠ 0 ∧ blob.length.toNat % 16 = 0 ∧ blob.length.toNat / 16 ≤ 16 := by
  simp only [blobValid, Bool.and_eq_true, bne_iff_ne, beq_iff_eq, decide_eq_true_eq, and_assoc]
  rfl

section
variable {s : State}

theorem step_of_initializing (hr : s.runState = .initializing) : step s = initialise s := by
  unfold step
  rw [hr]

theorem initialise_of_memRead {v : Nat} (hb : blobValid s.blob = true)
    (hv : s.memRead (s.blob.data + config.recDataOff) 8 = some v) : initialise s =
      .next ((s.initRegs (BitVec.ofNat 64 v)).clearSlots.conclude .running nullBuffer .noError) := by
  simp only [initialise, hb, hv, if_true]

theorem initialise_of_unmapped (hb : blobValid s.blob = true) (hu : s.meetsUnmapped (s.blob.data + config.recDataOff) 8) :
    initialise s = .fault (.unmappedAccess (s.blob.data + config.recDataOff) 8) := by
  simp only [initialise, hb, State.memRead_eq_none.2 hu, if_true]

theorem initialise_of_malformed (hb : ¬ blobValid s.blob = true) : initialise s = .next (s.fatal .malformedInput) :=
  if_neg hb

theorem State.reg_initRegs (v : Word) (r : Reg) : (s.initRegs v).reg r =
    if r = 11 then s.blob.data else if r = 10 then s.blob.length else if r = 0 then v else s.reg r := by
  simp only [State.initRegs, State.reg_setReg]

end

/-- Settles O2: a valid blob leaves the read of record 0 to decide between the start of the run and the stop. -/
theorem validBlobInitialises : Obligations.ValidBlobInitialises := by
  intro s hr h0 hmod hmax
  have hb : blobValid s.blob = true := blobValid_iff.2 ⟨h0, hmod, hmax⟩
  rw [step_of_initializing hr]
  refine ⟨fun v hv => ⟨_, initialise_of_memRead hb hv, rfl, State.reg_initRegs .., State.reg_initRegs ..,
    State.reg_initRegs .., fun r hn => ?_, fun _ => rfl, rfl, (s.initRegs (BitVec.ofNat 64 v)).clearSlots_slot, rfl, rfl⟩,
    initialise_of_unmapped hb⟩
  obtain ⟨hip, hlen, hbase⟩ : r ≠ 0 ∧ r ≠ 10 ∧ r ≠ 11 := by simpa using hn
  exact (State.reg_initRegs ..).trans (by rw [if_neg hbase, if_neg hlen, if_neg hip])

/-- Settles O3: the three conditions on the length are those under which `blobValid` fails. -/
theorem malformedBlobFaults : Obligations.MalformedBlobFaults := by
  intro s hr
  have hiff : (s.blob.length = 0 ∨ s.blob.length.toNat % 16 ≠ 0 ∨ 16 < s.blob.length.toNat / 16) ↔
      ¬ blobValid s.blob = true := by
    rw [blobValid_iff]
    simp only [not_and_or, not_not, Nat.not_le, ne_eq]
  rw [step_of_initializing hr, hiff]
  refine ⟨fun hb => ⟨_, initialise_of_malformed hb, rfl, rfl, rfl, fun _ _ => rfl, fun _ => rfl⟩, fun hb t ht => ?_⟩
  rcases initialise_cases ht with ⟨v, rfl, -⟩ | ⟨-, hbad⟩
  · rfl
  · exact absurd (by simp [hbad]) hb

/-! ## The spec's own bytes -/

/-- Settles O9: the decoder is run on each of the byte sequences (`95_test_vectors.md` part 2). -/
theorem specBytesDecode : Obligations.SpecBytesDecode := by
  unfold Obligations.SpecBytesDecode
  decide

end Sys2Proof.Machine
end
